-- ==== Sys2Proof/Word.lean ====
section
/-! DEFINITION. The widths the spec works in (00_scope.md R6, R9) and the two pins (40_gpio.md R70). -/

namespace Sys2Proof

/-- A `u8`: a byte on the wire, of RXBUF or of HMEM (R9, R17). -/
abbrev Byte := BitVec 8

/-- A command word, 64 bits (R60). -/
abbrev Word := BitVec 64

/-- What port RES carries: the `i32` result of a command (R6, R14). -/
abbrev Result := BitVec 32

/-- The two pins of the block (R70). -/
inductive Pin where
  /-- the data line -/
  | sda
  /-- the clock line -/
  | scl
deriving DecidableEq, Repr

end Sys2Proof
end

