-- ==== Sys2Proof/Syntax.lean ====
section
/-! DEFINITION. The commands of the block: one constructor per row of spec/opcode_table.json (30_encoding.md R63),
operands at the widths of R61. Every operand value is legal (R65), so the types carry all of well-formedness. -/

namespace Sys2Proof

/-- FRN20-SI2C command set 1 (R2, R63). -/
inductive Instr where
  /-- SET_LOW, R71: pull a line low -/
  | setLow (p : Pin)
  /-- SET_HIGH, R72: release a line -/
  | setHigh (p : Pin)
  /-- START, R90: START condition and address byte -/
  | start (ab : Byte)
  /-- REP_START, R92: repeated START condition and address byte -/
  | repStart (ab : Byte)
  /-- START_WAIT, R93: START retried until acknowledged -/
  | startWait (ab : Byte)
  /-- STOP, R94 -/
  | stop
  /-- WRITE_BYTE, R96 -/
  | writeByte (v : Byte)
  /-- READ_BYTE, R99 -/
  | readByte (last : Bool)
  /-- BUS_BEGIN, R106 -/
  | busBegin
  /-- BUS_END, R108 -/
  | busEnd
  /-- BEGIN_TX, R109 -/
  | beginTx (a7 : BitVec 7)
  /-- END_TX, R112 -/
  | endTx (sendStop : Bool)
  /-- WRITE, R115 -/
  | write (b : Byte)
  /-- WRITE_BUF, R117 -/
  | writeBuf (haddr : BitVec 32) (len : BitVec 16)
  /-- REQUEST_FROM, R119 -/
  | requestFrom (a7 : BitVec 7) (qty : Byte) (iaddr : BitVec 24) (isize : BitVec 2) (sendStop : Bool)
  /-- AVAILABLE, R123 -/
  | available
  /-- READ, R124 -/
  | read
  /-- PEEK, R125 -/
  | peek
  /-- CRC8, R131 -/
  | crc8 (haddr : BitVec 32) (len : BitVec 16)
  /-- CRC_CHECK, R134 -/
  | crcCheck (haddr : BitVec 32) (len : BitVec 16)
deriving DecidableEq, Repr

end Sys2Proof
end

