-- ==== Sys2Proof/Decode.lean ====
section
/-! DEFINITION. Decoding a command word (30_encoding.md R60 to R66), total on every word and every byte string, and
the encoder from the same table. -/

namespace Sys2Proof

/-- The seven formats of R61. -/
inductive Format where
  | n | p | l | b | a | m | r
deriving DecidableEq, Repr

/-- Why a word is no command (R64, R65): each makes the step raise `IllegalCommand`. -/
inductive DecodeError where
  /-- R65 (a): the opcode byte is in no row of R63 -/
  | unassignedOpcode (opc : Byte)
  /-- R65 (b): the opcode is assigned and a reserved bit of its format is 1 -/
  | reservedBitSet (w : Word)
  /-- fewer than the 8 bytes of one word (R42, R60) -/
  | truncated
deriving DecidableEq, Repr

/-- The bits of a format that hold operand fields (R61). -/
def Format.fieldBits : Format → Word
  | .n => 0x0000000000000000
  | .p => 0x0000000000000001
  | .l => 0x0000000000000001
  | .b => 0x00000000000000FF
  | .a => 0x000000000000007F
  | .m => 0x0000FFFFFFFFFFFF
  | .r => 0x000007FFFFFFFF7F

/-- The mask of a row (R63): the opcode byte and every reserved bit. -/
def Format.mask (f : Format) : Word := ~~~ f.fieldBits

/-- Bits 63:56, the opcode field (R60). -/
def opcodeOf (w : Word) : Byte := w.extractLsb' 56 8

/-- `PSEL[0]`: 0 = SDA, 1 = SCL (R61, R70). -/
def pselOf (w : Word) : Pin := if w.getLsbD 0 then .scl else .sda

/-- `FLAG[0]` (R61). -/
def flagOf (w : Word) : Bool := w.getLsbD 0

/-- `BYTE[7:0]` (R61). -/
def byteOf (w : Word) : Byte := w.extractLsb' 0 8

/-- `ADDR7[6:0]` of formats A and R (R61). -/
def addr7Of (w : Word) : BitVec 7 := w.extractLsb' 0 7

/-- `HADDR[31:0]` (R61). -/
def haddrOf (w : Word) : BitVec 32 := w.extractLsb' 0 32

/-- `LEN[47:32]` (R61). -/
def lenOf (w : Word) : BitVec 16 := w.extractLsb' 32 16

/-- `QTY[15:8]` (R61). -/
def qtyOf (w : Word) : Byte := w.extractLsb' 8 8

/-- `IADDR[39:16]` (R61). -/
def iaddrOf (w : Word) : BitVec 24 := w.extractLsb' 16 24

/-- `ISIZE[41:40]` (R61). -/
def isizeOf (w : Word) : BitVec 2 := w.extractLsb' 40 2

/-- `STOP[42]` (R61). -/
def stopOf (w : Word) : Bool := w.getLsbD 42

/-- One row of the opcode map (R63): opcode, format, and how the row's fields are read (R61, R62). -/
structure OpRow where
  opc  : Byte
  fmt  : Format
  read : Word → Instr

/-- The match value of a row (R63): the opcode in bits 63:56, zeros below. -/
def OpRow.matchWord (row : OpRow) : Word := row.opc ++ 0#56

/-- The opcode map (R63), in its order. -/
def opTable : List OpRow :=
  [ { opc := 0x01, fmt := .p, read := fun w => .setLow (pselOf w) },
    { opc := 0x02, fmt := .p, read := fun w => .setHigh (pselOf w) },
    { opc := 0x10, fmt := .b, read := fun w => .start (byteOf w) },
    { opc := 0x11, fmt := .b, read := fun w => .repStart (byteOf w) },
    { opc := 0x12, fmt := .b, read := fun w => .startWait (byteOf w) },
    { opc := 0x13, fmt := .n, read := fun _ => .stop },
    { opc := 0x14, fmt := .b, read := fun w => .writeByte (byteOf w) },
    { opc := 0x15, fmt := .l, read := fun w => .readByte (flagOf w) },
    { opc := 0x20, fmt := .n, read := fun _ => .busBegin },
    { opc := 0x21, fmt := .n, read := fun _ => .busEnd },
    { opc := 0x22, fmt := .a, read := fun w => .beginTx (addr7Of w) },
    { opc := 0x23, fmt := .l, read := fun w => .endTx (flagOf w) },
    { opc := 0x24, fmt := .b, read := fun w => .write (byteOf w) },
    { opc := 0x25, fmt := .m, read := fun w => .writeBuf (haddrOf w) (lenOf w) },
    { opc := 0x26, fmt := .r,
      read := fun w => .requestFrom (addr7Of w) (qtyOf w) (iaddrOf w) (isizeOf w) (stopOf w) },
    { opc := 0x27, fmt := .n, read := fun _ => .available },
    { opc := 0x28, fmt := .n, read := fun _ => .read },
    { opc := 0x29, fmt := .n, read := fun _ => .peek },
    { opc := 0x30, fmt := .m, read := fun w => .crc8 (haddrOf w) (lenOf w) },
    { opc := 0x31, fmt := .m, read := fun w => .crcCheck (haddrOf w) (lenOf w) } ]

/-- The row of an opcode, if it is assigned (R64). -/
def rowOf (opc : Byte) : Option OpRow := opTable.find? (fun row => row.opc == opc)

/-- `Decode(w)` of R64. -/
def decode (w : Word) : Except DecodeError Instr :=
  match rowOf (opcodeOf w) with
  | none     => .error (.unassignedOpcode (opcodeOf w))
  | some row => if w &&& row.fmt.mask = row.matchWord then .ok (row.read w) else .error (.reservedBitSet w)

/-! ### A word carried as bytes (20_memory.md R42) -/

/-- R42: the first byte holds bits 63:56, the last bits 7:0. -/
def wordBytes (w : Word) : List Byte :=
  [w.extractLsb' 56 8, w.extractLsb' 48 8, w.extractLsb' 40 8, w.extractLsb' 32 8,
   w.extractLsb' 24 8, w.extractLsb' 16 8, w.extractLsb' 8 8, w.extractLsb' 0 8]

/-- The word that eight bytes carry, first byte highest (R42). -/
def wordOfBytes (b0 b1 b2 b3 b4 b5 b6 b7 : Byte) : Word :=
  b0 ++ (b1 ++ (b2 ++ (b3 ++ (b4 ++ (b5 ++ (b6 ++ b7))))))

/-- Decode the command at the head of a byte string and give the rest of it. -/
def decodeBytes : List Byte → Except DecodeError (Instr × List Byte)
  | b0 :: b1 :: b2 :: b3 :: b4 :: b5 :: b6 :: b7 :: rest =>
    match decode (wordOfBytes b0 b1 b2 b3 b4 b5 b6 b7) with
    | .ok i    => .ok (i, rest)
    | .error e => .error e
  | _ => .error .truncated

/-! ### The encoder -/

/-- The value of `PSEL` for a pin (R61). -/
def pselBit : Pin → BitVec 1
  | .sda => 0#1
  | .scl => 1#1

/-- Format N (R61): no field. -/
def encodeN (opc : Byte) : Word := opc ++ 0#56

/-- Formats P and L (R61): one bit. -/
def encodeBit (opc : Byte) (b : BitVec 1) : Word := opc ++ (0#55 ++ b)

/-- Format B (R61): `BYTE`. -/
def encodeB (opc v : Byte) : Word := opc ++ (0#48 ++ v)

/-- Format A (R61): `ADDR7`. -/
def encodeA (opc : Byte) (a7 : BitVec 7) : Word := opc ++ (0#49 ++ a7)

/-- Format M (R61): `LEN` above `HADDR`. -/
def encodeM (opc : Byte) (haddr : BitVec 32) (len : BitVec 16) : Word := opc ++ (0#8 ++ (len ++ haddr))

/-- Format R (R61). -/
def encodeR (opc : Byte) (a7 : BitVec 7) (qty : Byte) (iaddr : BitVec 24) (isize : BitVec 2) (sendStop : Bool) : Word :=
  opc ++ (0#13 ++ (BitVec.ofBool sendStop ++ (isize ++ (iaddr ++ (qty ++ (0#1 ++ a7))))))

/-- The command word of a command (R61, R63). -/
def encode : Instr → Word
  | .setLow p        => encodeBit 0x01 (pselBit p)
  | .setHigh p       => encodeBit 0x02 (pselBit p)
  | .start ab        => encodeB 0x10 ab
  | .repStart ab     => encodeB 0x11 ab
  | .startWait ab    => encodeB 0x12 ab
  | .stop            => encodeN 0x13
  | .writeByte v     => encodeB 0x14 v
  | .readByte last   => encodeBit 0x15 (BitVec.ofBool last)
  | .busBegin        => encodeN 0x20
  | .busEnd          => encodeN 0x21
  | .beginTx a7      => encodeA 0x22 a7
  | .endTx s         => encodeBit 0x23 (BitVec.ofBool s)
  | .write b         => encodeB 0x24 b
  | .writeBuf h n    => encodeM 0x25 h n
  | .requestFrom a7 qty iaddr isize s => encodeR 0x26 a7 qty iaddr isize s
  | .available       => encodeN 0x27
  | .read            => encodeN 0x28
  | .peek            => encodeN 0x29
  | .crc8 h n        => encodeM 0x30 h n
  | .crcCheck h n    => encodeM 0x31 h n

/-! ### The opcode table's words -/

/-- The command of an instruction whose bits, numbered as spec/opcode_table.json numbers them, are `w`: a command is one
64-bit word, so its bit 0 is bit 0 of the table. The word is laid out as its eight bytes (R42) and decoded from them. -/
def decodeTableWord (_nbits w : Nat) : Option Instr :=
  match decodeBytes (wordBytes (BitVec.ofNat 64 w)) with
  | .ok (i, _) => some i
  | .error _   => none

end Sys2Proof
end

