-- ==== Sys2Proof/Config.lean ====
section
/-! DEFINITION. The parameters of the block (00_scope.md R7), each fixed for its life, and the free values:
the environment's oracle (R13) and the contents RXBUF has before REQUEST_FROM writes it (93 U2). -/

namespace Sys2Proof

/-- A pin's direction (10_state.md R29): `input` is high impedance (IN), `output` drives the latch (OUT). -/
inductive Dir where
  | input
  | output
deriving DecidableEq, Repr

/-- The three bits of state of one pin (10_state.md R29). -/
structure PinState where
  /-- IN or OUT -/
  dir : Dir
  /-- the output latch, driven while `dir` is `output` -/
  out : Bool
  /-- the internal pull-up enable, effective while `dir` is `input` -/
  pu  : Bool
deriving DecidableEq, Repr

/-- `IRQ_EXIT_POLICY` (R7, 40_gpio.md R77): what a pin operation does to IE when it ends. -/
inductive IrqExitPolicy where
  /-- IE gets back the value it had at entry -/
  | restore
  /-- IE gets 1 -/
  | enable
deriving DecidableEq, Repr

/-- The parameters of R7. `H_US` is computed from `tUs` (`Config.hUs`). -/
structure Config where
  /-- platform pin id `SDA_PIN` -/
  sdaPin   : Nat
  /-- platform pin id `SCL_PIN` -/
  sclPin   : Nat
  /-- `PULLUP`: the pull-up-mode flag -/
  pullup   : Bool
  /-- `RX_CAP`: capacity of RXBUF, 1..255 -/
  rxCap    : Nat
  /-- `T_US`: the delay constant in microseconds, at least 1 -/
  tUs      : Nat
  /-- `N_SW`: the bound of START_WAIT, at least 1 -/
  nSw      : Nat
  /-- `HMEM_SIZE`: 1..2^32 -/
  hmemSize : Nat
  /-- `IRQ_EXIT_POLICY` -/
  irqExit  : IrqExitPolicy
  /-- `PIN_RESET` of SDA -/
  sdaReset : PinState
  /-- `PIN_RESET` of SCL -/
  sclReset : PinState
  /-- `IE_RESET` -/
  ieReset  : Bool
deriving DecidableEq, Repr

/-- `H_US = floor(T_US / 2)` (R7, 93 I4). -/
def Config.hUs (c : Config) : Nat := c.tUs / 2

/-- The platform pin id of a pin (R70). -/
def Config.platformPin (c : Config) : Pin → Nat
  | .sda => c.sdaPin
  | .scl => c.sclPin

/-- FREE VALUE (R13, 93 U1; log 3): the oracle. `Config.oracle k` is the `k`-th oracle bit of a run where the state's
plain data (`Lines.answers`) fixes none. Nothing constrains it. -/
opaque Config.oracle : Nat → Bool

/-- FREE VALUE (R38, 93 U2; log 4): what element `i` of RXBUF holds while no REQUEST_FROM has written it. -/
opaque Config.rxbufFree : Nat → Byte

/-- The reference configuration of 95_test_vectors.md section 0. DESIGN CHOICE (log 1): `State.reset` is the block
constructed with it. `T_US` and the two pin ids have no reference value there: DESIGN CHOICE (log 2). -/
def Config.reference : Config where
  sdaPin   := 0
  sclPin   := 1
  pullup   := true
  rxCap    := 45
  tUs      := 5
  nSw      := 3
  hmemSize := 512
  irqExit  := .restore
  sdaReset := { dir := .input, out := false, pu := false }
  sclReset := { dir := .input, out := false, pu := false }
  ieReset  := true

end Sys2Proof
end

