-- ==== Sys2Proof/Machine/State.lean ====
section
/-! DEFINITION. The state of the block (10_state.md R21, S0 to S13), what stands around it (host memory, the host's next
moves, the answers of the bus environment), the reasons a step stops, and reset (R38). Plain data. -/

namespace Sys2Proof.Machine

/-- The two busy-wait requests of port DELAY (00_scope.md R6, R11). -/
inductive DelayKind where
  /-- `T`: `T_US` microseconds -/
  | t
  /-- `H`: `H_US` microseconds -/
  | h
deriving DecidableEq, Repr

/-- One entry of the event list (00_scope.md R11, R12). -/
inductive Event where
  /-- `Low(p)`: the master pulled the line low -/
  | low (p : Pin)
  /-- `Rel(p)`: the master released the line -/
  | rel (p : Pin)
  /-- `Samp(p, b)`: the master read `b` -/
  | samp (p : Pin) (b : Bool)
  /-- `Wait(k)`: a delay was asked for -/
  | wait (k : DelayKind)
deriving DecidableEq, Repr

/-- All that a micro-operation touches (00_scope.md R11): the pins (S5 to S10), IE (S11), the environment's answers and
the event list. 41_bit_engine.md R85 says the engine's commands change nothing else. -/
structure Lines where
  /-- S5 to S7 -/
  sda     : PinState
  /-- S8 to S10 -/
  scl     : PinState
  /-- S11, the host's global interrupt enable (R31) -/
  ie      : Bool
  /-- the environment's next answers that are fixed in advance (R13); past them the answers are `Config.oracle` -/
  answers : List Bool
  /-- how many oracle bits the run has used (R13) -/
  taken   : Nat
  /-- `E`: the micro-operations of the command, in order (R12) -/
  events  : List Event
deriving DecidableEq, Repr

/-- The host memory HMEM (20_memory.md R48) as (address, byte) pairs: addresses strictly rising, no byte equal to what an
unlisted address reads as. -/
abbrev Memory := List Host.Cell

/-- The fault codes of 60_exceptions.md R150. -/
inductive FaultCode where
  /-- code 1 -/
  | illegalCommand
  /-- code 2 -/
  | reentrant
  /-- code 3 -/
  | hostMemRange
  /-- code 4 -/
  | pushPullHigh
deriving DecidableEq, Repr

/-- What the host does next (00_scope.md R5, R6). -/
inductive HostMove where
  /-- present a command word on port CMD -/
  | command (w : Word)
  /-- store a byte into HMEM between commands (95_test_vectors.md section 3) -/
  | store (addr : Nat) (b : Byte)
  /-- set the global interrupt enable between commands (10_state.md R31) -/
  | setIE (v : Bool)
deriving DecidableEq, Repr

/-- The state: S0 to S13 of R21 and what stands around the block. -/
structure State where
  /-- the parameters of 00_scope.md R7; no step changes them -/
  cfg    : Config
  /-- S0, the error code of the open transmission (R22) -/
  err    : Byte
  /-- S1, the transmitting flag (R23) -/
  txing  : Bool
  /-- S2, the receive buffer, `RX_CAP` bytes (R25) -/
  rxbuf  : List Byte
  /-- S3, the read cursor (R26) -/
  rxpos  : Byte
  /-- S4, the valid length (R27) -/
  rxlen  : Byte
  /-- S5 to S11, the answers of the environment, the event list -/
  lines  : Lines
  /-- S12 (R32) -/
  busy   : Bool
  /-- S13 (R33) -/
  fault  : Option FaultCode
  /-- the host memory (20_memory.md R48) -/
  hmem   : Memory
  /-- port RES: the result of the last command completed (00_scope.md R14) -/
  res    : Result
  /-- the host's next moves, in order -/
  script : List HostMove
  /-- the host's index into its command list: how many commands have completed (R24) -/
  index  : Nat
deriving DecidableEq, Repr

/-- Why a step stops: `Fault(F, S')` of 00_scope.md R12. `after` is `S'`: FAULT set, BUSY 0, the effects of every
micro-operation completed before the fault kept (60_exceptions.md R153). No other fault exists (R150). All are safe: the
source gives the input no meaning (92 D33). -/
inductive Fault where
  /-- code 1. Raised by the step for a word `Decode` refuses (R152). Safe. -/
  | illegalCommand (w : Word) (after : State)
  /-- code 2. Raised by the step for a command that arrives while BUSY = 1 (R151). Safe. -/
  | reentrant (after : State)
  /-- code 3. Raised by WRITE_BUF, CRC8 and CRC_CHECK when `HADDR + LEN > HMEM_SIZE` (20_memory.md R50). Safe. -/
  | hostMemRange (haddr : BitVec 32) (len : BitVec 16) (after : State)
  /-- code 4. Raised by a `SetLow(p)` with `PULLUP = 0` on a latch at 1 (40_gpio.md R74). Safe. -/
  | pushPullHigh (p : Pin) (after : State)
  /-- Not one of R150's faults: the block is stuck, FAULT holds `code` and there is no step (R155). Safe. -/
  | noStep (code : FaultCode)
deriving DecidableEq, Repr

/-- Why the model has no step for an input. -/
inductive Refusal where
  /-- An instruction without a meaning yet, rejected in exec's arm. No arm raises it. Safe. -/
  | notModelled (mnemonic : String)
  /-- Raised by the host's move `store` at an address that is none of HMEM's (20_memory.md R48). Safe. -/
  | hostStoreOutside (addr : Nat)
  /-- Raised by `construct` for a configuration outside the parameters' types (00_scope.md R7). Safe. -/
  | noSuchBlock
deriving DecidableEq, Repr

/-- The state right after construction with the parameters `c` (R38, 70_reset_and_hazards.md R170). `res` has no value
there: DESIGN CHOICE 0 (log 6). RXBUF holds the free bytes (log 4). -/
def State.resetWith (c : Config) : State where
  cfg    := c
  err    := 0
  txing  := false
  rxbuf  := (List.range c.rxCap).map Config.rxbufFree
  rxpos  := 0
  rxlen  := 0
  lines  := { sda := c.sdaReset, scl := c.sclReset, ie := c.ieReset, answers := [], taken := 0, events := [] }
  busy   := false
  fault  := none
  hmem   := []
  res    := 0
  script := []
  index  := 0

/-- The machine right after reset, in the reference configuration (log 1). -/
def State.reset : State := State.resetWith Config.reference

end Sys2Proof.Machine
end

