-- ==== Sys2Proof/Machine/Ops.lean ====
section
/-! DEFINITION. The named operations: host memory (20_memory.md), the micro-operations (00_scope.md R11, 40_gpio.md),
raising a fault and the part of the common step that runs a body (60_exceptions.md R153). -/

namespace Sys2Proof.Machine

/-! ### Host memory -/

/-- What an address that the memory does not list reads as. DESIGN CHOICE (log 5). -/
def Memory.unlisted : Byte := 0

/-- The byte at an address. -/
def Memory.read : Memory → Nat → Byte
  | [], _ => Memory.unlisted
  | (k, v) :: rest, a => if k = a then v else Memory.read rest a

/-- A cell in front of a memory, left out where it holds what an unlisted address reads as. -/
def Memory.consCell (a : Nat) (b : Byte) (m : Memory) : Memory :=
  if b = Memory.unlisted then m else (a, b) :: m

/-- Store a byte, keeping the canonical form. -/
def Memory.write : Memory → Nat → Byte → Memory
  | [], a, b => Memory.consCell a b []
  | (k, v) :: rest, a, b =>
    if a < k then Memory.consCell a b ((k, v) :: rest)
    else if a = k then Memory.consCell a b rest
    else (k, v) :: Memory.write rest a b

/-- The canonical form: addresses strictly rising, no cell equal to what an unlisted address reads as. -/
def Memory.wf : Memory → Bool
  | [] => true
  | (k, v) :: rest => v != Memory.unlisted && rest.all (fun c => decide (k < c.1)) && Memory.wf rest

/-- Every listed address lies below `n`. -/
def Memory.below (n : Nat) (m : Memory) : Bool := m.all (fun c => decide (c.1 < n))

/-- `MemRead(addr, n)` of R10: `n` bytes, one at a time, in address order (R45). -/
def Memory.readRange (m : Memory) (addr n : Nat) : List Byte :=
  (List.range n).map (fun k => Memory.read m (addr + k))

/-! ### The lines -/

/-- The state of a pin. -/
def Lines.pin (l : Lines) : Pin → PinState
  | .sda => l.sda
  | .scl => l.scl

/-- Replace the state of a pin. -/
def Lines.setPin (l : Lines) (p : Pin) (v : PinState) : Lines :=
  match p with
  | .sda => { l with sda := v }
  | .scl => { l with scl := v }

/-- Append an event (R12). -/
def Lines.emit (l : Lines) (e : Event) : Lines := { l with events := l.events ++ [e] }

/-- The `k`-th answer of the environment from here on (R13): fixed in advance, or free (log 3). -/
def Lines.answer (l : Lines) (k : Nat) : Bool :=
  match l.answers[k]? with
  | some b => b
  | none   => Config.oracle (l.taken + k)

/-- The environment after `n` more of its answers have been used. -/
def Lines.skip (l : Lines) (n : Nat) : Lines :=
  { l with answers := l.answers.drop n, taken := l.taken + n }

/-- What the master does to a line (10_state.md R30). -/
inductive Drive where
  /-- the master pulls the line low -/
  | pullLow
  /-- the master drives the line high -/
  | pushHigh
  /-- the master leaves the line to the pull-up and the slaves -/
  | released
deriving DecidableEq, Repr

/-- `drive(p)` of R30. -/
def driveOf (v : PinState) : Drive :=
  match v.dir, v.out with
  | .output, false => .pullLow
  | .output, true  => .pushHigh
  | .input,  _     => .released

/-! ### Micro-operations (00_scope.md R11) -/

/-- A computation on the lines. Its one exception is `PushPullHigh(p)`, thrown with the pin. -/
abbrev Micro (α : Type) := EStateM Pin Lines α

/-- What the exit of a pin operation makes of IE (40_gpio.md R77). -/
def ieAtExit (c : Config) (saved : Bool) : Bool :=
  match c.irqExit with
  | .restore => saved
  | .enable  => true

/-- The pin-state writes of `SetLow` (R71): the latch only in pull-up mode, then output mode. -/
def lowered (c : Config) (v : PinState) : PinState :=
  let latched := if c.pullup then { v with out := false } else v
  { latched with dir := .output }

/-- The pin-state writes of `SetHigh` (R72): input mode, the pull-up and the latch as `PULLUP` says. -/
def released (c : Config) : PinState := { dir := .input, out := c.pullup, pu := c.pullup }

/-- One pin operation with interrupts masked around it (R71, R72, R77): save IE, clear it, write the pin, set IE by the
policy, emit the event. -/
def maskedPinWrite (c : Config) (p : Pin) (v : PinState) (e : Event) (l : Lines) : Lines :=
  let saved := l.ie
  let masked := { l with ie := false }
  let written := masked.setPin p v
  let unmasked := { written with ie := ieAtExit c saved }
  unmasked.emit e

/-- R74: a `SetLow` that would drive the line high. -/
def pushesHigh (c : Config) (v : PinState) : Bool := !c.pullup && v.out

/-- `SetLow(p)` (R71, R73, R74). -/
def setLow (c : Config) (p : Pin) : Micro Unit := fun l =>
  if pushesHigh c (l.pin p) then .error p l
  else .ok () (maskedPinWrite c p (lowered c (l.pin p)) (.low p) l)

/-- `SetHigh(p)` (R72, R73). -/
def setHigh (c : Config) (p : Pin) : Micro Unit := fun l =>
  .ok () (maskedPinWrite c p (released c) (.rel p) l)

/-- `Sample(p)` (R75): 0 where the master holds the line low, with no oracle bit used; else the next oracle bit. -/
def sample (p : Pin) : Micro Bool := fun l =>
  match driveOf (l.pin p) with
  | .pullLow => .ok false (l.emit (.samp p false))
  | _        => .ok (l.answer 0) ((l.skip 1).emit (.samp p (l.answer 0)))

/-- `Delay(k)` (R76): an event, no duration. -/
def delay (k : DelayKind) : Micro Unit := fun l => .ok () (l.emit (.wait k))

/-- The microseconds a delay request asks the delay provider for (R76). -/
def microsOf (c : Config) : DelayKind → Nat
  | .t => c.tUs
  | .h => c.hUs

/-- What an event list asks of the delay provider on port DELAY, in order (R6, R76). -/
def delayRequests (c : Config) : List Event → List Nat
  | [] => []
  | .wait k :: es => microsOf c k :: delayRequests c es
  | .low _ :: es => delayRequests c es
  | .rel _ :: es => delayRequests c es
  | .samp _ _ :: es => delayRequests c es

/-! ### Commands -/

/-- A computation on the whole state. Its one exception is `PushPullHigh(p)`. -/
abbrev Cmd (α : Type) := EStateM Pin State α

/-- Run a computation on the lines inside a command (41_bit_engine.md R85): its events and its fault are the
command's. -/
def onLines {α : Type} (f : Config → Micro α) : Cmd α := fun s =>
  match f s.cfg s.lines with
  | .ok a l    => .ok a { s with lines := l }
  | .error p l => .error p { s with lines := l }

/-- The state when a body starts: BUSY 1, the command's event list empty (R12, R153). -/
def State.begun (s : State) : State := { s with busy := true, lines := { s.lines with events := [] } }

/-- The state when a body has returned `r` (R153): BUSY 0, `r` on port RES. -/
def State.ended (s : State) (r : Result) : State := { s with busy := false, res := r }

/-- `raise F` (R153): FAULT gets F's code and BUSY 0. -/
def State.raised (s : State) (code : FaultCode) : State := { s with busy := false, fault := some code }

/-- The state after a fault raised before any effect (R154): the faulting step emitted no event. -/
def State.raisedAtOnce (s : State) (code : FaultCode) : State :=
  { s with busy := false, fault := some code, lines := { s.lines with events := [] } }

/-- The tail of the common step (R153): BUSY 1, the body, BUSY 0; or the fault the body raised. -/
def runBody (body : Cmd Result) (s : State) : Host.Outcome State Fault Refusal :=
  match body s.begun with
  | .ok r t    => .next (t.ended r)
  | .error p t => .fault (.pushPullHigh p (t.raised .pushPullHigh))

/-- R50: the range lies in HMEM, the sum taken without wrap-around. -/
def rangeFits (c : Config) (haddr : BitVec 32) (len : BitVec 16) : Bool :=
  decide (haddr.toNat + len.toNat ≤ c.hmemSize)

/-- The common step of a command that names an HMEM range (R50, R153): the check before any effect, then the body on the
bytes of the range, read once (R47). -/
def runOnRange (haddr : BitVec 32) (len : BitVec 16) (body : List Byte → Cmd Result) (s : State) :
    Host.Outcome State Fault Refusal :=
  if rangeFits s.cfg haddr len then runBody (body (Memory.readRange s.hmem haddr.toNat len.toNat)) s
  else .fault (.hostMemRange haddr len (s.raisedAtOnce .hostMemRange))

/-! ### Reading an outcome -/

/-- The next state of an outcome, if it has one. -/
def nextOf (o : Host.Outcome State Fault Refusal) : Option State :=
  match o with
  | .next s    => some s
  | .fault _   => none
  | .refused _ => none

/-- The fault of an outcome, if it has one. -/
def faultOf (o : Host.Outcome State Fault Refusal) : Option Fault :=
  match o with
  | .next _    => none
  | .fault f   => some f
  | .refused _ => none

end Sys2Proof.Machine
end

