-- ==== Sys2Proof/Machine/Operands.lean ====
section
/-! DEFINITION. Operand forms and result coding: address bytes, the bits of a byte on the wire, the bytes of the internal
address, the clamp of a quantity, RXBUF's elements (30_encoding.md R62, 00_scope.md R14, 20_memory.md R40, R41). -/

namespace Sys2Proof.Machine

/-- `{a7, rw}`: the 7-bit address shifted left one bit, OR'd with the read/write flag, write = 0, read = 1
(41_bit_engine.md R88, 92 D14). -/
def addressByte (a7 : BitVec 7) (read : Bool) : Byte := a7 ++ BitVec.ofBool read

/-- The bits of a byte in the order they go on the wire, most significant first (R40). -/
def wireBits (v : Byte) : List Bool :=
  [v.getLsbD 7, v.getLsbD 6, v.getLsbD 5, v.getLsbD 4, v.getLsbD 3, v.getLsbD 2, v.getLsbD 1, v.getLsbD 0]

/-- A byte from the bits of the wire, the first one in bit 7 (R40, 41_bit_engine.md R99): each bit is shifted in from
bit 0. -/
def shiftIn (v : Byte) (b : Bool) : Byte := (v <<< 1) ||| (BitVec.ofBool b).setWidth 8

/-- The byte that eight bits of the wire make (R40, R100). -/
def byteOfBits (bs : List Bool) : Byte := bs.foldl shiftIn 0

/-- `IADDR[8k+7 : 8k]` (42_transaction.md R119). -/
def iaddrByte (iaddr : BitVec 24) (k : Nat) : Byte := iaddr.extractLsb' (8 * k) 8

/-- The low `n` bytes of the internal address, most significant first (R41, R119). -/
def iaddrBytes (iaddr : BitVec 24) : Nat → List Byte
  | 0     => []
  | k + 1 => iaddrByte iaddr k :: iaddrBytes iaddr k

/-- `min(QTY, RX_CAP)` (R119). -/
def clampQty (c : Config) (qty : Byte) : Nat := min qty.toNat c.rxCap

/-- A boolean result (R14). -/
def resOfBool (b : Bool) : Result := if b then 1 else 0

/-- A count as a result (R14). -/
def resOfCount (n : Nat) : Result := BitVec.ofNat 32 n

/-- A byte as a result, zero-extended (R14). -/
def resOfByte (b : Byte) : Result := b.setWidth 32

/-- The sentinel -1 of READ and PEEK (R14). -/
def sentinel : Result := BitVec.allOnes 32

/-- `RXBUF[i]`. An index that RXBUF does not have reads as the free byte; no reachable state reads one (log 4). -/
def State.rxAt (s : State) (i : Nat) : Byte :=
  match s.rxbuf[i]? with
  | some b => b
  | none   => Config.rxbufFree i

end Sys2Proof.Machine
end

