-- ==== Sys2Proof/Machine/Flags.lean ====
section
/-! DEFINITION. The block has no condition flags; "flags written" are the state elements ERR, TXING, RXPOS, RXLEN and
FAULT (00_scope.md R15). Their codes and writes. -/

namespace Sys2Proof.Machine

/-- ERR = 0, no error (10_state.md R22). -/
def errNone : Byte := 0

/-- ERR = 2, address or start NAK (R22). -/
def errAddressNak : Byte := 2

/-- ERR = 3, write NAK (R22). -/
def errWriteNak : Byte := 3

/-- The numbers of the fault codes (60_exceptions.md R150). -/
def faultNumber : FaultCode → Nat
  | .illegalCommand => 1
  | .reentrant      => 2
  | .hostMemRange   => 3
  | .pushPullHigh   => 4

/-- `ERR <- e`. -/
def State.withErr (s : State) (e : Byte) : State := { s with err := e }

/-- `TXING <- v`. -/
def State.withTxing (s : State) (v : Bool) : State := { s with txing := v }

/-- `RXPOS <- p; RXLEN <- n`. -/
def State.withCursor (s : State) (p n : Byte) : State := { s with rxpos := p, rxlen := n }

/-- `RXBUF[i] <- b`. -/
def State.withRx (s : State) (i : Nat) (b : Byte) : State := { s with rxbuf := s.rxbuf.set i b }

/-- ERR after an address phase: 2 on a NAK, unchanged on an ACK (42_transaction.md R109). -/
def errAfterAddress (ack : Bool) (e : Byte) : Byte := if ack then e else errAddressNak

/-- ERR after a data byte: 3 on a NAK, unchanged on an ACK (R115). -/
def errAfterData (ack : Bool) (e : Byte) : Byte := if ack then e else errWriteNak

end Sys2Proof.Machine
end

