-- ==== Sys2Proof/Machine/BitEngine.lean ====
section
/-! DEFINITION. The bit-level I2C engine (41_bit_engine.md): the six sub-operations over the micro-operations, and their
command forms (R85: one definition for both). -/

namespace Sys2Proof.Machine

/-! ### Sub-operations -/

/-- Put one bit on SDA: release for 1, pull low for 0 (R96). -/
def setData (c : Config) (b : Bool) : Micro Unit := if b then setHigh c .sda else setLow c .sda

/-- The data-bit groups of `WriteByte` (R96, R97): set SDA, clock high, `Delay(T)`, clock low. -/
def sendBits (c : Config) : List Bool → Micro Unit
  | [] => pure ()
  | b :: bs => do
    setData c b
    setHigh c .scl
    delay .t
    setLow c .scl
    sendBits c bs

/-- The acknowledge bit of `WriteByte` (R96): true where the slave acknowledged (sample 0). -/
def sampleAck (c : Config) : Micro Bool := do
  setHigh c .sda
  setHigh c .scl
  delay .h
  let a ← sample .sda
  setLow c .scl
  delay .h
  setLow c .sda
  pure (!a)

/-- `WriteByte(v)` (R96): eight bits, most significant first, then the acknowledge bit. -/
def writeByte (c : Config) (v : Byte) : Micro Bool := do
  sendBits c (wireBits v)
  sampleAck c

/-- The eight data bits of `ReadByte` (R99): shift, `Delay(T)`, clock high, sample into bit 0, clock low. -/
def receiveBits (c : Config) : Nat → Byte → Micro Byte
  | 0, b => pure b
  | n + 1, b => do
    delay .t
    setHigh c .scl
    let d ← sample .sda
    setLow c .scl
    receiveBits c n (shiftIn b d)

/-- The acknowledge bit `ReadByte` sends (R99): SDA released (NAK) for the last byte, else pulled low (ACK). -/
def sendAck (c : Config) (last : Bool) : Micro Unit := do
  setData c last
  setHigh c .scl
  delay .h
  setLow c .scl
  delay .h
  setHigh c .sda

/-- `ReadByte(last)` (R99). -/
def readByte (c : Config) (last : Bool) : Micro Byte := do
  setHigh c .sda
  let b ← receiveBits c 8 0
  sendAck c last
  pure b

/-- `Start(ab)` (R90). -/
def start (c : Config) (ab : Byte) : Micro Bool := do
  setLow c .sda
  delay .t
  setLow c .scl
  writeByte c ab

/-- `RepStart(ab)` (R92): SDA released first (92 D12). -/
def repStart (c : Config) (ab : Byte) : Micro Bool := do
  setHigh c .sda
  setHigh c .scl
  delay .t
  start c ab

/-- `Stop()` (R94). -/
def stop (c : Config) : Micro Unit := do
  setLow c .sda
  delay .t
  setHigh c .scl
  delay .t
  setHigh c .sda
  delay .t

/-- The loop of `StartWait` (R93): at most `n` attempts, a STOP after each refused one. -/
def startAttempts (c : Config) (ab : Byte) : Nat → Micro Bool
  | 0 => pure false
  | n + 1 => do
    let ack ← start c ab
    if ack then pure true
    else do
      stop c
      startAttempts c ab n

/-- `StartWait(ab)` (R93): at most `N_SW` attempts. -/
def startWait (c : Config) (ab : Byte) : Micro Bool := startAttempts c ab c.nSw

/-! ### Commands -/

/-- START (R90): 1 if the address byte was acknowledged, else 0. -/
def execStart (ab : Byte) (s : State) : Host.Outcome State Fault Refusal :=
  runBody (do let ack ← onLines (fun c => start c ab); pure (resOfBool ack)) s

/-- REP_START (R92): 1 if the address byte was acknowledged, else 0. -/
def execRepStart (ab : Byte) (s : State) : Host.Outcome State Fault Refusal :=
  runBody (do let ack ← onLines (fun c => repStart c ab); pure (resOfBool ack)) s

/-- START_WAIT (R93): 1 if some attempt was acknowledged, else 0. -/
def execStartWait (ab : Byte) (s : State) : Host.Outcome State Fault Refusal :=
  runBody (do let ack ← onLines (fun c => startWait c ab); pure (resOfBool ack)) s

/-- STOP (R94): result 0. -/
def execStop (s : State) : Host.Outcome State Fault Refusal :=
  runBody (do onLines stop; pure 0) s

/-- WRITE_BYTE (R96): 1 if acknowledged, else 0. -/
def execWriteByte (v : Byte) (s : State) : Host.Outcome State Fault Refusal :=
  runBody (do let ack ← onLines (fun c => writeByte c v); pure (resOfBool ack)) s

/-- READ_BYTE (R99): the byte assembled from the eight samples. -/
def execReadByte (last : Bool) (s : State) : Host.Outcome State Fault Refusal :=
  runBody (do let b ← onLines (fun c => readByte c last); pure (resOfByte b)) s

end Sys2Proof.Machine
end

