-- ==== Sys2Proof/Machine/Crc.lean ====
section
/-! DEFINITION. The CRC-8 validator (43_crc.md): polynomial 0x131, initial value 0, MSB first, no final XOR. -/

namespace Sys2Proof.Machine

/-- One of the eight steps of R130: shift left, and XOR with 0x131 (truncated) where the top bit was set. -/
def crcShift (c : Byte) : Byte :=
  if c.getLsbD 7 then (((c.setWidth 9) <<< 1) ^^^ 0x131#9).setWidth 8 else c <<< 1

/-- `n` steps of R130. -/
def crcShifts : Nat → Byte → Byte
  | 0, c     => c
  | n + 1, c => crcShifts n (crcShift c)

/-- One byte of R130: XOR into the running CRC, then eight steps. -/
def crcByte (c x : Byte) : Byte := crcShifts 8 (c ^^^ x)

/-- `crc8(d)` (R130). -/
def crc8 (d : List Byte) : Byte := d.foldl crcByte 0

/-- The check of R134 on a frame: the last byte is the checksum of the bytes before it; an empty frame fails. -/
def crcPasses (f : List Byte) : Bool :=
  match f.getLast? with
  | none   => false
  | some k => crc8 f.dropLast == k

/-- CRC8 (R131): the checksum of the range. -/
def execCrc8 (haddr : BitVec 32) (len : BitVec 16) (s : State) : Host.Outcome State Fault Refusal :=
  runOnRange haddr len (fun bytes => pure (resOfByte (crc8 bytes))) s

/-- CRC_CHECK (R134): 1 if the check passes, 0 if it fails; 0 for LEN = 0. -/
def execCrcCheck (haddr : BitVec 32) (len : BitVec 16) (s : State) : Host.Outcome State Fault Refusal :=
  runOnRange haddr len (fun bytes => pure (resOfBool (crcPasses bytes))) s

end Sys2Proof.Machine
end

