-- ==== Sys2Proof/Machine/Gpio.lean ====
section
/-! DEFINITION. The GPIO line controller's commands (40_gpio.md). Command form and micro-operation form are one
definition (R73). -/

namespace Sys2Proof.Machine

/-- SET_LOW (R71): pull a line low; result 0. -/
def execSetLow (p : Pin) (s : State) : Host.Outcome State Fault Refusal :=
  runBody (do onLines (fun c => setLow c p); pure 0) s

/-- SET_HIGH (R72): release a line; result 0. -/
def execSetHigh (p : Pin) (s : State) : Host.Outcome State Fault Refusal :=
  runBody (do onLines (fun c => setHigh c p); pure 0) s

end Sys2Proof.Machine
end

