-- ==== Sys2Proof/Machine/Transaction.lean ====
section
/-! DEFINITION. The transaction layer (42_transaction.md): its sub-operations and its ten commands. -/

namespace Sys2Proof.Machine

/-! ### Sub-operations -/

/-- An address phase: a repeated START while a transaction is open, else a START (R109, R119). -/
def addressPhase (ab : Byte) : Cmd Bool := do
  let s ← get
  onLines (fun c => if s.txing then repStart c ab else start c ab)

/-- `BeginTx(a7)` (R109): the write address byte; a NAK records error 2; the bus is marked as transmitting. -/
def beginTx (a7 : BitVec 7) : Cmd Unit := do
  let ack ← addressPhase (addressByte a7 false)
  modify (fun s => (s.withErr (errAfterAddress ack s.err)).withTxing true)

/-- `Stop()` and `TXING <- 0` (R112, R119). -/
def closeBus : Cmd Unit := do
  onLines stop
  modify (fun s => s.withTxing false)

/-- `EndTx(s)` (R112): the error recorded, which is then cleared; with `s` the bus is closed. -/
def endTx (sendStop : Bool) : Cmd Byte := do
  let entry ← get
  if sendStop then closeBus else pure ()
  modify (fun s => s.withErr errNone)
  pure entry.err

/-- `Write(b)` (R115): true if acknowledged; a NAK records error 3. -/
def write (b : Byte) : Cmd Bool := do
  let ack ← onLines (fun c => writeByte c b)
  modify (fun s => s.withErr (errAfterData ack s.err))
  pure ack

/-- The loop of WRITE_BUF (R117): bytes in order up to the first NAK; how many were acknowledged, `c` before. -/
def writeAll : List Byte → Nat → Cmd Nat
  | [], c => pure c
  | b :: bs, c => do
    let ack ← write b
    if ack then writeAll bs (c + 1) else pure c

/-- The WRITEs of the internal-address phase (R119, R120): every byte, no early exit. -/
def writeEach : List Byte → Cmd Unit
  | [] => pure ()
  | b :: bs => do
    let _ ← write b
    writeEach bs

/-- The internal-address phase of REQUEST_FROM (R119, R120): nothing with ISIZE = 0; else BEGIN_TX, ISIZE WRITEs and
END_TX 0, whose value is the phase's error `e`. -/
def internalAddress (a7 : BitVec 7) (iaddr : BitVec 24) (isize : Nat) : Cmd Byte :=
  if isize = 0 then pure errNone
  else do
    beginTx a7
    writeEach (iaddrBytes iaddr isize)
    endTx false

/-- The reads of REQUEST_FROM (R119, R121): `n` more bytes into RXBUF from index `i` on, a NAK only on the last. -/
def readInto : Nat → Nat → Cmd Unit
  | 0, _ => pure ()
  | n + 1, i => do
    let b ← onLines (fun c => readByte c (n == 0))
    modify (fun s => s.withRx i b)
    readInto n (i + 1)

/-- The end of REQUEST_FROM's read phase (R119): STOP and `TXING <- 0`, or `TXING <- 1`. -/
def endRequest (sendStop : Bool) : Cmd Unit :=
  if sendStop then closeBus else modify (fun s => s.withTxing true)

/-- What REQUEST_FROM makes of RXLEN (R119): 0 on any error, else the clamped quantity. -/
def availableAfter (e : Byte) (ack : Bool) (q : Nat) : Nat := if e != errNone || !ack then 0 else q

/-- The read phase of REQUEST_FROM (R119, R121): the read address, `q` reads, the end of the bus, the cursor; `e` is the
internal-address phase's error. -/
def readPhase (a7 : BitVec 7) (q : Nat) (e : Byte) (sendStop : Bool) : Cmd Result := do
  let ack ← addressPhase (addressByte a7 true)
  readInto q 0
  endRequest sendStop
  modify (fun s => s.withCursor 0 (BitVec.ofNat 8 (availableAfter e ack q)))
  pure (resOfCount (availableAfter e ack q))

/-- REQUEST_FROM's body (R119). -/
def requestFrom (a7 : BitVec 7) (qty : Byte) (iaddr : BitVec 24) (isize : Nat) (sendStop : Bool) : Cmd Result := do
  let e ← internalAddress a7 iaddr isize
  let entry ← get
  readPhase a7 (clampQty entry.cfg qty) e sendStop

/-- `BusBegin()` (R106): the handle reset, both lines released and sampled, SDA before SCL. -/
def busBegin : Cmd Bool := do
  modify (fun s => ((s.withCursor 0 0).withErr errNone).withTxing false)
  onLines (fun c => setHigh c .sda)
  onLines (fun c => setHigh c .scl)
  let d ← onLines (fun _ => sample .sda)
  let k ← onLines (fun _ => sample .scl)
  pure (d && k)

/-- READ's body (R124). -/
def takeByte : Cmd Result := fun s =>
  if s.rxpos < s.rxlen then .ok (resOfByte (s.rxAt s.rxpos.toNat)) (s.withCursor (s.rxpos + 1) s.rxlen)
  else .ok sentinel s

/-- PEEK's body (R125). -/
def peekByte : Cmd Result := fun s =>
  if s.rxpos < s.rxlen then .ok (resOfByte (s.rxAt s.rxpos.toNat)) s else .ok sentinel s

/-! ### Commands -/

/-- BUS_BEGIN (R106): 1 if both lines read high, else 0. -/
def execBusBegin (s : State) : Host.Outcome State Fault Refusal :=
  runBody (do let free ← busBegin; pure (resOfBool free)) s

/-- BUS_END (R108): nothing; result 0. -/
def execBusEnd (s : State) : Host.Outcome State Fault Refusal := runBody (pure 0) s

/-- BEGIN_TX (R109): result 0. -/
def execBeginTx (a7 : BitVec 7) (s : State) : Host.Outcome State Fault Refusal :=
  runBody (do beginTx a7; pure 0) s

/-- END_TX (R112): the value of ERR at entry. -/
def execEndTx (sendStop : Bool) (s : State) : Host.Outcome State Fault Refusal :=
  runBody (do let e ← endTx sendStop; pure (resOfByte e)) s

/-- WRITE (R115): 1 if acknowledged, else 0. -/
def execWrite (b : Byte) (s : State) : Host.Outcome State Fault Refusal :=
  runBody (do let ack ← write b; pure (resOfBool ack)) s

/-- WRITE_BUF (R117): how many bytes were acknowledged. -/
def execWriteBuf (haddr : BitVec 32) (len : BitVec 16) (s : State) : Host.Outcome State Fault Refusal :=
  runOnRange haddr len (fun bytes => do let c ← writeAll bytes 0; pure (resOfCount c)) s

/-- REQUEST_FROM (R119 to R121): the number of bytes made available. -/
def execRequestFrom (a7 : BitVec 7) (qty : Byte) (iaddr : BitVec 24) (isize : BitVec 2) (sendStop : Bool) (s : State) :
    Host.Outcome State Fault Refusal :=
  runBody (requestFrom a7 qty iaddr isize.toNat sendStop) s

/-- AVAILABLE (R123): `RXLEN - RXPOS`, never negative by R28 (log 15). -/
def execAvailable (s : State) : Host.Outcome State Fault Refusal :=
  runBody (do let t ← get; pure (resOfByte t.rxlen - resOfByte t.rxpos)) s

/-- READ (R124): the next received byte, or -1. -/
def execRead (s : State) : Host.Outcome State Fault Refusal := runBody takeByte s

/-- PEEK (R125): the next received byte without taking it, or -1. -/
def execPeek (s : State) : Host.Outcome State Fault Refusal := runBody peekByte s

end Sys2Proof.Machine
end

