-- ==== Sys2Proof/Machine/Dispatch.lean ====
section
/-! DEFINITION. One arm per command (30_encoding.md R63), each one call of its meaning. -/

namespace Sys2Proof.Machine

def exec (i : Instr) (s : State) : Host.Outcome State Fault Refusal :=
  match i with
  -- GPIO line controller, 40_gpio.md
  | .setLow p => Sys2Proof.Machine.execSetLow p s
  | .setHigh p => Sys2Proof.Machine.execSetHigh p s
  -- bit-level engine, 41_bit_engine.md
  | .start ab => Sys2Proof.Machine.execStart ab s
  | .repStart ab => Sys2Proof.Machine.execRepStart ab s
  | .startWait ab => Sys2Proof.Machine.execStartWait ab s
  | .stop => Sys2Proof.Machine.execStop s
  | .writeByte v => Sys2Proof.Machine.execWriteByte v s
  | .readByte last => Sys2Proof.Machine.execReadByte last s
  -- transaction layer, 42_transaction.md
  | .busBegin => Sys2Proof.Machine.execBusBegin s
  | .busEnd => Sys2Proof.Machine.execBusEnd s
  | .beginTx a7 => Sys2Proof.Machine.execBeginTx a7 s
  | .endTx sendStop => Sys2Proof.Machine.execEndTx sendStop s
  | .write b => Sys2Proof.Machine.execWrite b s
  | .writeBuf haddr len => Sys2Proof.Machine.execWriteBuf haddr len s
  | .requestFrom a7 qty iaddr isize sendStop => Sys2Proof.Machine.execRequestFrom a7 qty iaddr isize sendStop s
  | .available => Sys2Proof.Machine.execAvailable s
  | .read => Sys2Proof.Machine.execRead s
  | .peek => Sys2Proof.Machine.execPeek s
  -- CRC-8 validator, 43_crc.md
  | .crc8 haddr len => Sys2Proof.Machine.execCrc8 haddr len s
  | .crcCheck haddr len => Sys2Proof.Machine.execCrcCheck haddr len s

end Sys2Proof.Machine
end

