-- ==== Sys2Proof/WellFormed.lean ====
section
/-! DEFINITION. Which configurations there is a block for (00_scope.md R7, 93 U14). An `Instr` needs no check of its
own: "Every operand value of an assigned field is legal" (30_encoding.md R65) and its operands have the fields' widths.
The checks on command words are in Decode.lean, those on assembler operands in Machine/Asm.lean. -/

namespace Sys2Proof

/-- R7: "A configuration with `SDA_PIN = SCL_PIN`, or with a value outside its type, is refused". -/
def Config.wf (c : Config) : Bool :=
  c.sdaPin != c.sclPin
    && (decide (1 ≤ c.rxCap) && decide (c.rxCap ≤ 255))
    && decide (1 ≤ c.tUs)
    && decide (1 ≤ c.nSw)
    && (decide (1 ≤ c.hmemSize) && decide (c.hmemSize ≤ 2 ^ 32))

end Sys2Proof
end

