-- ==== Sys2Proof/Machine/HostSide.lean ====
section
/-! DEFINITION. The host's side (00_scope.md R5, R6): constructing the block, issuing a command word through the common
step (60_exceptions.md R153), and the host's moves between commands. -/

namespace Sys2Proof.Machine

/-- Construction (10_state.md R38): the block in its reset state, refused for a configuration outside the parameters'
types (00_scope.md R7, 93 U14). -/
def construct (c : Config) : Except Refusal State :=
  if c.wf then .ok (State.resetWith c) else .error .noSuchBlock

/-- The host goes on to its next move. -/
def State.movedOn (s : State) : State := { s with script := s.script.tail }

/-- The host's index grows by one for a completed command (R24). -/
def State.commandDone (s : State) : State := { s.movedOn with index := s.index + 1 }

/-- The host goes on after a command that completed; a fault ends the run where it is. -/
def afterCommand (o : Host.Outcome State Fault Refusal) : Host.Outcome State Fault Refusal :=
  match o with
  | .next t    => .next t.commandDone
  | .fault f   => .fault f
  | .refused r => .refused r

/-- A command word on port CMD (R153): `Reentrant`, then `Decode`, then the command. -/
def issue (w : Word) (s : State) : Host.Outcome State Fault Refusal :=
  if s.busy then .fault (.reentrant (s.raised .reentrant))
  else match decode w with
    | .ok i    => afterCommand (exec i s)
    | .error _ => .fault (.illegalCommand w (s.raisedAtOnce .illegalCommand))

/-- The host stores a byte into HMEM between commands (20_memory.md R47, R48). An address outside HMEM is refused: DESIGN
CHOICE (log 23). BUSY is not looked at: in a given state with BUSY = 1, which is between no two steps (R32), the store runs
all the same. DESIGN CHOICE (log 24); R47 bars only the running command's range. -/
def hostStore (addr : Nat) (b : Byte) (s : State) : Host.Outcome State Fault Refusal :=
  if addr < s.cfg.hmemSize then .next { s.movedOn with hmem := Memory.write s.hmem addr b }
  else .refused (.hostStoreOutside addr)

/-- The host sets its interrupt enable between commands (10_state.md R31). BUSY is not looked at: DESIGN CHOICE
(log 24). -/
def hostSetIE (v : Bool) (s : State) : Host.Outcome State Fault Refusal :=
  .next { s.movedOn with lines := { s.lines with ie := v } }

/-- One move of the host. Only a command word looks at BUSY (R151, R153); a store or a change of IE in a given state with
BUSY = 1 runs as between commands: DESIGN CHOICE (log 24). -/
def runMove (m : HostMove) (s : State) : Host.Outcome State Fault Refusal :=
  match m with
  | .command w => issue w s
  | .store a b => hostStore a b s
  | .setIE v   => hostSetIE v s

/-- What happens next: no step while FAULT is set (R155; for a move that is no command word: DESIGN CHOICE, log 17); with
no move of the host the block waits and keeps all its state (70_reset_and_hazards.md R170, 60_exceptions.md R168; also with
BUSY = 1: DESIGN CHOICE, log 24); else the host's move. -/
def advance (s : State) : Host.Outcome State Fault Refusal :=
  match s.fault with
  | some code => .fault (.noStep code)
  | none =>
    match s.script with
    | []     => .next s
    | m :: _ => runMove m s

/-- Put a command word in front of what the host does next. -/
def State.withCommand (s : State) (w : Word) : State := { s with script := .command w :: s.script }

end Sys2Proof.Machine
end

