-- ==== Sys2Proof/Machine/Step.lean ====
section
/-! DEFINITION. One step of the machine (00_scope.md R12): the host's next move; and how a word is placed where the next
step takes it from (log 7). -/

namespace Sys2Proof.Machine

/-- One step: see `advance`. -/
def step (s : State) : Host.Outcome State Fault Refusal := advance s

/-- `s` with the command whose 64 bits are `w` issued by the host as its next move (log 7). -/
def State.withFetchWord (s : State) (_nbits w : Nat) : State := s.withCommand (BitVec.ofNat 64 w)

end Sys2Proof.Machine
end

