-- ==== Sys2Proof/Machine/Asm.lean ====
section
/-! DEFINITION. The assembler of 30_encoding.md R67 and the pseudo-instructions of R68. Its finer points are in log 18. -/

namespace Sys2Proof.Machine

/-- One operand as written: a number, or a pin name. -/
inductive AsmOperand where
  | num (n : Nat)
  | pin (p : Pin)
deriving DecidableEq, Repr

/-- A number that fits `w` bits: "An assembler refuses an operand that does not fit its field; it does not truncate"
(R67). -/
def fitBits (w : Nat) : AsmOperand → Option (BitVec w)
  | .num n => if n < 2 ^ w then some (BitVec.ofNat w n) else none
  | .pin _ => none

/-- A one-bit flag operand. -/
def fitFlag (o : AsmOperand) : Option Bool := (fitBits 1 o).map (fun b => b.getLsbD 0)

/-- A pin operand: "`SDA` and `SCL` stand for PSEL 0 and 1" (R67). -/
def fitPin : AsmOperand → Option Pin
  | .pin p => some p
  | .num n => if n = 0 then some .sda else if n = 1 then some .scl else none

/-- The three written forms of REQUEST_FROM, with the defaults iaddr = 0, isize = 0, sendStop = 1 (R67). -/
def asmRequest : List AsmOperand → Option Instr
  | [a, q] => do pure (.requestFrom (← fitBits 7 a) (← fitBits 8 q) 0 0 true)
  | [a, q, s] => do pure (.requestFrom (← fitBits 7 a) (← fitBits 8 q) 0 0 (← fitFlag s))
  | [a, q, i, n, s] => do
    pure (.requestFrom (← fitBits 7 a) (← fitBits 8 q) (← fitBits 24 i) (← fitBits 2 n) (← fitFlag s))
  | _ => none

/-- A command or pseudo-instruction with one operand that is a byte. -/
def asmByte (f : Byte → Instr) : List AsmOperand → Option (List Instr)
  | [o] => (fitBits 8 o).map (fun v => [f v])
  | _ => none

/-- A pseudo-instruction with one operand that is a 7-bit address: the command on `(addr7 << 1) | rw` (R68). -/
def asmAddressed (f : Byte → Instr) (rw : Bool) : List AsmOperand → Option (List Instr)
  | [o] => (fitBits 7 o).map (fun a => [f (a ++ BitVec.ofBool rw)])
  | _ => none

/-- A command with an HMEM range. -/
def asmRange (f : BitVec 32 → BitVec 16 → Instr) : List AsmOperand → Option (List Instr)
  | [h, n] => do pure [f (← fitBits 32 h) (← fitBits 16 n)]
  | _ => none

/-- A command without operands. -/
def asmPlain (i : Instr) : List AsmOperand → Option (List Instr)
  | [] => some [i]
  | _  => none

/-- A command on a pin. -/
def asmPin (f : Pin → Instr) : List AsmOperand → Option (List Instr)
  | [o] => (fitPin o).map (fun p => [f p])
  | _ => none

/-- END_TX with its default sendStop = 1 (R67). -/
def asmEndTx : List AsmOperand → Option (List Instr)
  | []  => some [.endTx true]
  | [s] => (fitFlag s).map (fun b => [.endTx b])
  | _ => none

/-- READ_BYTE. -/
def asmReadByte : List AsmOperand → Option (List Instr)
  | [o] => (fitFlag o).map (fun b => [.readByte b])
  | _ => none

/-- BEGIN_TX. -/
def asmBeginTx : List AsmOperand → Option (List Instr)
  | [o] => (fitBits 7 o).map (fun a => [.beginTx a])
  | _ => none

/-- PROBE: BEGIN_TX, then END_TX 1 (R68). -/
def asmProbe : List AsmOperand → Option (List Instr)
  | [o] => (fitBits 7 o).map (fun a => [.beginTx a, .endTx true])
  | _ => none

/-- WRITE16: the high byte, then the low byte (R68). -/
def asmWrite16 : List AsmOperand → Option (List Instr)
  | [o] => (fitBits 16 o).map (fun v => [.write (v.extractLsb' 8 8), .write (v.extractLsb' 0 8)])
  | _ => none

/-- The commands of one assembler statement (R67, R68), or none where the assembler refuses it. -/
def assemble (mnemonic : String) (ops : List AsmOperand) : Option (List Instr) :=
  match mnemonic with
  | "SET_LOW"       => asmPin .setLow ops
  | "SET_HIGH"      => asmPin .setHigh ops
  | "START"         => asmByte .start ops
  | "REP_START"     => asmByte .repStart ops
  | "START_WAIT"    => asmByte .startWait ops
  | "STOP"          => asmPlain .stop ops
  | "WRITE_BYTE"    => asmByte .writeByte ops
  | "READ_BYTE"     => asmReadByte ops
  | "BUS_BEGIN"     => asmPlain .busBegin ops
  | "BUS_END"       => asmPlain .busEnd ops
  | "BEGIN_TX"      => asmBeginTx ops
  | "END_TX"        => asmEndTx ops
  | "WRITE"         => asmByte .write ops
  | "WRITE_BUF"     => asmRange .writeBuf ops
  | "REQUEST_FROM"  => (asmRequest ops).map (fun i => [i])
  | "AVAILABLE"     => asmPlain .available ops
  | "READ"          => asmPlain .read ops
  | "PEEK"          => asmPlain .peek ops
  | "CRC8"          => asmRange .crc8 ops
  | "CRC_CHECK"     => asmRange .crcCheck ops
  | "START_W"       => asmAddressed .start false ops
  | "START_R"       => asmAddressed .start true ops
  | "REP_START_R"   => asmAddressed .repStart true ops
  | "END_TX_NOSTOP" => asmPlain (.endTx false) ops
  | "PROBE"         => asmProbe ops
  | "WRITE16"       => asmWrite16 ops
  | _ => none

/-! ### Text -/

/-- The value of a digit in a base up to 16. -/
def digitValue (base : Nat) (ch : Char) : Option Nat :=
  let n := ch.toNat
  let v := if 48 ≤ n ∧ n ≤ 57 then n - 48 else if 65 ≤ n ∧ n ≤ 70 then n - 55
    else if 97 ≤ n ∧ n ≤ 102 then n - 87 else 16
  if v < base then some v else none

/-- The value of a nonempty string of digits, the digits before it worth `acc`. -/
def digitsValue (base : Nat) (acc : Nat) : List Char → Option Nat
  | [] => some acc
  | ch :: rest => (digitValue base ch).bind (fun v => digitsValue base (acc * base + v) rest)

/-- One operand: `SDA`, `SCL`, a `0x` hexadecimal or a decimal number (R67). -/
def parseOperand : List Char → Option AsmOperand
  | ['S', 'D', 'A'] => some (.pin .sda)
  | ['S', 'C', 'L'] => some (.pin .scl)
  | '0' :: 'x' :: d :: ds => (digitsValue 16 0 (d :: ds)).map .num
  | d :: ds => (digitsValue 10 0 (d :: ds)).map .num
  | [] => none

/-- A blank of a source line. -/
def isBlank (ch : Char) : Bool := ch == ' ' || ch == '\t'

/-- A text without the blanks at its two ends. -/
def trimBlanks (cs : List Char) : List Char :=
  ((cs.dropWhile isBlank).reverse.dropWhile isBlank).reverse

/-- The parts of a text between its commas. -/
def splitCommas : List Char → List (List Char)
  | [] => [[]]
  | ch :: rest =>
    match splitCommas rest with
    | [] => [[ch]]
    | part :: parts => if ch = ',' then [] :: part :: parts else (ch :: part) :: parts

/-- The operands after the mnemonic, separated by commas (R67). -/
def parseOperands (cs : List Char) : Option (List AsmOperand) :=
  match trimBlanks cs with
  | [] => some []
  | t  => (splitCommas t).mapM (fun part => parseOperand (trimBlanks part))

/-- One source line (R67): "A `;` starts a comment"; a line with nothing else gives no command. -/
def assembleLine (line : String) : Option (List Instr) :=
  match trimBlanks (line.toList.takeWhile (fun ch => ch != ';')) with
  | [] => some []
  | t  => (parseOperands (t.dropWhile (fun ch => !isBlank ch))).bind
            (assemble (String.ofList (t.takeWhile (fun ch => !isBlank ch))))

/-- The command words of a source line. -/
def assembleWords (line : String) : Option (List Word) := (assembleLine line).map (List.map encode)

end Sys2Proof.Machine
end

