-- ==== Sys2Proof/Machine/BusView.lean ====
section
/-! DEFINITION. Reading an event list as I2C traffic (40_gpio.md R78, 41_bit_engine.md R103). A reading aid: the spec says
that no state or result of the block depends on it, and none does here (log 12). -/

namespace Sys2Proof.Machine

/-- R78: the level of a line, none where it floats. A driven high, which R78 does not name, reads 1 (log 12). -/
def lineLevel (v : PinState) (slavePullsLow externalPullup : Bool) : Option Bool :=
  match driveOf v, slavePullsLow with
  | .pullLow, _      => some false
  | _, true          => some false
  | .pushHigh, false => some true
  | .released, false => if v.pu || externalPullup then some true else none

/-- An item of a bus sequence (R103): `S`, `Sr`, `P`, or a byte with its acknowledge bit (true for ACK, the level 0). -/
inductive BusItem where
  | s
  | sr
  | p
  | byte (v : Byte) (ack : Bool)
deriving DecidableEq, Repr

/-- What a reader of an event list keeps: the levels of the two lines where the slave drives SDA only when the master
samples it (95_test_vectors.md section 0), the SDA level of the current clock-high phase, whether that phase can still
carry a data bit, whether a START has come since the last STOP, the bits of the unfinished byte, and what was read. -/
structure BusReader where
  sda     : Bool
  scl     : Bool
  level   : Bool
  carries : Bool
  started : Bool
  bits    : List Bool
  seq     : List BusItem
deriving DecidableEq, Repr

/-- A reader on idle lines. -/
def BusReader.idle : BusReader :=
  { sda := true, scl := true, level := true, carries := false, started := false, bits := [], seq := [] }

/-- A reader inside a transaction: both lines held low. -/
def BusReader.inside : BusReader :=
  { sda := false, scl := false, level := false, carries := false, started := true, bits := [], seq := [] }

/-- A finished data bit: nine make a byte and its acknowledge bit. -/
def BusReader.bit (r : BusReader) (b : Bool) : BusReader :=
  if r.bits.length = 8 then { r with bits := [], seq := r.seq ++ [.byte (byteOfBits r.bits) (!b)] }
  else { r with bits := r.bits ++ [b] }

/-- SDA falls: a START condition while SCL is high, a repeated one with no STOP since the last (R103). -/
def BusReader.sdaFalls (r : BusReader) : BusReader :=
  if r.sda && r.scl then
    { r with sda := false, carries := false, started := true, bits := [],
             seq := r.seq ++ [if r.started then .sr else .s] }
  else { r with sda := false }

/-- SDA rises: a STOP condition while SCL is high (R103). -/
def BusReader.sdaRises (r : BusReader) : BusReader :=
  if !r.sda && r.scl then
    { r with sda := true, carries := false, started := false, bits := [], seq := r.seq ++ [.p] }
  else { r with sda := true }

/-- SCL rises: a clock-high phase begins. -/
def BusReader.sclRises (r : BusReader) : BusReader :=
  if r.scl then r else { r with scl := true, level := r.sda, carries := true }

/-- SCL falls: a phase with no condition in it carried one bit. -/
def BusReader.sclFalls (r : BusReader) : BusReader :=
  if r.scl && r.carries then { r.bit r.level with scl := false, carries := false }
  else { r with scl := false, carries := false }

/-- A reader who starts at lines the master drives so: a line is low where the master pulls it low, and no bit of the
current clock-high phase is pending. `started` says that a START has come since the last STOP. -/
def BusReader.onLines (l : Lines) (started : Bool) : BusReader :=
  let sda := driveOf l.sda != .pullLow
  { sda := sda, scl := driveOf l.scl != .pullLow, level := sda, carries := false, started := started, bits := [],
    seq := [] }

/-- What one event says on the bus. -/
def BusReader.event (r : BusReader) : Event → BusReader
  | .low .sda    => r.sdaFalls
  | .rel .sda    => r.sdaRises
  | .low .scl    => r.sclFalls
  | .rel .scl    => r.sclRises
  | .samp .sda b => if r.scl then { r with level := b } else r
  | .samp .scl _ => r
  | .wait _      => r

/-- The bus sequence of an event list, read from a reader's state on. -/
def busSequence (r : BusReader) (es : List Event) : List BusItem := (es.foldl BusReader.event r).seq

end Sys2Proof.Machine
end

