-- ==== Sys2Proof/Safety.lean ====
section
/-! DEFINITION. The terms claims use: the invariant of the state (10_state.md R22, R28, R32), open-drain drive (R30), when
a `SetLow` can fault (40_gpio.md R74), and the line states of 41_bit_engine.md R87. -/

namespace Sys2Proof.Machine

/-- What holds between commands in every state that construction and steps can lead to. -/
structure StateOk (s : State) : Prop where
  /-- there is a block for the parameters (R7) -/
  cfg       : s.cfg.wf = true
  /-- "Values 1 and 4..255 never occur" (R22) -/
  err       : s.err = errNone ∨ s.err = errAddressNak ∨ s.err = errWriteNak
  /-- RXPOS ≤ RXLEN (R28) -/
  cursor    : s.rxpos ≤ s.rxlen
  /-- RXLEN ≤ RX_CAP (R28) -/
  length    : s.rxlen.toNat ≤ s.cfg.rxCap
  /-- RXBUF has RX_CAP bytes (R25) -/
  capacity  : s.rxbuf.length = s.cfg.rxCap
  /-- BUSY is 0 between steps (R32) -/
  atRest    : s.busy = false
  /-- the host memory is in canonical form -/
  canonical : Memory.wf s.hmem = true
  /-- HMEM has no address from HMEM_SIZE on (20_memory.md R48) -/
  inHmem    : Memory.below s.cfg.hmemSize s.hmem = true

/-- Open-drain emulation (R30): the master drives neither line high. -/
def openDrain (l : Lines) : Bool := driveOf l.sda != .pushHigh && driveOf l.scl != .pushHigh

/-- No `SetLow` of the pin can raise `PushPullHigh` (R74). -/
def canLower (s : State) (p : Pin) : Bool := !pushesHigh s.cfg (s.lines.pin p)

/-- No `SetLow` at all can raise it, as after BUS_BEGIN (70_reset_and_hazards.md R172). -/
def canLowerBoth (s : State) : Bool := canLower s .sda && canLower s .scl

/-- Both lines released by the master: the entry state of START and START_WAIT (R87). -/
def linesReleased (l : Lines) : Bool := driveOf l.sda == .released && driveOf l.scl == .released

/-- SCL pulled low by the master: the entry state of REP_START, WRITE_BYTE, READ_BYTE and STOP (R87). -/
def clockHeld (l : Lines) : Bool := driveOf l.scl == .pullLow

/-- A command's premises in the state, before its operands are looked at (60_exceptions.md R153). -/
def accepts (s : State) : Bool := s.fault.isNone && !s.busy

end Sys2Proof.Machine
end

