-- ==== Sys2Proof/Machine/Traces.lean ====
section
/-! DEFINITION. What claims say a command does to the lines: the event lists of 41_bit_engine.md and 42_transaction.md
written out as the spec writes them, and the lines after a run of micro-operations. The meanings do not use this file. -/

namespace Sys2Proof.Machine

/-- `LD` for a 0, `RD` for a 1 (R97). -/
def dataEvent (b : Bool) : Event := if b then .rel .sda else .low .sda

/-- One data-bit group of WRITE_BYTE: the bit, then `RC T LC` (R97). -/
def sentBitEvents (b : Bool) : List Event := [dataEvent b, .rel .scl, .wait .t, .low .scl]

/-- The events of `WriteByte(v)` with the acknowledge sample `a` (R96): 39 of them. -/
def writeByteEvents (v : Byte) (a : Bool) : List Event :=
  (wireBits v).flatMap sentBitEvents
    ++ [.rel .sda, .rel .scl, .wait .h, .samp .sda a, .low .scl, .wait .h, .low .sda]

/-- One data bit of READ_BYTE: `T RC SD=b LC` (R99). -/
def readBitEvents (b : Bool) : List Event := [.wait .t, .rel .scl, .samp .sda b, .low .scl]

/-- The events of `ReadByte(last)` with the samples `o` (R99, R100). -/
def readByteEvents (last : Bool) (o : List Bool) : List Event :=
  [.rel .sda] ++ o.flatMap readBitEvents
    ++ [dataEvent last, .rel .scl, .wait .h, .low .scl, .wait .h, .rel .sda]

/-- `LD T LC`, then the byte (R90). -/
def startEvents (ab : Byte) (a : Bool) : List Event := [.low .sda, .wait .t, .low .scl] ++ writeByteEvents ab a

/-- `RD RC T`, then a START (R92). -/
def repStartEvents (ab : Byte) (a : Bool) : List Event := [.rel .sda, .rel .scl, .wait .t] ++ startEvents ab a

/-- `LD T RC T RD T` (R94). -/
def stopEvents : List Event := [.low .sda, .wait .t, .rel .scl, .wait .t, .rel .sda, .wait .t]

/-- An address phase (R109, R119): REP_START while a transaction is open, else START. -/
def addressEvents (opened : Bool) (ab : Byte) (a : Bool) : List Event :=
  if opened then repStartEvents ab a else startEvents ab a

/-- `n` refused attempts of START_WAIT, each followed by a STOP (R93). -/
def refusedAttempts (ab : Byte) : Nat → List Event
  | 0     => []
  | n + 1 => startEvents ab true ++ stopEvents ++ refusedAttempts ab n

/-- The events of writing bytes, each with its acknowledge sample. -/
def writeEachEvents : List Byte → List Bool → List Event
  | v :: vs, a :: as => writeByteEvents v a ++ writeEachEvents vs as
  | _, _ => []

/-- The `n` answers of the environment from the `k`-th on. -/
def Lines.answersFrom (l : Lines) (k n : Nat) : List Bool := (List.range n).map (fun i => l.answer (k + i))

/-- The byte the environment answers in the eight samples from the `k`-th on (R100). -/
def Lines.byteAt (l : Lines) (k : Nat) : Byte := byteOfBits (l.answersFrom k 8)

/-- The events of REQUEST_FROM's `n` remaining reads whose samples start at the `k`-th answer: a NAK on the last
(R119, R121). -/
def readEachEvents (l : Lines) : Nat → Nat → List Event
  | _, 0     => []
  | k, n + 1 => readByteEvents (n == 0) (l.answersFrom k 8) ++ readEachEvents l (k + 8) n

/-- A pin after it was released and then pulled low: (OUT, 0, PULLUP) (R104). -/
def held (c : Config) : PinState := { dir := .output, out := false, pu := c.pullup }

/-- The lines after micro-operations with at least one pin operation among them: the pins, IE as R77 leaves it, `used`
answers taken, the events appended. -/
def Lines.moved (l : Lines) (c : Config) (sda scl : PinState) (used : Nat) (es : List Event) : Lines :=
  { sda := sda, scl := scl, ie := ieAtExit c l.ie, answers := l.answers.drop used, taken := l.taken + used,
    events := l.events ++ es }

/-- The state after a command that did nothing but move the lines and return `r`: its event list is `es`. -/
def State.movedTo (s : State) (sda scl : PinState) (used : Nat) (es : List Event) (r : Result) : State :=
  { s with
    busy  := false
    res   := r
    lines := { sda := sda, scl := scl, ie := ieAtExit s.cfg s.lines.ie, answers := s.lines.answers.drop used,
               taken := s.lines.taken + used, events := es } }

/-- The state after a command that touched no line and returned `r`: its event list is empty. -/
def State.answered (s : State) (r : Result) : State :=
  { s with busy := false, res := r, lines := { s.lines with events := [] } }

/-- ERR after data bytes with these acknowledge samples (R115): 3 once one was refused. -/
def errAfterSamples (as : List Bool) (e : Byte) : Byte := if as.any id then errWriteNak else e

/-- How many bytes the slave acknowledged before the first it refused, from the acknowledge samples (R117). -/
def ackedBytes (as : List Bool) : Nat := (as.takeWhile (fun a => !a)).length

/-- How many bytes WRITE_BUF sends (R117): up to and with the first refused one, all if none is. -/
def sentBytes (as : List Bool) : Nat :=
  if ackedBytes as < as.length then ackedBytes as + 1 else as.length

/-! ### REQUEST_FROM (42_transaction.md R119 to R121) -/

/-- How many answers the internal-address phase takes: none with ISIZE = 0, else one for the address byte and one for
each internal-address byte. -/
def internalSamples (n : Nat) : Nat := if n = 0 then 0 else n + 1

/-- The events of the internal-address phase with ISIZE = `n` (R120). -/
def internalEvents (s : State) (a7 : BitVec 7) (iaddr : BitVec 24) (n : Nat) : List Event :=
  if n = 0 then []
  else addressEvents s.txing (addressByte a7 false) (s.lines.answer 0)
    ++ writeEachEvents (iaddrBytes iaddr n) (s.lines.answersFrom 1 n)

/-- `e` of R119: ERR as the internal-address phase leaves it before END_TX 0 clears it; 0 with ISIZE = 0. -/
def internalError (s : State) (n : Nat) : Byte :=
  if n = 0 then errNone
  else errAfterSamples (s.lines.answersFrom 1 n) (if s.lines.answer 0 then errAddressNak else s.err)

/-- What REQUEST_FROM makes available (R119): 0 if the internal-address phase failed or the read address was refused,
else the clamped quantity `q`. -/
def requestAvailable (s : State) (n q : Nat) : Nat :=
  if internalError s n ≠ errNone ∨ s.lines.answer (internalSamples n) = true then 0 else q

/-- The bytes the slave answers in REQUEST_FROM's `q` reads (R100, R121). -/
def requestBytes (s : State) (n q : Nat) : List Byte :=
  (List.range q).map (fun i => s.lines.byteAt (internalSamples n + 1 + 8 * i))

/-- The events of REQUEST_FROM with ISIZE = `n` and clamped quantity `q` (R119). -/
def requestEvents (s : State) (a7 : BitVec 7) (iaddr : BitVec 24) (n q : Nat) (sendStop : Bool) : List Event :=
  internalEvents s a7 iaddr n
    ++ addressEvents (s.txing || n != 0) (addressByte a7 true) (s.lines.answer (internalSamples n))
    ++ readEachEvents s.lines (internalSamples n + 1) q
    ++ if sendStop then stopEvents else []

/-- Where REQUEST_FROM leaves SDA (R121): released by the STOP or by the last read, held low after an address phase with
nothing read. -/
def requestSda (c : Config) (q : Nat) (sendStop : Bool) : PinState :=
  if !sendStop && q == 0 then held c else released c

/-- Where REQUEST_FROM leaves SCL (R121). -/
def requestScl (c : Config) (sendStop : Bool) : PinState := if sendStop then released c else held c

end Sys2Proof.Machine
end

