-- ==== Sys2Proof/Certificates/Slice0/Obligations.lean ====
section
/-! DEFINITION. The statements about the model, each from the numbered rules of spec/. `Sys2Proof.Claims` holds what several
of them say: the spec's tables and words, and short runs of commands. -/

namespace Sys2Proof.Claims

open Sys2Proof.Machine

/-- A `SetLow` of `p` drives the line low (40_gpio.md R74): pull-up mode, or the latch is 0. -/
abbrev MayLower (s : State) (p : Pin) : Prop := s.cfg.pullup = true ∨ (s.lines.pin p).out = false

/-- `PushPullHigh(p)` raised before any effect of the command (R74, R154). -/
def pushFault (p : Pin) (s : State) : Host.Outcome State Fault Refusal :=
  .fault (.pushPullHigh p
    { s with busy := false, fault := some .pushPullHigh, lines := { s.lines with events := [] } })

/-- `PushPullHigh` raised in START, by the first of its `SetLow`s that finds a latch at 1 (R154): on SDA with no effect, on
SCL with SDA pulled low and two events before. -/
def startFault (s : State) : Host.Outcome State Fault Refusal :=
  if s.lines.sda.out then pushFault .sda s
  else .fault (.pushPullHigh .scl
    { s with
      busy := false
      fault := some .pushPullHigh
      lines := { s.lines with
        sda := { s.lines.sda with dir := .output }
        ie := ieAtExit s.cfg s.lines.ie
        events := [.low .sda, .wait .t] } })

/-- `HostMemRange` raised before any effect of the command (R50). -/
def rangeFault (h : BitVec 32) (n : BitVec 16) (s : State) : Host.Outcome State Fault Refusal :=
  .fault (.hostMemRange h n
    { s with busy := false, fault := some .hostMemRange, lines := { s.lines with events := [] } })

/-- The commands that open with a START in a state (R154: START and its callers). -/
def opensWithStart (i : Instr) (s : State) : Bool :=
  match i with
  | .start _ => true
  | .startWait _ => true
  | .beginTx _ => !s.txing
  | .requestFrom _ _ _ _ _ => !s.txing
  | _ => false

/-- `Low` of R104: (OUT, 0, any pull-up enable). -/
abbrev IsLow (v : PinState) : Prop := v.dir = .output ∧ v.out = false

/-- `Rel` of R104: (IN, PULLUP, PULLUP). -/
abbrev IsRel (c : Config) (v : PinState) : Prop := v = { dir := .input, out := c.pullup, pu := c.pullup }

/-- The opcodes R65 (a) names as unassigned. -/
def unassigned (opc : Nat) : Bool :=
  opc == 0x00 || (0x03 ≤ opc && opc ≤ 0x0F) || (0x16 ≤ opc && opc ≤ 0x1F) || (0x2A ≤ opc && opc ≤ 0x2F)
    || (0x32 ≤ opc && opc ≤ 0xFF)

/-- The reserved bits of the assigned opcodes (R61, R65 (b)). -/
def reservedBit (opc k : Nat) : Bool :=
  if opc = 0x01 ∨ opc = 0x02 ∨ opc = 0x15 ∨ opc = 0x23 then 1 ≤ k && k ≤ 55
  else if opc = 0x10 ∨ opc = 0x11 ∨ opc = 0x12 ∨ opc = 0x14 ∨ opc = 0x24 then 8 ≤ k && k ≤ 55
  else if opc = 0x22 then 7 ≤ k && k ≤ 55
  else if opc = 0x25 ∨ opc = 0x30 ∨ opc = 0x31 then 48 ≤ k && k ≤ 55
  else if opc = 0x26 then k == 7 || (43 ≤ k && k ≤ 55)
  else k ≤ 55

/-- The match and mask values of R63, row by row. -/
def matchesAndMasks : List (Word × Word) :=
  [ (0x0100000000000000#64, 0xFFFFFFFFFFFFFFFE#64),
    (0x0200000000000000#64, 0xFFFFFFFFFFFFFFFE#64),
    (0x1000000000000000#64, 0xFFFFFFFFFFFFFF00#64),
    (0x1100000000000000#64, 0xFFFFFFFFFFFFFF00#64),
    (0x1200000000000000#64, 0xFFFFFFFFFFFFFF00#64),
    (0x1300000000000000#64, 0xFFFFFFFFFFFFFFFF#64),
    (0x1400000000000000#64, 0xFFFFFFFFFFFFFF00#64),
    (0x1500000000000000#64, 0xFFFFFFFFFFFFFFFE#64),
    (0x2000000000000000#64, 0xFFFFFFFFFFFFFFFF#64),
    (0x2100000000000000#64, 0xFFFFFFFFFFFFFFFF#64),
    (0x2200000000000000#64, 0xFFFFFFFFFFFFFF80#64),
    (0x2300000000000000#64, 0xFFFFFFFFFFFFFFFE#64),
    (0x2400000000000000#64, 0xFFFFFFFFFFFFFF00#64),
    (0x2500000000000000#64, 0xFFFF000000000000#64),
    (0x2600000000000000#64, 0xFFFFF80000000080#64),
    (0x2700000000000000#64, 0xFFFFFFFFFFFFFFFF#64),
    (0x2800000000000000#64, 0xFFFFFFFFFFFFFFFF#64),
    (0x2900000000000000#64, 0xFFFFFFFFFFFFFFFF#64),
    (0x3000000000000000#64, 0xFFFF000000000000#64),
    (0x3100000000000000#64, 0xFFFF000000000000#64) ]

/-- The table of R133, row by row. -/
def crcTable : List Byte :=
  [0x00#8, 0x31#8, 0x62#8, 0x53#8, 0xC4#8, 0xF5#8, 0xA6#8, 0x97#8, 0xB9#8, 0x88#8, 0xDB#8, 0xEA#8, 0x7D#8, 0x4C#8, 0x1F#8, 0x2E#8] ++
  [0x43#8, 0x72#8, 0x21#8, 0x10#8, 0x87#8, 0xB6#8, 0xE5#8, 0xD4#8, 0xFA#8, 0xCB#8, 0x98#8, 0xA9#8, 0x3E#8, 0x0F#8, 0x5C#8, 0x6D#8] ++
  [0x86#8, 0xB7#8, 0xE4#8, 0xD5#8, 0x42#8, 0x73#8, 0x20#8, 0x11#8, 0x3F#8, 0x0E#8, 0x5D#8, 0x6C#8, 0xFB#8, 0xCA#8, 0x99#8, 0xA8#8] ++
  [0xC5#8, 0xF4#8, 0xA7#8, 0x96#8, 0x01#8, 0x30#8, 0x63#8, 0x52#8, 0x7C#8, 0x4D#8, 0x1E#8, 0x2F#8, 0xB8#8, 0x89#8, 0xDA#8, 0xEB#8] ++
  [0x3D#8, 0x0C#8, 0x5F#8, 0x6E#8, 0xF9#8, 0xC8#8, 0x9B#8, 0xAA#8, 0x84#8, 0xB5#8, 0xE6#8, 0xD7#8, 0x40#8, 0x71#8, 0x22#8, 0x13#8] ++
  [0x7E#8, 0x4F#8, 0x1C#8, 0x2D#8, 0xBA#8, 0x8B#8, 0xD8#8, 0xE9#8, 0xC7#8, 0xF6#8, 0xA5#8, 0x94#8, 0x03#8, 0x32#8, 0x61#8, 0x50#8] ++
  [0xBB#8, 0x8A#8, 0xD9#8, 0xE8#8, 0x7F#8, 0x4E#8, 0x1D#8, 0x2C#8, 0x02#8, 0x33#8, 0x60#8, 0x51#8, 0xC6#8, 0xF7#8, 0xA4#8, 0x95#8] ++
  [0xF8#8, 0xC9#8, 0x9A#8, 0xAB#8, 0x3C#8, 0x0D#8, 0x5E#8, 0x6F#8, 0x41#8, 0x70#8, 0x23#8, 0x12#8, 0x85#8, 0xB4#8, 0xE7#8, 0xD6#8] ++
  [0x7A#8, 0x4B#8, 0x18#8, 0x29#8, 0xBE#8, 0x8F#8, 0xDC#8, 0xED#8, 0xC3#8, 0xF2#8, 0xA1#8, 0x90#8, 0x07#8, 0x36#8, 0x65#8, 0x54#8] ++
  [0x39#8, 0x08#8, 0x5B#8, 0x6A#8, 0xFD#8, 0xCC#8, 0x9F#8, 0xAE#8, 0x80#8, 0xB1#8, 0xE2#8, 0xD3#8, 0x44#8, 0x75#8, 0x26#8, 0x17#8] ++
  [0xFC#8, 0xCD#8, 0x9E#8, 0xAF#8, 0x38#8, 0x09#8, 0x5A#8, 0x6B#8, 0x45#8, 0x74#8, 0x27#8, 0x16#8, 0x81#8, 0xB0#8, 0xE3#8, 0xD2#8] ++
  [0xBF#8, 0x8E#8, 0xDD#8, 0xEC#8, 0x7B#8, 0x4A#8, 0x19#8, 0x28#8, 0x06#8, 0x37#8, 0x64#8, 0x55#8, 0xC2#8, 0xF3#8, 0xA0#8, 0x91#8] ++
  [0x47#8, 0x76#8, 0x25#8, 0x14#8, 0x83#8, 0xB2#8, 0xE1#8, 0xD0#8, 0xFE#8, 0xCF#8, 0x9C#8, 0xAD#8, 0x3A#8, 0x0B#8, 0x58#8, 0x69#8] ++
  [0x04#8, 0x35#8, 0x66#8, 0x57#8, 0xC0#8, 0xF1#8, 0xA2#8, 0x93#8, 0xBD#8, 0x8C#8, 0xDF#8, 0xEE#8, 0x79#8, 0x48#8, 0x1B#8, 0x2A#8] ++
  [0xC1#8, 0xF0#8, 0xA3#8, 0x92#8, 0x05#8, 0x34#8, 0x67#8, 0x56#8, 0x78#8, 0x49#8, 0x1A#8, 0x2B#8, 0xBC#8, 0x8D#8, 0xDE#8, 0xEF#8] ++
  [0x82#8, 0xB3#8, 0xE0#8, 0xD1#8, 0x46#8, 0x77#8, 0x24#8, 0x15#8, 0x3B#8, 0x0A#8, 0x59#8, 0x68#8, 0xFF#8, 0xCE#8, 0x9D#8, 0xAC#8]

/-- One of the eight steps of R130 on a number: shift left, and XOR with 0x131 where bit 8 came to be set. -/
def crcStepNat (c : Nat) : Nat := if 256 ≤ 2 * c then (2 * c) ^^^ 0x131 else 2 * c

/-- `crc8(d)` of R130 on numbers below 256. -/
def crcNat (d : List Nat) : Nat := d.foldl (fun c x => crcStepNat^[8] (c ^^^ x)) 0

/-- The number of 1 bits of a byte. -/
def onesOf (b : Byte) : Nat := (wireBits b).countP id

/-- A command that names no HMEM range (20_memory.md R45). -/
def readsNoHmem : Instr → Bool
  | .writeBuf _ _ => false
  | .crc8 _ _ => false
  | .crcCheck _ _ => false
  | _ => true

/-- The six commands of the bit-level engine (41_bit_engine.md). -/
def isEngine : Instr → Bool
  | .start _ => true
  | .repStart _ => true
  | .startWait _ => true
  | .stop => true
  | .writeByte _ => true
  | .readByte _ => true
  | _ => false

/-- The six commands whose rules emit no event (70_reset_and_hazards.md R190). -/
def isQuiet : Instr → Bool
  | .busEnd => true
  | .available => true
  | .read => true
  | .peek => true
  | .crc8 _ _ => true
  | .crcCheck _ _ => true
  | _ => false

/-- An event of a pin operation. -/
def isPinEvent : Event → Bool
  | .low _ => true
  | .rel _ => true
  | _ => false

/-- An event of a sample. -/
def isSample : Event → Bool
  | .samp _ _ => true
  | _ => false

/-- What R190 counts: `Delay(T)`, `Delay(H)`, events, samples. -/
def countsOf (es : List Event) : Nat × Nat × Nat × Nat :=
  (es.count (.wait .t), es.count (.wait .h), es.length, es.countP isSample)

/-- R190's row for a command run from `s` to `t`. START_WAIT's attempts are the answers it used (one each); WRITE_BUF's
bytes sent are its result and the refused one; the REQUEST_FROM rows are written for either TXING and STOP. -/
def delayRow (i : Instr) (s t : State) : Nat × Nat × Nat × Nat :=
  match i with
  | .setLow _ => (0, 0, 1, 0)
  | .setHigh _ => (0, 0, 1, 0)
  | .start _ => (9, 2, 42, 1)
  | .repStart _ => (10, 2, 45, 1)
  | .startWait _ =>
    if t.res = 1 then
      let k := t.lines.taken - s.lines.taken
      (12 * (k - 1) + 9, 2 * k, 48 * (k - 1) + 42, k)
    else (12 * s.cfg.nSw, 2 * s.cfg.nSw, 48 * s.cfg.nSw, s.cfg.nSw)
  | .stop => (3, 0, 6, 0)
  | .writeByte _ => (8, 2, 39, 1)
  | .write _ => (8, 2, 39, 1)
  | .readByte _ => (8, 2, 39, 8)
  | .busBegin => (0, 0, 4, 2)
  | .beginTx _ => if s.txing then (10, 2, 45, 1) else (9, 2, 42, 1)
  | .endTx sendStop => if sendStop then (3, 0, 6, 0) else (0, 0, 0, 0)
  | .writeBuf _ len =>
    let n := if t.res.toNat < len.toNat then t.res.toNat + 1 else len.toNat
    (8 * n, 2 * n, 39 * n, n)
  | .requestFrom _ qty _ isize sendStop =>
    let q := min qty.toNat s.cfg.rxCap
    let k := isize.toNat
    let a : Nat × Nat := if s.txing then (10, 45) else (9, 42)
    let p : Nat × Nat := if sendStop then (3, 6) else (0, 0)
    if k = 0 then (a.1 + 8 * q + p.1, 2 + 2 * q, a.2 + 39 * q + p.2, 1 + 8 * q)
    else (a.1 + 8 * k + 10 + 8 * q + p.1, 2 + 2 * k + 2 + 2 * q, a.2 + 39 * k + 45 + 39 * q + p.2, 2 + k + 8 * q)
  | .busEnd => (0, 0, 0, 0)
  | .available => (0, 0, 0, 0)
  | .read => (0, 0, 0, 0)
  | .peek => (0, 0, 0, 0)
  | .crc8 _ _ => (0, 0, 0, 0)
  | .crcCheck _ _ => (0, 0, 0, 0)

/-- R127: ERR after a command run from `s` to `t`. The acknowledge sample of an address phase or of a WRITE is the next
answer of the environment, 1 for a NAK. -/
def errTable (i : Instr) (s t : State) : Byte :=
  match i with
  | .busBegin => 0
  | .beginTx _ => if s.lines.answer 0 then 2 else s.err
  | .endTx _ => 0
  | .write _ => if s.lines.answer 0 then 3 else s.err
  | .writeBuf _ len => if t.res.toNat < len.toNat then 3 else s.err
  | .requestFrom _ _ _ isize _ => if isize = 0 then s.err else 0
  | _ => s.err

/-- R127: TXING after a command run from `s`. -/
def txingTable (i : Instr) (s : State) : Bool :=
  match i with
  | .busBegin => false
  | .beginTx _ => true
  | .endTx sendStop => if sendStop then false else s.txing
  | .requestFrom _ _ _ _ sendStop => !sendStop
  | _ => s.txing

/-- A command that is neither REQUEST_FROM nor BUS_BEGIN (R126). -/
def keepsReceived : Instr → Bool
  | .requestFrom _ _ _ _ _ => false
  | .busBegin => false
  | _ => true

/-- Commands in a row: the results of the READs among them, in order, and the state after the last. -/
def readsAmong : List Instr → State → Option (List Result × State)
  | [], s => some ([], s)
  | i :: is, s => (nextOf (exec i s)).bind fun t =>
    (readsAmong is t).map fun p => (if i = .read then t.res :: p.1 else p.1, p.2)

/-- An item of a bus sequence that is a START or a repeated START. -/
def isStartItem : BusItem → Bool
  | .s => true
  | .sr => true
  | .p => false
  | .byte _ _ => false

/-- WRITEs of bytes in a row: the state after them. -/
def writeMany : List Byte → State → Option State
  | [], s => some s
  | b :: bs, s => (nextOf (exec (.write b) s)).bind (writeMany bs)

/-- WRITEs of bytes up to and with the first that is refused: the sum of their results, their events, the state after
them. -/
def writeUntilNak : List Byte → State → Option (Nat × List Event × State)
  | [], s => some (0, [], s)
  | b :: bs, s => (nextOf (exec (.write b) s)).bind fun t =>
    if t.res = 1 then (writeUntilNak bs t).map fun p => (p.1 + 1, t.lines.events ++ p.2.1, p.2.2)
    else some (0, t.lines.events, t)

end Sys2Proof.Claims

section Statements

open Sys2Proof Sys2Proof.Machine Sys2Proof.Claims

/-! ### Encoding (30_encoding.md) -/

/-- 30_encoding.md R61, R63, 20_memory.md R42: decoding the word of any command gives it back with every operand, from
the word and from its eight bytes. -/
def Obligations.DecodeOfEncodeGivesTheCommand : Prop :=
  ∀ i : Instr, decode (encode i) = .ok i ∧
    ∀ rest : List Byte, decodeBytes (wordBytes (encode i) ++ rest) = .ok (i, rest)

/-- R64: each command has one word: a word that decodes is the encoding of what it decodes to. -/
def Obligations.DecodedWordIsTheEncoding : Prop :=
  ∀ (w : Word) (i : Instr), decode w = .ok i → encode i = w

/-- R64, R65: decoding refuses exactly the words with an unassigned opcode or a 1 in a reserved bit. -/
def Obligations.DecodeRefusesExactlyTheIllegalWords : Prop :=
  ∀ w : Word, (∀ i, decode w ≠ .ok i) ↔
    unassigned (w.toNat / 2 ^ 56) = true ∨ ∃ k, reservedBit (w.toNat / 2 ^ 56) k = true ∧ w.getLsbD k = true

/-- R63, R64, R65 (a): the opcode map has the match and mask of every row as the spec prints them; no word matches two
rows; 236 opcodes are unassigned. -/
def Obligations.OpcodeMapIsTheSpecs : Prop :=
  opTable.map (fun row => (row.matchWord, row.fmt.mask)) = matchesAndMasks ∧
  (∀ (w : Word) (r₁ r₂ : OpRow), r₁ ∈ opTable → r₂ ∈ opTable →
    w &&& r₁.fmt.mask = r₁.matchWord → w &&& r₂.fmt.mask = r₂.matchWord → r₁.opc = r₂.opc) ∧
  ((List.range 256).filter unassigned).length = 236 ∧
  ∀ opc : Byte, (rowOf opc).isNone = unassigned opc.toNat

/-- R69: every line of the spec's encoding examples, its word, and the command the word decodes to. -/
def Obligations.SpecWordsDecode : Prop :=
  (assembleWords "SET_LOW SCL" = some [0x0100000000000001] ∧ decode 0x0100000000000001 = .ok (.setLow .scl)) ∧
  (assembleWords "START 0x80" = some [0x1000000000000080] ∧ decode 0x1000000000000080 = .ok (.start 0x80)) ∧
  (assembleWords "READ_BYTE 1" = some [0x1500000000000001] ∧ decode 0x1500000000000001 = .ok (.readByte true)) ∧
  (assembleWords "BEGIN_TX 0x40" = some [0x2200000000000040] ∧ decode 0x2200000000000040 = .ok (.beginTx 0x40)) ∧
  (assembleWords "END_TX 0" = some [0x2300000000000000] ∧ decode 0x2300000000000000 = .ok (.endTx false)) ∧
  (assembleWords "WRITE 0x10" = some [0x2400000000000010] ∧ decode 0x2400000000000010 = .ok (.write 0x10)) ∧
  (assembleWords "WRITE_BUF 0x0, 3" = some [0x2500000300000000] ∧ decode 0x2500000300000000 = .ok (.writeBuf 0 3)) ∧
  (assembleWords "REQUEST_FROM 0x40, 5" = some [0x2600040000000540] ∧
    decode 0x2600040000000540 = .ok (.requestFrom 0x40 5 0 0 true)) ∧
  (assembleWords "REQUEST_FROM 0x40, 3, 0xCCDD, 2, 1" = some [0x26000600CCDD0340] ∧
    decode 0x26000600CCDD0340 = .ok (.requestFrom 0x40 3 0xCCDD 2 true)) ∧
  (assembleWords "CRC_CHECK 0x100, 5" = some [0x3100000500000100] ∧
    decode 0x3100000500000100 = .ok (.crcCheck 0x100 5))

/-- R67, R68: the defaults, a comment, the three forms of REQUEST_FROM, every pseudo-instruction on one operand; an
operand that does not fit is refused. -/
def Obligations.AssemblerLinesOfTheSpec : Prop :=
  assembleWords "END_TX" = some [0x2300000000000001] ∧
  assembleWords "REQUEST_FROM 0x40, 5 ; defaults" = some [0x2600040000000540] ∧
  assembleWords "REQUEST_FROM 0x40, 2, 0" = some [0x2600000000000240] ∧
  assembleWords "REQUEST_FROM 0x40, 1, 0x000005, 1, 1" = some [0x2600050000050140] ∧
  assembleWords "START_W 0x40" = some [0x1000000000000080] ∧
  assembleWords "START_R 0x40" = some [0x1000000000000081] ∧
  assembleWords "REP_START_R 0x40" = some [0x1100000000000081] ∧
  assembleWords "END_TX_NOSTOP" = some [0x2300000000000000] ∧
  assembleWords "PROBE 0x40" = some [0x2200000000000040, 0x2300000000000001] ∧
  assembleWords "WRITE16 0x1000" = some [0x2400000000000010, 0x2400000000000000] ∧
  assembleWords "BEGIN_TX 0x80" = none

/-! ### The step (60_exceptions.md R153) and the host's side -/

/-- R24, R153: a command word that decodes is executed, then the host goes on and its index grows by one. -/
def Obligations.StepRunsTheDecodedCommand : Prop :=
  ∀ (s : State) (w : Word) (rest : List HostMove) (i : Instr),
    s.fault = none → s.busy = false → s.script = .command w :: rest → decode w = .ok i →
    step s = match exec i s with
      | .next t => .next { t with script := t.script.tail, index := t.index + 1 }
      | .fault f => .fault f
      | .refused r => .refused r

/-- R151, R152, R153, R155: FAULT set, then BUSY, then a word that is no command; in this order, each before any effect
of the word. The model's choices in it: with FAULT set there is no step for a store, a change of IE or a waiting block
either (log 17); a command word that finds BUSY = 1 comes at the step's entry (log 9); what the event list holds after a
fault (log 6, log 16). -/
def Obligations.StepFaultsInTheOrderOfTheSpec : Prop :=
  ∀ (s : State) (w : Word) (rest : List HostMove),
    (∀ code, s.fault = some code → step s = .fault (.noStep code)) ∧
    (s.fault = none → s.busy = true → s.script = .command w :: rest →
      step s = .fault (.reentrant { s with busy := false, fault := some .reentrant })) ∧
    (s.fault = none → s.busy = false → s.script = .command w :: rest → (∀ i, decode w ≠ .ok i) →
      step s = .fault (.illegalCommand w
        { s with busy := false, fault := some .illegalCommand, lines := { s.lines with events := [] } }))

/-- 20_memory.md R50: WRITE_BUF, CRC8 and CRC_CHECK raise `HostMemRange` before any effect exactly where the range, its
end taken without wrap-around, leaves HMEM. -/
def Obligations.RangeOutsideHmemFaults : Prop :=
  ∀ (i : Instr) (h : BitVec 32) (n : BitVec 16) (s : State), i = .writeBuf h n ∨ i = .crc8 h n ∨ i = .crcCheck h n →
    (s.cfg.hmemSize < h.toNat + n.toNat → exec i s = rangeFault h n s) ∧
    (h.toNat + n.toNat ≤ s.cfg.hmemSize → ∀ h' n' t, exec i s ≠ .fault (.hostMemRange h' n' t))

/-- R150, R153, R154: how a command that does not complete stops. Either its HMEM range does not fit; or `PushPullHigh` is
raised on a pin whose latch is 1 without pull-up mode, before any effect of the command; or the command opens with a START
that faults on SCL after it pulled SDA low. No command is refused. -/
def Obligations.CommandsStopAsTheSpecSays : Prop :=
  ∀ (i : Instr) (s : State), (∃ t, exec i s = .next t) ∨
    (∃ h n, exec i s = rangeFault h n s ∧ s.cfg.hmemSize < h.toNat + n.toNat) ∨
    (∃ p, exec i s = pushFault p s ∧ ¬ MayLower s p) ∨
    (exec i s = startFault s ∧ opensWithStart i s = true ∧ MayLower s .sda ∧ ¬ MayLower s .scl)

/-- What the host does between commands (20_memory.md R47, R48, 10_state.md R31, 60_exceptions.md R168; the moves are the
model's, log 7, log 19): with no move the block waits and keeps all its state; a store changes the one byte of HMEM and
keeps the memory's form, and at an address HMEM does not have is refused, which is the model's choice (log 23); a change of
IE changes IE and nothing else. That BUSY plays no part in them is the model's choice too (log 24). -/
def Obligations.HostMovesBetweenCommands : Prop :=
  ∀ s : State, s.fault = none →
    (s.script = [] → step s = .next s) ∧
    (∀ (a : Nat) (b : Byte) (rest : List HostMove), s.script = .store a b :: rest →
      (a < s.cfg.hmemSize → ∃ m : Memory, step s = .next { s with script := rest, hmem := m } ∧
        (Memory.wf s.hmem = true → Memory.wf m = true) ∧
        (Memory.wf s.hmem = true → ∀ x, Memory.read m x = if x = a then b else Memory.read s.hmem x)) ∧
      (s.cfg.hmemSize ≤ a → step s = .refused (.hostStoreOutside a))) ∧
    (∀ (v : Bool) (rest : List HostMove), s.script = .setIE v :: rest →
      step s = .next { s with script := rest, lines := { s.lines with ie := v } })

/-! ### Reset and construction (10_state.md R38, 00_scope.md R7) -/

/-- R38: every element after construction, in every configuration there is a block for. RXBUF's bytes are the free values
(log 4); `State.reset` is the construction in the reference configuration (log 1). The empty event list (log 6) and the empty
list of the host's moves (log 7) are the model's choices: R38 names neither. -/
def Obligations.ConstructionSetsTheResetValues : Prop :=
  (∀ c : Config, c.wf = true → ∃ s, construct c = .ok s ∧ s.cfg = c ∧ s.err = 0 ∧ s.txing = false ∧
    s.rxbuf.length = c.rxCap ∧ s.rxpos = 0 ∧ s.rxlen = 0 ∧ s.lines.sda = c.sdaReset ∧ s.lines.scl = c.sclReset ∧
    s.lines.ie = c.ieReset ∧ s.lines.events = [] ∧ s.busy = false ∧ s.fault = none ∧ s.script = [] ∧ s.index = 0) ∧
  construct Config.reference = .ok State.reset

/-- R7: a configuration with equal pin ids or a value outside its type is refused, and no other. -/
def Obligations.ConstructionRefusesBadConfigurations : Prop :=
  ∀ c : Config, (construct c = .error .noSuchBlock ↔ ¬ (c.sdaPin ≠ c.sclPin ∧ 1 ≤ c.rxCap ∧ c.rxCap ≤ 255 ∧
    1 ≤ c.tUs ∧ 1 ≤ c.nSw ∧ 1 ≤ c.hmemSize ∧ c.hmemSize ≤ 2 ^ 32)) ∧ c.hUs = c.tUs / 2

/-- The invariant holds at reset in every configuration there is a block for. -/
def Obligations.ResetMeetsTheInvariant : Prop :=
  (∀ c : Config, c.wf = true → StateOk (State.resetWith c)) ∧ StateOk State.reset

/-- R22, R28, R32: every step keeps ERR in {0, 2, 3}, RXPOS ≤ RXLEN ≤ RX_CAP, RXBUF's length, BUSY = 0 and the form of the
host memory, from every state. -/
def Obligations.StepKeepsTheInvariant : Prop :=
  ∀ s t : State, StateOk s → step s = .next t → StateOk t

/-- R30, R172: no step that completes makes the master drive a line high, and latches that let every `SetLow` drive low
stay so. -/
def Obligations.StepKeepsOpenDrain : Prop :=
  ∀ s t : State, step s = .next t →
    (openDrain s.lines = true → openDrain t.lines = true) ∧
    (MayLower s .sda ∧ MayLower s .scl → MayLower t .sda ∧ MayLower t .scl)

/-- R7, R33, R155: a step that completes changes no parameter, began with FAULT none and leaves it none. That a store, a
change of IE or a waiting block has no step with FAULT set is the model's choice (log 17). -/
def Obligations.StepKeepsParametersAndFault : Prop :=
  ∀ s t : State, step s = .next t → t.cfg = s.cfg ∧ s.fault = none ∧ t.fault = none

/-! ### GPIO (40_gpio.md) -/

/-- R71: SET_LOW, on a line it may lower and on a latch at 1 without pull-up mode. -/
def Obligations.SetLowPullsTheLineLow : Prop :=
  ∀ (p : Pin) (s : State),
    (MayLower s p → exec (.setLow p) s = .next { s with
      busy := false
      res := 0
      lines := { s.lines.setPin p { dir := .output, out := false, pu := (s.lines.pin p).pu } with
        ie := ieAtExit s.cfg s.lines.ie
        events := [.low p] } }) ∧
    (s.cfg.pullup = false → (s.lines.pin p).out = true → exec (.setLow p) s = pushFault p s)

/-- R72: SET_HIGH. -/
def Obligations.SetHighReleasesTheLine : Prop :=
  ∀ (p : Pin) (s : State),
    exec (.setHigh p) s = .next { s with
      busy := false
      res := 0
      lines := { s.lines.setPin p { dir := .input, out := s.cfg.pullup, pu := s.cfg.pullup } with
        ie := ieAtExit s.cfg s.lines.ie
        events := [.rel p] } }

/-- R77, R187: under RESTORE no command changes IE; under ENABLE a command that ran a pin operation leaves IE = 1. -/
def Obligations.InterruptEnableFollowsThePolicy : Prop :=
  ∀ (i : Instr) (s t : State), exec i s = .next t →
    (s.cfg.irqExit = .restore → t.lines.ie = s.lines.ie) ∧
    (s.cfg.irqExit = .enable → t.lines.ie = (s.lines.ie || t.lines.events.any isPinEvent))

/-! ### Bit engine (41_bit_engine.md) -/

/-- R96, R97: WRITE_BYTE; it faults where its first micro-operation is a `SetLow` of SDA that would push it high. -/
def Obligations.WriteByteSendsTheByte : Prop :=
  ∀ (v : Byte) (s : State),
    (v.getLsbD 7 = true ∨ MayLower s .sda →
      exec (.writeByte v) s = .next (s.movedTo (held s.cfg) (held s.cfg) 1 (writeByteEvents v (s.lines.answer 0))
        (if s.lines.answer 0 then 0 else 1))) ∧
    (v.getLsbD 7 = false → ¬ MayLower s .sda → exec (.writeByte v) s = pushFault .sda s)

/-- R99, R100: READ_BYTE from every state; the result is the sum of the samples o_k times 2^(7-k), whatever `last` is. -/
def Obligations.ReadByteReceivesTheByte : Prop :=
  ∀ (last : Bool) (s : State), ∃ r : Result,
    exec (.readByte last) s = .next (s.movedTo (released s.cfg) (held s.cfg) 8
      (readByteEvents last (s.lines.answersFrom 0 8)) r) ∧
    r.toNat = ((List.range 8).map (fun k => (s.lines.answer k).toNat * 2 ^ (7 - k))).sum

/-- R90: START, where both lines may be lowered and where one may not. -/
def Obligations.StartSendsTheAddressByte : Prop :=
  ∀ (ab : Byte) (s : State),
    (MayLower s .sda ∧ MayLower s .scl →
      exec (.start ab) s = .next (s.movedTo (held s.cfg) (held s.cfg) 1 (startEvents ab (s.lines.answer 0))
        (if s.lines.answer 0 then 0 else 1))) ∧
    (¬ (MayLower s .sda ∧ MayLower s .scl) → exec (.start ab) s = startFault s)

/-- R92: REP_START, from every state. -/
def Obligations.RepStartSendsTheAddressByte : Prop :=
  ∀ (ab : Byte) (s : State),
    exec (.repStart ab) s = .next (s.movedTo (held s.cfg) (held s.cfg) 1 (repStartEvents ab (s.lines.answer 0))
      (if s.lines.answer 0 then 0 else 1))

/-- R93: START_WAIT acknowledged at attempt `m + 1`, and refused `N_SW` times; it faults as its first START does. -/
def Obligations.StartWaitRetriesUpToItsBound : Prop :=
  ∀ (ab : Byte) (s : State), 1 ≤ s.cfg.nSw →
    (MayLower s .sda ∧ MayLower s .scl →
      (∀ m, m < s.cfg.nSw → (∀ j < m, s.lines.answer j = true) → s.lines.answer m = false →
        exec (.startWait ab) s = .next (s.movedTo (held s.cfg) (held s.cfg) (m + 1)
          (refusedAttempts ab m ++ startEvents ab false) 1)) ∧
      ((∀ j < s.cfg.nSw, s.lines.answer j = true) →
        exec (.startWait ab) s = .next (s.movedTo (released s.cfg) (released s.cfg) s.cfg.nSw
          (refusedAttempts ab s.cfg.nSw) 0))) ∧
    (¬ (MayLower s .sda ∧ MayLower s .scl) → exec (.startWait ab) s = startFault s)

/-- R94: STOP. -/
def Obligations.StopReleasesTheBus : Prop :=
  ∀ s : State,
    (MayLower s .sda → exec .stop s = .next (s.movedTo (released s.cfg) (released s.cfg) 0 stopEvents 0)) ∧
    (¬ MayLower s .sda → exec .stop s = pushFault .sda s)

/-- R85: the engine's commands write neither ERR, TXING, RXBUF, RXPOS nor RXLEN, nor anything but the lines, BUSY and the
result; and they do not read those five: changing them changes nothing else in the outcome. -/
def Obligations.EngineLeavesTheHandleAlone : Prop :=
  ∀ (i : Instr) (s : State), isEngine i = true →
    (∀ t, exec i s = .next t → t = { s with busy := false, res := t.res, lines := t.lines } ∧
      ∀ a, Memory.read t.hmem a = Memory.read s.hmem a) ∧
    ∀ (e : Byte) (x : Bool) (b : List Byte) (p n : Byte),
      nextOf (exec i { s with err := e, txing := x, rxbuf := b, rxpos := p, rxlen := n }) =
        (nextOf (exec i s)).map fun t => { t with err := e, txing := x, rxbuf := b, rxpos := p, rxlen := n }

/-- R104: SDA and SCL after each command of the engine that completes. -/
def Obligations.EngineLeavesTheLinesOfTheTable : Prop :=
  ∀ (i : Instr) (s t : State), 1 ≤ s.cfg.nSw → exec i s = .next t →
    match i with
    | .start _ => IsLow t.lines.sda ∧ IsLow t.lines.scl
    | .repStart _ => IsLow t.lines.sda ∧ IsLow t.lines.scl
    | .writeByte _ => IsLow t.lines.sda ∧ IsLow t.lines.scl
    | .startWait _ => (t.res = 1 → IsLow t.lines.sda ∧ IsLow t.lines.scl) ∧
      (t.res = 0 → IsRel s.cfg t.lines.sda ∧ IsRel s.cfg t.lines.scl) ∧ (t.res = 1 ∨ t.res = 0)
    | .stop => IsRel s.cfg t.lines.sda ∧ IsRel s.cfg t.lines.scl
    | .readByte _ => IsRel s.cfg t.lines.sda ∧ IsLow t.lines.scl
    | _ => True

/-- R101: `READ_BYTE 0` then `READ_BYTE 1` return the slave's two bytes in order; the slave sees an ACK, then a NAK. -/
def Obligations.TwoReadsGiveTwoBytesInOrder : Prop :=
  ∀ (x y : Byte) (s : State), s.lines.answersFrom 0 16 = wireBits x ++ wireBits y →
    ∃ t u, exec (.readByte false) s = .next t ∧ exec (.readByte true) t = .next u ∧
      t.res.toNat = x.toNat ∧ u.res.toNat = y.toNat ∧
      (t.lines.events.drop 33).head? = some (.low .sda) ∧ (u.lines.events.drop 33).head? = some (.rel .sda)

/-- R107: BUS_BEGIN is the only command that samples SCL. -/
def Obligations.OnlyBusBeginSamplesScl : Prop :=
  ∀ (i : Instr) (s t : State) (b : Bool), exec i s = .next t → .samp .scl b ∈ t.lines.events → i = .busBegin

/-- R190: delays, events and samples of every command. -/
def Obligations.EventCountsAreTheTables : Prop :=
  ∀ (i : Instr) (s t : State), exec i s = .next t → countsOf t.lines.events = delayRow i s t

/-- R91, R94, R95, R103: the traffic each command of the engine puts on the bus, read off the events of its step by the
reading aid (log 12), from the lines as the master leaves them at entry. On released lines START gives `S` and its byte,
STOP an empty `S P`. With SCL held low START and WRITE_BYTE give a byte and no condition, REP_START a repeated START (a START
where none is open) and its byte, READ_BYTE the byte it returns with the acknowledge it sends, STOP a `P`. With SDA held low
and SCL released START makes no START condition. -/
def Obligations.ConditionsReadOffTheEvents : Prop :=
  ∀ (started : Bool) (s t : State),
    let seqOf := busSequence (.onLines s.lines started) t.lines.events
    let ack := !s.lines.answer 0
    (linesReleased s.lines = true →
      (∀ ab, exec (.start ab) s = .next t → seqOf = [if started then .sr else .s, .byte ab ack]) ∧
      (exec .stop s = .next t → seqOf = [if started then .sr else .s, .p])) ∧
    (clockHeld s.lines = true →
      (∀ ab, exec (.start ab) s = .next t → seqOf = [.byte ab ack]) ∧
      (∀ ab, exec (.repStart ab) s = .next t → seqOf = [if started then .sr else .s, .byte ab ack]) ∧
      (∀ v, exec (.writeByte v) s = .next t → seqOf = [.byte v ack]) ∧
      (∀ last, exec (.readByte last) s = .next t → ∃ b : Byte, t.res = b.setWidth 32 ∧ seqOf = [.byte b (!last)]) ∧
      (exec .stop s = .next t → seqOf = [.p])) ∧
    (driveOf s.lines.sda = .pullLow → driveOf s.lines.scl = .released →
      ∀ ab, exec (.start ab) s = .next t → seqOf.any isStartItem = false ∧ (t.res = if ack then 1 else 0))

/-! ### Transaction layer (42_transaction.md) -/

/-- R106: BUS_BEGIN, from every state. -/
def Obligations.BusBeginResetsTheHandle : Prop :=
  ∀ s : State,
    exec .busBegin s = .next
      { s.movedTo (released s.cfg) (released s.cfg) 2
          [.rel .sda, .rel .scl, .samp .sda (s.lines.answer 0), .samp .scl (s.lines.answer 1)]
          (if s.lines.answer 0 = true ∧ s.lines.answer 1 = true then 1 else 0) with
        err := 0
        txing := false
        rxpos := 0
        rxlen := 0 }

/-- R108: BUS_END changes nothing. -/
def Obligations.BusEndChangesNothing : Prop :=
  ∀ s : State, exec .busEnd s = .next (s.answered 0)

/-- R109: BEGIN_TX: a START or, with TXING = 1, a repeated START; it faults as that START does. -/
def Obligations.BeginTxOpensATransaction : Prop :=
  ∀ (a7 : BitVec 7) (s : State),
    (s.txing = true ∨ (MayLower s .sda ∧ MayLower s .scl) → exec (.beginTx a7) s = .next
      { s.movedTo (held s.cfg) (held s.cfg) 1
          ((if s.txing then repStartEvents (a7 ++ 0#1) else startEvents (a7 ++ 0#1)) (s.lines.answer 0)) 0 with
        err := if s.lines.answer 0 then 2 else s.err
        txing := true }) ∧
    (s.txing = false → ¬ (MayLower s .sda ∧ MayLower s .scl) → exec (.beginTx a7) s = startFault s)

/-- R112: END_TX returns ERR as it was and clears it; with FLAG = 1 it runs STOP and clears TXING, or faults as STOP
does. -/
def Obligations.EndTxReportsTheError : Prop :=
  ∀ s : State,
    exec (.endTx false) s = .next { s.answered (s.err.setWidth 32) with err := 0 } ∧
    (MayLower s .sda → exec (.endTx true) s = .next
      { s.movedTo (released s.cfg) (released s.cfg) 0 stopEvents (s.err.setWidth 32) with err := 0, txing := false }) ∧
    (¬ MayLower s .sda → exec (.endTx true) s = pushFault .sda s)

/-- R115: WRITE; it faults as WRITE_BYTE does. -/
def Obligations.WriteSendsOneByte : Prop :=
  ∀ (b : Byte) (s : State),
    (b.getLsbD 7 = true ∨ MayLower s .sda → exec (.write b) s = .next
      { s.movedTo (held s.cfg) (held s.cfg) 1 (writeByteEvents b (s.lines.answer 0))
          (if s.lines.answer 0 then 0 else 1) with
        err := if s.lines.answer 0 then 3 else s.err }) ∧
    (b.getLsbD 7 = false → ¬ MayLower s .sda → exec (.write b) s = pushFault .sda s)

/-- R117: WRITE_BUF sends HMEM's bytes in address order up to and with the first refused one and returns how many were
acknowledged; a range that leaves HMEM and a first byte that may not be sent fault. -/
def Obligations.WriteBufSendsUpToTheFirstNak : Prop :=
  ∀ (h : BitVec 32) (n : BitVec 16) (s : State),
    let bytes := (List.range n.toNat).map (fun k => Memory.read s.hmem (h.toNat + k))
    let as := s.lines.answersFrom 0 n.toNat
    let sendable := (Memory.read s.hmem h.toNat).getLsbD 7 = true ∨ MayLower s .sda
    (s.cfg.hmemSize < h.toNat + n.toNat → exec (.writeBuf h n) s = rangeFault h n s) ∧
    (h.toNat + n.toNat ≤ s.cfg.hmemSize →
      (n = 0 → exec (.writeBuf h n) s = .next (s.answered 0)) ∧
      (n ≠ 0 → sendable → exec (.writeBuf h n) s = .next
        { s.movedTo (held s.cfg) (held s.cfg) (sentBytes as) (writeEachEvents (bytes.take (sentBytes as)) as)
            (BitVec.ofNat 32 (ackedBytes as)) with
          err := if ackedBytes as < n.toNat then 3 else s.err }) ∧
      (n ≠ 0 → ¬ sendable → exec (.writeBuf h n) s = pushFault .sda s))

/-- R118: WRITE_BUF has the effect of the WRITEs of its bytes up to and with the first refused one, and its result is
their sum. -/
def Obligations.WriteBufIsAsManyWrites : Prop :=
  ∀ (h : BitVec 32) (n : BitVec 16) (s t : State), exec (.writeBuf h n) s = .next t →
    ∃ c es u, writeUntilNak ((List.range n.toNat).map (fun k => Memory.read s.hmem (h.toNat + k))) s = some (c, es, u) ∧
      t = { u with busy := false, res := BitVec.ofNat 32 c, lines := { u.lines with events := es } }

/-- R119, R120, R121: the whole of REQUEST_FROM, for every operand: the internal-address phase, the clamp, the read
address, `q` reads with a NAK only on the last, the STOP, the cursor; it faults as its first START does. -/
def Obligations.RequestFromReadsIntoTheBuffer : Prop :=
  ∀ (a7 : BitVec 7) (qty : Byte) (iaddr : BitVec 24) (isize : BitVec 2) (sendStop : Bool) (s : State),
    let q := min qty.toNat s.cfg.rxCap
    let n := isize.toNat
    let iaddrPhase : List Event := if n = 0 then [] else
      addressEvents s.txing (a7 ++ 0#1) (s.lines.answer 0) ++
        writeEachEvents ((List.range n).reverse.map fun k => iaddr.extractLsb' (8 * k) 8) (s.lines.answersFrom 1 n)
    let events := iaddrPhase ++
      addressEvents (s.txing || n != 0) (a7 ++ 1#1) (s.lines.answer (internalSamples n)) ++
      readEachEvents s.lines (internalSamples n + 1) q ++ (if sendStop then stopEvents else [])
    (s.txing = true ∨ (MayLower s .sda ∧ MayLower s .scl) → s.rxbuf.length = s.cfg.rxCap →
      exec (.requestFrom a7 qty iaddr isize sendStop) s = .next
        { s.movedTo (requestSda s.cfg q sendStop) (requestScl s.cfg sendStop) (internalSamples n + 1 + 8 * q)
            events (BitVec.ofNat 32 (requestAvailable s n q)) with
          err := if isize = 0 then s.err else 0
          txing := !sendStop
          rxbuf := requestBytes s n q ++ s.rxbuf.drop q
          rxpos := 0
          rxlen := BitVec.ofNat 8 (requestAvailable s n q) }) ∧
    (s.txing = false → ¬ (MayLower s .sda ∧ MayLower s .scl) →
      exec (.requestFrom a7 qty iaddr isize sendStop) s = startFault s)

/-- R122: REQUEST_FROM returns 0 or min(QTY, RX_CAP), RXLEN is that value, and (where that minimum is not 0) it is the
minimum exactly when the read address was acknowledged and the internal-address phase returned 0. -/
def Obligations.RequestFromClampsItsQuantity : Prop :=
  ∀ (a7 : BitVec 7) (qty : Byte) (iaddr : BitVec 24) (isize : BitVec 2) (sendStop : Bool) (s t : State),
    exec (.requestFrom a7 qty iaddr isize sendStop) s = .next t →
    let q := min qty.toNat s.cfg.rxCap
    (t.res.toNat = 0 ∨ t.res.toNat = q) ∧ t.rxlen.toNat = t.res.toNat ∧ t.res.toNat ≤ s.cfg.rxCap ∧
    (q ≠ 0 → (t.res.toNat = q ↔
      internalError s isize.toNat = 0 ∧ s.lines.answer (internalSamples isize.toNat) = false))

/-- R123: AVAILABLE, where RXPOS ≤ RXLEN (R28). -/
def Obligations.AvailableCountsTheBytesLeft : Prop :=
  ∀ s : State, s.rxpos ≤ s.rxlen →
    exec .available s = .next (s.answered (BitVec.ofNat 32 (s.rxlen.toNat - s.rxpos.toNat)))

/-- R124: READ takes the next byte, and gives -1 and changes nothing where the cursor has reached the valid length. -/
def Obligations.ReadTakesTheNextByte : Prop :=
  ∀ s : State,
    (∀ b, s.rxpos < s.rxlen → s.rxbuf[s.rxpos.toNat]? = some b →
      exec .read s = .next { s.answered (BitVec.ofNat 32 b.toNat) with rxpos := s.rxpos + 1 }) ∧
    (s.rxlen ≤ s.rxpos → exec .read s = .next (s.answered (BitVec.ofInt 32 (-1))))

/-- R125: PEEK gives the next byte, or -1, and changes nothing. -/
def Obligations.PeekLooksAtTheNextByte : Prop :=
  ∀ s : State,
    (∀ b, s.rxpos < s.rxlen → s.rxbuf[s.rxpos.toNat]? = some b →
      exec .peek s = .next (s.answered (BitVec.ofNat 32 b.toNat))) ∧
    (s.rxlen ≤ s.rxpos → exec .peek s = .next (s.answered (BitVec.ofInt 32 (-1))))

/-- R126: after a REQUEST_FROM that returned n, take any commands among which there is no REQUEST_FROM and no BUS_BEGIN:
the first n READs among them give RXBUF[0..n-1] in order, the bytes the slave sent, and every later READ -1; once n READs are
done, READ and PEEK give -1 and AVAILABLE 0. n READs in a row complete. -/
def Obligations.ReadsReturnTheRequestedBytes : Prop :=
  ∀ (a7 : BitVec 7) (qty : Byte) (iaddr : BitVec 24) (isize : BitVec 2) (sendStop : Bool) (s t : State),
    StateOk s → exec (.requestFrom a7 qty iaddr isize sendStop) s = .next t →
    let n := t.res.toNat
    (∀ k < n, t.rxbuf[k]? = some (s.lines.byteAt (internalSamples isize.toNat + 1 + 8 * k))) ∧
    (∃ rs u, readsAmong (List.replicate n .read) t = some (rs, u)) ∧
    ∀ (cs : List Instr) (rs : List Result) (u : State), cs.all keepsReceived = true → readsAmong cs t = some (rs, u) →
      rs.length = cs.count .read ∧
      (∀ k < rs.length, rs[k]? = if k < n then (t.rxbuf[k]?).map (fun b => BitVec.ofNat 32 b.toNat)
        else some (BitVec.ofInt 32 (-1))) ∧
      (n ≤ rs.length → ∃ v w x, exec .read u = .next v ∧ v.res = BitVec.ofInt 32 (-1) ∧
        exec .peek u = .next w ∧ w.res = BitVec.ofInt 32 (-1) ∧ exec .available u = .next x ∧ x.res = 0)

/-- R111: with ERR = 0, BEGIN_TX then END_TX 1 returns 0 if the slave acknowledged the address byte and 2 if not; with
another ERR an acknowledge leaves that ERR as the result. -/
def Obligations.ProbeReportsTheAcknowledge : Prop :=
  ∀ (a7 : BitVec 7) (s : State), s.txing = true ∨ (MayLower s .sda ∧ MayLower s .scl) →
    ∃ t u, exec (.beginTx a7) s = .next t ∧ exec (.endTx true) t = .next u ∧
      u.res = (if s.lines.answer 0 then 2 else s.err.setWidth 32) ∧
      (s.err = 0 → u.res = if s.lines.answer 0 then 2 else 0) ∧ u.err = 0 ∧ u.txing = false

/-- R116: what END_TX, with or without a STOP, returns after BEGIN_TX and WRITEs, from ERR = 0. -/
def Obligations.EndTxAfterWritesReportsTheWorst : Prop :=
  ∀ (a7 : BitVec 7) (bs : List Byte) (sendStop : Bool) (s : State), s.err = 0 →
    s.txing = true ∨ (MayLower s .sda ∧ MayLower s .scl) →
    ∃ t u v, exec (.beginTx a7) s = .next t ∧ writeMany bs t = some u ∧ exec (.endTx sendStop) u = .next v ∧
      v.res = (if (s.lines.answersFrom 1 bs.length).any id then 3 else if s.lines.answer 0 then 2 else 0)

/-- R127: ERR and TXING after every command. -/
def Obligations.ErrAndTxingFollowTheTable : Prop :=
  ∀ (i : Instr) (s t : State), exec i s = .next t → t.err = errTable i s t ∧ t.txing = txingTable i s

/-- R26, R27: who writes RXPOS and RXLEN, and what. -/
def Obligations.CursorHasThreeWriters : Prop :=
  ∀ (i : Instr) (s t : State), exec i s = .next t →
    match i with
    | .requestFrom _ qty _ isize _ => t.rxpos = 0 ∧
        t.rxlen.toNat = requestAvailable s isize.toNat (min qty.toNat s.cfg.rxCap)
    | .busBegin => t.rxpos = 0 ∧ t.rxlen = 0
    | .read => t.rxpos = (if s.rxpos < s.rxlen then s.rxpos + 1 else s.rxpos) ∧ t.rxlen = s.rxlen
    | _ => t.rxpos = s.rxpos ∧ t.rxlen = s.rxlen

/-- R25, R121: only REQUEST_FROM writes RXBUF, and only below the clamped quantity. -/
def Obligations.OnlyRequestFromWritesTheBuffer : Prop :=
  ∀ (i : Instr) (s t : State), exec i s = .next t →
    match i with
    | .requestFrom _ qty _ _ _ => t.rxbuf.length = s.rxbuf.length ∧
        ∀ k, min qty.toNat s.cfg.rxCap ≤ k → t.rxbuf[k]? = s.rxbuf[k]?
    | _ => t.rxbuf = s.rxbuf

/-- The frame of every command: no byte of HMEM, no parameter, not FAULT, none of the host's moves and not its index;
BUSY is 0 after. -/
def Obligations.NoCommandTouchesTheHost : Prop :=
  ∀ (i : Instr) (s t : State), exec i s = .next t →
    (∀ a, Memory.read t.hmem a = Memory.read s.hmem a) ∧ t.hmem = s.hmem ∧ t.cfg = s.cfg ∧ t.fault = s.fault ∧
    t.script = s.script ∧ t.index = s.index ∧ t.busy = false

/-- The frame of BUS_END, AVAILABLE, READ, PEEK, CRC8 and CRC_CHECK: no line, no event, no ERR, TXING, RXBUF or RXLEN;
only READ moves the cursor. -/
def Obligations.QuietCommandsTouchNoLine : Prop :=
  ∀ (i : Instr) (s t : State), isQuiet i = true → exec i s = .next t →
    t = { s with busy := false, res := t.res, rxpos := t.rxpos, lines := { s.lines with events := [] } } ∧
    (i ≠ .read → t.rxpos = s.rxpos) ∧ ∀ a, Memory.read t.hmem a = Memory.read s.hmem a

/-- 20_memory.md R45: only WRITE_BUF, CRC8 and CRC_CHECK read HMEM: for every other command, other contents of HMEM change
nothing in the outcome but HMEM itself. -/
def Obligations.OnlyThreeCommandsReadHmem : Prop :=
  ∀ (i : Instr) (s : State) (m : Memory), readsNoHmem i = true →
    nextOf (exec i { s with hmem := m }) = (nextOf (exec i s)).map fun t => { t with hmem := m }

/-! ### CRC (43_crc.md) -/

/-- R130: the checksum is the spec's, computed on numbers. -/
def Obligations.ChecksumIsTheSpecs : Prop :=
  ∀ d : List Byte, (crc8 d).toNat = crcNat (d.map BitVec.toNat)

/-- R131, R134: CRC8 and CRC_CHECK on a range of HMEM, and on one that leaves it. -/
def Obligations.CrcCommandsAnswer : Prop :=
  ∀ (h : BitVec 32) (n : BitVec 16) (s : State),
    let f := (List.range n.toNat).map (fun k => Memory.read s.hmem (h.toNat + k))
    (h.toNat + n.toNat ≤ s.cfg.hmemSize →
      exec (.crc8 h n) s = .next (s.answered (BitVec.ofNat 32 (crcNat (f.map BitVec.toNat)))) ∧
      (n = 0 → exec (.crcCheck h n) s = .next (s.answered 0)) ∧
      (n ≠ 0 → exec (.crcCheck h n) s = .next (s.answered
        (if crcNat ((f.take (n.toNat - 1)).map BitVec.toNat) = (Memory.read s.hmem (h.toNat + (n.toNat - 1))).toNat
          then 1 else 0)))) ∧
    (s.cfg.hmemSize < h.toNat + n.toNat →
      exec (.crc8 h n) s = rangeFault h n s ∧ exec (.crcCheck h n) s = rangeFault h n s)

/-- R132, R133: the laws of crc8, (a) to (f), and its table. -/
def Obligations.ChecksumLaws : Prop :=
  crc8 [] = 0 ∧
  (∀ n, crc8 (List.replicate n 0) = 0) ∧
  (∀ a b : List Byte, a.length = b.length → crc8 (List.zipWith (· ^^^ ·) a b) = crc8 a ^^^ crc8 b) ∧
  (∀ (a : List Byte) (x : Byte), crc8 (a ++ [x]) = crc8 [crc8 a ^^^ x]) ∧
  (∀ (a : List Byte) (x : Byte), crcTable[(crc8 a ^^^ x).toNat]? = some (crc8 (a ++ [x]))) ∧
  (∀ a : List Byte, crc8 (a ++ [crc8 a]) = 0) ∧
  (∀ a : List Byte, crc8 (0 :: a) = crc8 a) ∧
  (List.range 256).map (fun i => crc8 [BitVec.ofNat 8 i]) = crcTable

/-- R134: a nonempty frame passes exactly when its checksum, its last byte included, is 0. -/
def Obligations.FramePassesWhenItsChecksumIsZero : Prop :=
  ∀ f : List Byte, f ≠ [] → (crcPasses f = true ↔ crc8 f = 0)

/-- R135 (a): every error inside one byte of a passing frame is detected. -/
def Obligations.OneByteErrorsAreDetected : Prop :=
  ∀ (f : List Byte) (k : Nat) (e : Byte), crcPasses f = true → k < f.length → e ≠ 0 →
    crcPasses (f.modify k (· ^^^ e)) = false

/-- R135 (b): every error with an odd number of inverted bits is detected, whatever the frame length. -/
def Obligations.OddErrorsAreDetected : Prop :=
  ∀ f e : List Byte, e.length = f.length → crcPasses f = true → (e.map onesOf).sum % 2 = 1 →
    crcPasses (List.zipWith (· ^^^ ·) f e) = false

end Statements
end

