-- ==== Sys2Proof/Laws/Encoding.lean ====
section
/-! SUPPORT. The words of each format (30_encoding.md R61): the opcode byte, and zeros in every reserved bit. -/

namespace Sys2Proof

/-- The opcode byte of a word put together from an opcode and 56 bits below it. -/
theorem opcodeOf_append (opc : Byte) (x : BitVec 56) : opcodeOf (opc ++ x) = opc := by
  apply BitVec.eq_of_getLsbD_eq
  intro i hi
  have h : ¬ 56 + i < 56 := by omega
  simp only [opcodeOf, BitVec.getLsbD_extractLsb', hi, decide_true, Bool.true_and]
  rw [show (opc ++ x : BitVec 64) = (opc ++ x : BitVec (8 + 56)) from rfl, BitVec.getLsbD_append, if_neg h]
  simp

theorem mask_encodeN (opc : Byte) : encodeN opc &&& Format.n.mask = opc ++ 0#56 := by
  apply BitVec.eq_of_getLsbD_eq
  intro i hi
  simp only [encodeN, BitVec.getLsbD_and, BitVec.getLsbD_append, Format.mask, Format.fieldBits, BitVec.getLsbD_not, hi]
  simp

theorem mask_encodeBit (opc : Byte) (b : BitVec 1) : encodeBit opc b &&& Format.p.mask = opc ++ 0#56 := by
  apply BitVec.eq_of_getLsbD_eq
  intro i hi
  simp only [encodeBit, BitVec.getLsbD_and, BitVec.getLsbD_append, Format.mask, Format.fieldBits, BitVec.getLsbD_not, hi]
  by_cases h1 : i < 56
  · interval_cases i <;> simp
  · interval_cases i <;> simp

theorem mask_encodeB (opc v : Byte) : encodeB opc v &&& Format.b.mask = opc ++ 0#56 := by
  apply BitVec.eq_of_getLsbD_eq
  intro i hi
  simp only [encodeB, BitVec.getLsbD_and, BitVec.getLsbD_append, Format.mask, Format.fieldBits, BitVec.getLsbD_not, hi]
  by_cases h1 : i < 56
  · interval_cases i <;> simp
  · interval_cases i <;> simp

theorem mask_encodeA (opc : Byte) (a7 : BitVec 7) : encodeA opc a7 &&& Format.a.mask = opc ++ 0#56 := by
  apply BitVec.eq_of_getLsbD_eq
  intro i hi
  simp only [encodeA, BitVec.getLsbD_and, BitVec.getLsbD_append, Format.mask, Format.fieldBits, BitVec.getLsbD_not, hi]
  by_cases h1 : i < 56
  · interval_cases i <;> simp
  · interval_cases i <;> simp

theorem mask_encodeM (opc : Byte) (h : BitVec 32) (n : BitVec 16) : encodeM opc h n &&& Format.m.mask = opc ++ 0#56 := by
  apply BitVec.eq_of_getLsbD_eq
  intro i hi
  simp only [encodeM, BitVec.getLsbD_and, BitVec.getLsbD_append, Format.mask, Format.fieldBits, BitVec.getLsbD_not, hi]
  by_cases h1 : i < 56
  · interval_cases i <;> simp
  · interval_cases i <;> simp

theorem mask_encodeR (opc : Byte) (a7 : BitVec 7) (q : Byte) (ia : BitVec 24) (n : BitVec 2) (s : Bool) :
    encodeR opc a7 q ia n s &&& Format.r.mask = opc ++ 0#56 := by
  apply BitVec.eq_of_getLsbD_eq
  intro i hi
  simp only [encodeR, BitVec.getLsbD_and, BitVec.getLsbD_append, Format.mask, Format.fieldBits, BitVec.getLsbD_not, hi]
  by_cases h1 : i < 56
  · interval_cases i <;> simp
  · interval_cases i <;> simp

end Sys2Proof
end

