-- ==== Sys2Proof/Laws/Memory.lean ====
section
/-! SUPPORT. The laws of the host memory: reading after writing, and the canonical form kept. -/

namespace Sys2Proof.Machine

/-- Every address of `m` lies above `k`. -/
abbrev Above (k : Nat) (m : Memory) : Prop := ∀ c ∈ m, k < c.1

theorem wf_cons {k : Nat} {v : Byte} {m : Memory} :
    Memory.wf ((k, v) :: m) = true ↔ v ≠ Memory.unlisted ∧ Above k m ∧ Memory.wf m = true := by
  simp [Memory.wf, Above, and_assoc]

theorem read_of_above {k : Nat} {m : Memory} (h : Above k m) : Memory.read m k = Memory.unlisted := by
  induction m with
  | nil => rfl
  | cons c m ih =>
    have hk : k < c.1 := h c (by simp)
    simp only [Memory.read, if_neg (Nat.ne_of_gt hk)]
    exact ih fun d hd => h d (List.mem_cons_of_mem _ hd)

theorem read_consCell (a : Nat) (b : Byte) (m : Memory) (x : Nat) (h : Above a m) :
    Memory.read (Memory.consCell a b m) x = if x = a then b else Memory.read m x := by
  by_cases hx : x = a
  · subst hx
    by_cases hb : b = Memory.unlisted
    · simp [Memory.consCell, hb, read_of_above h]
    · simp [Memory.consCell, hb, Memory.read]
  · by_cases hb : b = Memory.unlisted <;> simp [Memory.consCell, hb, Memory.read, hx, Ne.symm hx]

theorem above_of_lt {a k : Nat} {v : Byte} {m : Memory} (hak : a < k) (h : Above k m) : Above a ((k, v) :: m) := by
  intro c hc
  rcases List.mem_cons.mp hc with rfl | hc
  · exact hak
  · exact hak.trans (h c hc)

theorem above_consCell {a k : Nat} {b : Byte} {m : Memory} (hka : k < a) (h : Above k m) :
    Above k (Memory.consCell a b m) := by
  intro c hc
  unfold Memory.consCell at hc
  split at hc
  · exact h c hc
  · rcases List.mem_cons.mp hc with rfl | hc
    · exact hka
    · exact h c hc

theorem wf_consCell {a : Nat} {b : Byte} {m : Memory} (h : Above a m) (hm : Memory.wf m = true) :
    Memory.wf (Memory.consCell a b m) = true := by
  unfold Memory.consCell
  split
  · exact hm
  · exact wf_cons.mpr ⟨‹_›, h, hm⟩

theorem above_write {k a : Nat} {b : Byte} (hka : k < a) {m : Memory} (h : Above k m) :
    Above k (Memory.write m a b) := by
  induction m with
  | nil => exact above_consCell hka h
  | cons c m ih =>
    have hm : Above k m := fun d hd => h d (List.mem_cons_of_mem _ hd)
    simp only [Memory.write]
    split
    · exact above_consCell hka h
    · split
      · exact above_consCell hka hm
      · intro d hd
        rcases List.mem_cons.mp hd with rfl | hd
        · exact h _ (by simp)
        · exact ih hm d hd

/-- A write keeps the canonical form. -/
theorem write_wf (m : Memory) (a : Nat) (b : Byte) (h : Memory.wf m = true) :
    Memory.wf (Memory.write m a b) = true := by
  induction m with
  | nil => exact wf_consCell (by simp [Above]) h
  | cons c m ih =>
    obtain ⟨k, v⟩ := c
    obtain ⟨hv, hk, hm⟩ := wf_cons.mp h
    simp only [Memory.write]
    split
    · exact wf_consCell (above_of_lt ‹_› hk) h
    · split
      · subst_vars; exact wf_consCell hk hm
      · exact wf_cons.mpr ⟨hv, above_write (by omega) hk, ih hm⟩

/-- A read after a write (canonical memory): the byte written at its address, the old byte at every other. -/
theorem read_write (m : Memory) (a : Nat) (b : Byte) (x : Nat) (h : Memory.wf m = true) :
    Memory.read (Memory.write m a b) x = if x = a then b else Memory.read m x := by
  induction m with
  | nil => exact read_consCell a b [] x (by simp [Above])
  | cons c m ih =>
    obtain ⟨k, v⟩ := c
    obtain ⟨_, hk, hm⟩ := wf_cons.mp h
    simp only [Memory.write]
    split
    · exact read_consCell a b _ x (above_of_lt ‹_› hk)
    · split
      · subst_vars
        rw [read_consCell _ _ _ _ hk]
        by_cases hx : x = k
        · simp [hx]
        · simp [Memory.read, hx, Ne.symm hx]
      · by_cases hx : x = k
        · have : x ≠ a := by omega
          subst hx; simp [Memory.read, this]
        · simp [Memory.read, Ne.symm hx, ih hm]

theorem below_cons {n : Nat} {c : Host.Cell} {m : Memory} :
    Memory.below n (c :: m) = true ↔ c.1 < n ∧ Memory.below n m = true := by
  simp [Memory.below]

/-- A write below `n` keeps every address below `n`. -/
theorem write_below (m : Memory) (a : Nat) (b : Byte) (n : Nat) (ha : a < n) (h : Memory.below n m = true) :
    Memory.below n (Memory.write m a b) = true := by
  have cell : ∀ r : Memory, Memory.below n r = true → Memory.below n (Memory.consCell a b r) = true := by
    intro r hr
    unfold Memory.consCell
    split
    · exact hr
    · exact below_cons.mpr ⟨ha, hr⟩
  induction m with
  | nil => exact cell [] h
  | cons c m ih =>
    obtain ⟨hc, hm⟩ := below_cons.mp h
    simp only [Memory.write]
    split
    · exact cell _ h
    · split
      · exact cell _ hm
      · exact below_cons.mpr ⟨hc, ih hm⟩

theorem length_readRange (m : Memory) (a n : Nat) : (Memory.readRange m a n).length = n := by
  simp [Memory.readRange]

/-- Each byte of a range read is the byte at its address (20_memory.md R45). -/
theorem getElem?_readRange (m : Memory) (a n i : Nat) (h : i < n) :
    (Memory.readRange m a n)[i]? = some (Memory.read m (a + i)) := by
  simp [Memory.readRange, h]

end Sys2Proof.Machine
end

