-- ==== Sys2Proof/Laws/Micro.lean ====
section
/-! SUPPORT. What the engine's sub-operations do to the lines (41_bit_engine.md): one equation each, for every state of
the lines in which they raise nothing, and the fault they raise otherwise. -/

namespace Sys2Proof.Machine

section Monad

variable {ε σ α β : Type} {x : EStateM ε σ α} {f : α → EStateM ε σ β} {s t : σ}

theorem bind_of_ok {a : α} (h : x s = .ok a t) : (x >>= f) s = f a t := by
  simp [bind, EStateM.bind, h]

theorem bind_of_error {e : ε} (h : x s = .error e t) : (x >>= f) s = .error e t := by
  simp [bind, EStateM.bind, h]

theorem pure_run (a : α) : (pure a : EStateM ε σ α) s = .ok a s := rfl

end Monad

variable {c : Config} {l : Lines}

@[simp] theorem ieAtExit_idem (c : Config) (v : Bool) : ieAtExit c (ieAtExit c v) = ieAtExit c v := by
  unfold ieAtExit; cases c.irqExit <;> rfl

@[simp] theorem pushesHigh_held (c : Config) : pushesHigh c (held c) = false := by simp [pushesHigh, held]

@[simp] theorem pushesHigh_released (c : Config) : pushesHigh c (released c) = false := by
  cases h : c.pullup <;> simp [pushesHigh, released, h]

theorem pushesHigh_lowered {v : PinState} (h : pushesHigh c v = false) : pushesHigh c (lowered c v) = false := by
  cases hp : c.pullup <;> simp_all [pushesHigh, lowered]

theorem setLow_ok {p : Pin} (h : pushesHigh c (l.pin p) = false) :
    setLow c p l = .ok () (maskedPinWrite c p (lowered c (l.pin p)) (.low p) l) := by
  simp [setLow, h]

theorem setLow_error {p : Pin} (h : pushesHigh c (l.pin p) = true) : setLow c p l = .error p l := by
  simp [setLow, h]

@[simp] theorem pin_sda (l : Lines) : l.pin .sda = l.sda := rfl

@[simp] theorem pin_scl (l : Lines) : l.pin .scl = l.scl := rfl

theorem delay_run (k : DelayKind) (l : Lines) : delay k l = .ok () (l.emit (.wait k)) := rfl

@[simp] theorem answer_maskedPinWrite (p : Pin) (v : PinState) (e : Event) (l : Lines) (i : Nat) :
    (maskedPinWrite c p v e l).answer i = l.answer i := by
  cases p <;> rfl

theorem setHigh_run (p : Pin) : setHigh c p l = .ok () (maskedPinWrite c p (released c) (.rel p) l) := rfl

/-- What `setData` makes of SDA. -/
theorem setData_ok {b : Bool} (h : b = false → pushesHigh c l.sda = false) :
    setData c b l = .ok () (maskedPinWrite c .sda (if b then released c else lowered c l.sda) (dataEvent b) l) := by
  cases b
  · exact setLow_ok (p := .sda) (h rfl)
  · rfl

/-- One data-bit group. -/
theorem sendBits_cons {b : Bool} (bs : List Bool) (h : b = false → pushesHigh c l.sda = false) :
    sendBits c (b :: bs) l = sendBits c bs
      { l with sda := if b then released c else lowered c l.sda, scl := held c, ie := ieAtExit c l.ie,
               events := l.events ++ sentBitEvents b } := by
  simp only [sendBits]
  rw [bind_of_ok (setData_ok h)]
  cases hp : c.pullup <;>
  simp [bind, EStateM.bind, setHigh, setLow, delay, maskedPinWrite, pushesHigh, released, Lines.pin, Lines.setPin,
    Lines.emit, lowered, held, hp, sentBitEvents]

/-- The data bits: SDA is left in some state that a `SetLow` can lower, SCL pulled low. -/
theorem sendBits_run (b : Bool) (bs : List Bool) (l : Lines) (h : b = false → pushesHigh c l.sda = false) :
    ∃ d, pushesHigh c d = false ∧ sendBits c (b :: bs) l = .ok ()
      { l with sda := d, scl := held c, ie := ieAtExit c l.ie, events := l.events ++ (b :: bs).flatMap sentBitEvents } := by
  induction bs generalizing b l with
  | nil =>
    refine ⟨if b then released c else lowered c l.sda, ?_, ?_⟩
    · cases b
      · simpa using pushesHigh_lowered (h rfl)
      · simp
    · rw [sendBits_cons [] h]
      simp [sendBits, pure, EStateM.pure]
  | cons b' bs ih =>
    rw [sendBits_cons _ h]
    obtain ⟨d, hd, he⟩ := ih b' { l with sda := if b then released c else lowered c l.sda, scl := held c, ie := ieAtExit c l.ie, events := l.events ++ sentBitEvents b } (by
      intro _
      cases b
      · simpa using pushesHigh_lowered (h rfl)
      · simp)
    exact ⟨d, hd, by simp [he]⟩

theorem sampleAck_run (c : Config) (l : Lines) :
    sampleAck c l = .ok (!l.answer 0) (l.moved c (held c) (held c) 1
      [.rel .sda, .rel .scl, .wait .h, .samp .sda (l.answer 0), .low .scl, .wait .h, .low .sda]) := by
  cases hp : c.pullup <;>
  simp [sampleAck, bind, EStateM.bind, setHigh, setLow, delay, sample, maskedPinWrite, pushesHigh, released, Lines.pin,
    Lines.setPin, Lines.emit, lowered, driveOf, Lines.skip, pure, EStateM.pure, held, Lines.moved, Lines.answer, hp]

/-- `WriteByte` (R96): it completes unless its first micro-operation is a `SetLow` that would push SDA high (R154). -/
theorem writeByte_run {v : Byte} (h : v.getLsbD 7 = false → pushesHigh c l.sda = false) :
    writeByte c v l = .ok (!l.answer 0) (l.moved c (held c) (held c) 1 (writeByteEvents v (l.answer 0))) := by
  obtain ⟨d, _, hs⟩ := sendBits_run (c := c) (v.getLsbD 7) [v.getLsbD 6, v.getLsbD 5, v.getLsbD 4, v.getLsbD 3, v.getLsbD 2, v.getLsbD 1, v.getLsbD 0] l h
  unfold writeByte wireBits
  rw [bind_of_ok hs, sampleAck_run]
  simp [Lines.moved, Lines.answer, writeByteEvents, wireBits]

theorem writeByte_error {v : Byte} (hv : v.getLsbD 7 = false) (h : pushesHigh c l.sda = true) :
    writeByte c v l = .error .sda l := by
  unfold writeByte wireBits
  apply bind_of_error
  simp only [sendBits, hv, setData]
  exact bind_of_error (setLow_error h)

/-- The data bits of `ReadByte`, with SDA released by the master. -/
theorem receiveBits_run (n : Nat) (b : Byte) (l : Lines) (h : l.sda = released c) :
    receiveBits c (n + 1) b l = .ok ((l.answersFrom 0 (n + 1)).foldl shiftIn b)
      (l.moved c (released c) (held c) (n + 1) ((l.answersFrom 0 (n + 1)).flatMap readBitEvents)) := by
  have one : ∀ (k : Nat) (b : Byte) (l : Lines), l.sda = released c → receiveBits c (k + 1) b l =
      receiveBits c k (shiftIn b (l.answer 0)) (l.moved c (released c) (held c) 1 (readBitEvents (l.answer 0))) := by
    intro k b l h
    simp only [receiveBits]
    cases hp : c.pullup <;>
    simp [bind, EStateM.bind, setHigh, setLow, delay, sample, maskedPinWrite, pushesHigh, released, Lines.pin, h,
      Lines.setPin, Lines.emit, lowered, driveOf, Lines.skip, held, Lines.moved, Lines.answer, hp, readBitEvents]
  induction n generalizing b l with
  | zero =>
    rw [one _ _ _ h]
    simp [receiveBits, pure, EStateM.pure, Lines.answersFrom]
  | succ n ih =>
    rw [one _ _ _ h, ih _ _ (by simp [Lines.moved])]
    have ha : ∀ i, (l.moved c (released c) (held c) 1 (readBitEvents (l.answer 0))).answer i = l.answer (i + 1) := by
      intro i
      simp [Lines.answer, Lines.moved, Nat.add_comm, Nat.add_left_comm]
    have hl : l.answersFrom 0 (n + 1 + 1) = l.answer 0 :: (l.moved c (released c) (held c) 1 (readBitEvents (l.answer 0))).answersFrom 0 (n + 1) := by
      simp only [Lines.answersFrom, ha]
      rw [List.range_succ_eq_map]
      simp [List.map_map, Function.comp_def]
    rw [hl]
    simp [Lines.moved, Nat.add_comm, Nat.add_left_comm]

theorem sendAck_run (last : Bool) (h : l.sda = released c) :
    sendAck c last l = .ok () (l.moved c (released c) (held c) 0
      [dataEvent last, .rel .scl, .wait .h, .low .scl, .wait .h, .rel .sda]) := by
  cases hp : c.pullup <;> cases last <;>
  simp [sendAck, bind, EStateM.bind, setData, setHigh, setLow, delay, maskedPinWrite, pushesHigh, released, Lines.pin,
    Lines.setPin, Lines.emit, lowered, held, Lines.moved, hp, h, dataEvent]

/-- `ReadByte` (R99, R100): it completes from every state of the lines (R154). -/
theorem readByte_run (c : Config) (last : Bool) (l : Lines) :
    readByte c last l = .ok (l.byteAt 0)
      (l.moved c (released c) (held c) 8 (readByteEvents last (l.answersFrom 0 8))) := by
  unfold readByte
  rw [bind_of_ok (setHigh_run .sda), bind_of_ok (receiveBits_run 7 0 _ (by simp [maskedPinWrite, Lines.setPin, Lines.emit]))]
  rw [bind_of_ok (sendAck_run last (by simp [Lines.moved]))]
  simp only [Lines.answersFrom, answer_maskedPinWrite, Lines.byteAt, byteOfBits]
  simp [pure, EStateM.pure, Lines.moved, readByteEvents, maskedPinWrite, Lines.setPin, Lines.emit]

/-- `Start` (R90). -/
theorem start_run {ab : Byte} (hd : pushesHigh c l.sda = false) (hk : pushesHigh c l.scl = false) :
    start c ab l = .ok (!l.answer 0) (l.moved c (held c) (held c) 1 (startEvents ab (l.answer 0))) := by
  unfold start
  rw [bind_of_ok (setLow_ok (p := .sda) hd)]
  rw [bind_of_ok (delay_run .t _)]
  rw [bind_of_ok (setLow_ok (p := .scl) (by simpa [maskedPinWrite, Lines.setPin, Lines.emit, Lines.pin] using hk))]
  rw [writeByte_run (by intro _; simpa [maskedPinWrite, Lines.setPin, Lines.emit, Lines.pin] using pushesHigh_lowered hd)]
  simp [Lines.moved, maskedPinWrite, Lines.setPin, Lines.emit, Lines.answer, startEvents]

/-- A START that faults at its first `SetLow` has no effect (R154). -/
theorem start_error_sda {ab : Byte} (hd : pushesHigh c l.sda = true) : start c ab l = .error .sda l :=
  bind_of_error (setLow_error hd)

/-- A START that faults at its second `SetLow` leaves SDA pulled low (R154). -/
theorem start_error_scl {ab : Byte} (hd : pushesHigh c l.sda = false) (hk : pushesHigh c l.scl = true) :
    start c ab l = .error .scl
      { l with sda := lowered c l.sda, ie := ieAtExit c l.ie, events := l.events ++ [.low .sda, .wait .t] } := by
  unfold start
  rw [bind_of_ok (setLow_ok (p := .sda) hd)]
  rw [bind_of_ok (delay_run .t _)]
  rw [bind_of_error (setLow_error (p := .scl) (by simpa [maskedPinWrite, Lines.setPin, Lines.emit, Lines.pin] using hk))]
  simp [maskedPinWrite, Lines.setPin, Lines.emit, Lines.pin]

/-- `RepStart` (R92): it completes from every state of the lines (R154). -/
theorem repStart_run (c : Config) (ab : Byte) (l : Lines) :
    repStart c ab l = .ok (!l.answer 0) (l.moved c (held c) (held c) 1 (repStartEvents ab (l.answer 0))) := by
  unfold repStart
  rw [bind_of_ok (setHigh_run .sda), bind_of_ok (setHigh_run .scl)]
  rw [bind_of_ok (delay_run .t _)]
  rw [start_run (by simp [maskedPinWrite, Lines.setPin, Lines.emit]) (by simp [maskedPinWrite, Lines.setPin, Lines.emit])]
  simp [Lines.moved, maskedPinWrite, Lines.setPin, Lines.emit, Lines.answer, repStartEvents]

/-- `Stop` (R94). -/
theorem stop_run (hd : pushesHigh c l.sda = false) :
    stop c l = .ok () (l.moved c (released c) (released c) 0 stopEvents) := by
  unfold stop
  rw [bind_of_ok (setLow_ok (p := .sda) hd)]
  simp [bind, EStateM.bind, setHigh, delay, maskedPinWrite, Lines.setPin, Lines.emit, Lines.moved, stopEvents]

theorem stop_error (hd : pushesHigh c l.sda = true) : stop c l = .error .sda l :=
  bind_of_error (setLow_error hd)

@[simp] theorem answer_moved (d k : PinState) (n : Nat) (es : List Event) (i : Nat) :
    (l.moved c d k n es).answer i = l.answer (n + i) := by
  simp [Lines.answer, Lines.moved, Nat.add_assoc]

@[simp] theorem moved_moved (d k d' k' : PinState) (n m : Nat) (es fs : List Event) :
    (l.moved c d k n es).moved c d' k' m fs = l.moved c d' k' (n + m) (es ++ fs) := by
  simp [Lines.moved, Nat.add_assoc]

/-- An attempt of `StartWait` that is refused, and its STOP (R93). -/
theorem startAttempts_refused {ab : Byte} (n : Nat) (hd : pushesHigh c l.sda = false) (hk : pushesHigh c l.scl = false)
    (h : l.answer 0 = true) :
    startAttempts c ab (n + 1) l =
      startAttempts c ab n (l.moved c (released c) (released c) 1 (startEvents ab true ++ stopEvents)) := by
  simp only [startAttempts]
  rw [bind_of_ok (start_run hd hk)]
  simp only [h, Bool.not_true, Bool.false_eq_true, if_false]
  rw [bind_of_ok (stop_run (by simp [Lines.moved]))]
  simp

/-- `StartWait` with its first `m` attempts refused. -/
theorem startAttempts_skip {ab : Byte} (m n : Nat) (l : Lines) (hd : pushesHigh c l.sda = false)
    (hk : pushesHigh c l.scl = false) (h : ∀ j < m, l.answer j = true) :
    startAttempts c ab (m + n) l =
      startAttempts c ab n (if m = 0 then l else l.moved c (released c) (released c) m (refusedAttempts ab m)) := by
  induction m generalizing l with
  | zero => simp
  | succ m ih =>
    have e : m + 1 + n = (m + n) + 1 := by omega
    rw [e, startAttempts_refused _ hd hk (h 0 (by omega)), ih _ (by simp [Lines.moved]) (by simp [Lines.moved])
      (by intro j hj; rw [answer_moved]; exact h _ (by omega))]
    by_cases hm : m = 0
    · subst hm; simp [refusedAttempts]
    · simp [hm, refusedAttempts, Nat.add_comm]

/-- `StartWait` acknowledged at attempt `m + 1` (R93). -/
theorem startAttempts_success {ab : Byte} (m n : Nat) (l : Lines) (hd : pushesHigh c l.sda = false)
    (hk : pushesHigh c l.scl = false) (h : ∀ j < m, l.answer j = true) (ha : l.answer m = false) (hn : m < n) :
    startAttempts c ab n l = .ok true
      (l.moved c (held c) (held c) (m + 1) (refusedAttempts ab m ++ startEvents ab false)) := by
  obtain ⟨r, rfl⟩ : ∃ r, n = m + (r + 1) := ⟨n - m - 1, by omega⟩
  rw [startAttempts_skip _ _ _ hd hk h]
  by_cases hm : m = 0
  · subst hm
    simp only [startAttempts, if_true]
    rw [bind_of_ok (start_run hd hk)]
    simp [ha, refusedAttempts, pure, EStateM.pure]
  · simp only [startAttempts, if_neg hm]
    rw [bind_of_ok (start_run (by simp [Lines.moved]) (by simp [Lines.moved]))]
    simp [ha, pure, EStateM.pure]

/-- `StartWait` with every attempt refused (R93). -/
theorem startAttempts_failure {ab : Byte} (n : Nat) (l : Lines) (hd : pushesHigh c l.sda = false)
    (hk : pushesHigh c l.scl = false) (h : ∀ j < n, l.answer j = true) (hn : 1 ≤ n) :
    startAttempts c ab n l = .ok false
      (l.moved c (released c) (released c) n (refusedAttempts ab n)) := by
  have := startAttempts_skip (ab := ab) n 0 l hd hk h
  rw [Nat.add_zero, if_neg (by omega)] at this
  rw [this]; rfl

/-- `StartWait` from lines where a `SetLow` faults: its first attempt does. -/
theorem startAttempts_error {ab : Byte} (n : Nat) (h : pushesHigh c l.sda = true ∨ pushesHigh c l.scl = true) :
    ∃ p t, startAttempts c ab (n + 1) l = .error p t := by
  simp only [startAttempts]
  cases hd : pushesHigh c l.sda with
  | true => exact ⟨_, _, bind_of_error (start_error_sda hd)⟩
  | false => exact ⟨_, _, bind_of_error (start_error_scl hd (h.resolve_left (by simp [hd])))⟩

end Sys2Proof.Machine
end

