-- ==== Sys2Proof/Laws/PerInstr.lean ====
section
/-! SUPPORT. Statements made for every command, one lemma per constructor. EncodesToRow: the word of a command has the
opcode byte of a row of the opcode map (30_encoding.md R63) and a 0 in every bit that row's format reserves (R60, R65). -/

namespace Sys2Proof.Laws.EncodesToRow

/-- The word of `i` is a well-formed word of the row with its opcode. -/
def Statement (i : Instr) : Prop :=
  ∃ row, rowOf (opcodeOf (encode i)) = some row ∧ encode i &&& row.fmt.mask = row.matchWord

/-- A word whose opcode byte is that of a row and whose reserved bits are 0 is one of the row. -/
theorem of_row {i : Instr} {opc : Byte} {x : BitVec 56} {row : OpRow} (hw : encode i = opc ++ x)
    (hr : rowOf opc = some row) (hm : encode i &&& row.fmt.mask = row.matchWord) : Statement i :=
  ⟨row, by rw [hw, opcodeOf_append]; exact hr, hm⟩

theorem setLow (p : Pin) : Statement (.setLow p) :=
  of_row (opc := 0x01) rfl rfl (mask_encodeBit _ _)

theorem setHigh (p : Pin) : Statement (.setHigh p) :=
  of_row (opc := 0x02) rfl rfl (mask_encodeBit _ _)

theorem start (ab : Byte) : Statement (.start ab) :=
  of_row (opc := 0x10) rfl rfl (mask_encodeB _ _)

theorem repStart (ab : Byte) : Statement (.repStart ab) :=
  of_row (opc := 0x11) rfl rfl (mask_encodeB _ _)

theorem startWait (ab : Byte) : Statement (.startWait ab) :=
  of_row (opc := 0x12) rfl rfl (mask_encodeB _ _)

theorem stop : Statement .stop :=
  of_row (opc := 0x13) rfl rfl (mask_encodeN _)

theorem writeByte (v : Byte) : Statement (.writeByte v) :=
  of_row (opc := 0x14) rfl rfl (mask_encodeB _ _)

theorem readByte (last : Bool) : Statement (.readByte last) :=
  of_row (opc := 0x15) rfl rfl (mask_encodeBit _ _)

theorem busBegin : Statement .busBegin :=
  of_row (opc := 0x20) rfl rfl (mask_encodeN _)

theorem busEnd : Statement .busEnd :=
  of_row (opc := 0x21) rfl rfl (mask_encodeN _)

theorem beginTx (a7 : BitVec 7) : Statement (.beginTx a7) :=
  of_row (opc := 0x22) rfl rfl (mask_encodeA _ _)

theorem endTx (sendStop : Bool) : Statement (.endTx sendStop) :=
  of_row (opc := 0x23) rfl rfl (mask_encodeBit _ _)

theorem write (b : Byte) : Statement (.write b) :=
  of_row (opc := 0x24) rfl rfl (mask_encodeB _ _)

theorem writeBuf (haddr : BitVec 32) (len : BitVec 16) : Statement (.writeBuf haddr len) :=
  of_row (opc := 0x25) rfl rfl (mask_encodeM _ _ _)

theorem requestFrom (a7 : BitVec 7) (qty : Byte) (iaddr : BitVec 24) (isize : BitVec 2) (sendStop : Bool) : Statement (.requestFrom a7 qty iaddr isize sendStop) :=
  of_row (opc := 0x26) rfl rfl (mask_encodeR _ _ _ _ _ _)

theorem available : Statement .available :=
  of_row (opc := 0x27) rfl rfl (mask_encodeN _)

theorem read : Statement .read :=
  of_row (opc := 0x28) rfl rfl (mask_encodeN _)

theorem peek : Statement .peek :=
  of_row (opc := 0x29) rfl rfl (mask_encodeN _)

theorem crc8 (haddr : BitVec 32) (len : BitVec 16) : Statement (.crc8 haddr len) :=
  of_row (opc := 0x30) rfl rfl (mask_encodeM _ _ _)

theorem crcCheck (haddr : BitVec 32) (len : BitVec 16) : Statement (.crcCheck haddr len) :=
  of_row (opc := 0x31) rfl rfl (mask_encodeM _ _ _)

end Sys2Proof.Laws.EncodesToRow
end

