-- ==== Sys2Proof/Laws/State.lean ====
section
/-! SUPPORT. One lemma per field per update of the state and of the lines, each true by rfl, so that no later proof unfolds a
record update. -/

namespace Sys2Proof.Machine

variable (s : State) (l : Lines)

@[simp] theorem withErr_cfg (e : Byte) : (s.withErr e).cfg = s.cfg := rfl
@[simp] theorem withErr_err (e : Byte) : (s.withErr e).err = e := rfl
@[simp] theorem withErr_txing (e : Byte) : (s.withErr e).txing = s.txing := rfl
@[simp] theorem withErr_rxbuf (e : Byte) : (s.withErr e).rxbuf = s.rxbuf := rfl
@[simp] theorem withErr_rxpos (e : Byte) : (s.withErr e).rxpos = s.rxpos := rfl
@[simp] theorem withErr_rxlen (e : Byte) : (s.withErr e).rxlen = s.rxlen := rfl
@[simp] theorem withErr_lines (e : Byte) : (s.withErr e).lines = s.lines := rfl
@[simp] theorem withErr_busy (e : Byte) : (s.withErr e).busy = s.busy := rfl
@[simp] theorem withErr_fault (e : Byte) : (s.withErr e).fault = s.fault := rfl
@[simp] theorem withErr_hmem (e : Byte) : (s.withErr e).hmem = s.hmem := rfl
@[simp] theorem withErr_res (e : Byte) : (s.withErr e).res = s.res := rfl
@[simp] theorem withErr_script (e : Byte) : (s.withErr e).script = s.script := rfl
@[simp] theorem withErr_index (e : Byte) : (s.withErr e).index = s.index := rfl

@[simp] theorem withTxing_cfg (v : Bool) : (s.withTxing v).cfg = s.cfg := rfl
@[simp] theorem withTxing_err (v : Bool) : (s.withTxing v).err = s.err := rfl
@[simp] theorem withTxing_txing (v : Bool) : (s.withTxing v).txing = v := rfl
@[simp] theorem withTxing_rxbuf (v : Bool) : (s.withTxing v).rxbuf = s.rxbuf := rfl
@[simp] theorem withTxing_rxpos (v : Bool) : (s.withTxing v).rxpos = s.rxpos := rfl
@[simp] theorem withTxing_rxlen (v : Bool) : (s.withTxing v).rxlen = s.rxlen := rfl
@[simp] theorem withTxing_lines (v : Bool) : (s.withTxing v).lines = s.lines := rfl
@[simp] theorem withTxing_busy (v : Bool) : (s.withTxing v).busy = s.busy := rfl
@[simp] theorem withTxing_fault (v : Bool) : (s.withTxing v).fault = s.fault := rfl
@[simp] theorem withTxing_hmem (v : Bool) : (s.withTxing v).hmem = s.hmem := rfl
@[simp] theorem withTxing_res (v : Bool) : (s.withTxing v).res = s.res := rfl
@[simp] theorem withTxing_script (v : Bool) : (s.withTxing v).script = s.script := rfl
@[simp] theorem withTxing_index (v : Bool) : (s.withTxing v).index = s.index := rfl

@[simp] theorem withCursor_cfg (p n : Byte) : (s.withCursor p n).cfg = s.cfg := rfl
@[simp] theorem withCursor_err (p n : Byte) : (s.withCursor p n).err = s.err := rfl
@[simp] theorem withCursor_txing (p n : Byte) : (s.withCursor p n).txing = s.txing := rfl
@[simp] theorem withCursor_rxbuf (p n : Byte) : (s.withCursor p n).rxbuf = s.rxbuf := rfl
@[simp] theorem withCursor_rxpos (p n : Byte) : (s.withCursor p n).rxpos = p := rfl
@[simp] theorem withCursor_rxlen (p n : Byte) : (s.withCursor p n).rxlen = n := rfl
@[simp] theorem withCursor_lines (p n : Byte) : (s.withCursor p n).lines = s.lines := rfl
@[simp] theorem withCursor_busy (p n : Byte) : (s.withCursor p n).busy = s.busy := rfl
@[simp] theorem withCursor_fault (p n : Byte) : (s.withCursor p n).fault = s.fault := rfl
@[simp] theorem withCursor_hmem (p n : Byte) : (s.withCursor p n).hmem = s.hmem := rfl
@[simp] theorem withCursor_res (p n : Byte) : (s.withCursor p n).res = s.res := rfl
@[simp] theorem withCursor_script (p n : Byte) : (s.withCursor p n).script = s.script := rfl
@[simp] theorem withCursor_index (p n : Byte) : (s.withCursor p n).index = s.index := rfl

@[simp] theorem withRx_cfg (i : Nat) (b : Byte) : (s.withRx i b).cfg = s.cfg := rfl
@[simp] theorem withRx_err (i : Nat) (b : Byte) : (s.withRx i b).err = s.err := rfl
@[simp] theorem withRx_txing (i : Nat) (b : Byte) : (s.withRx i b).txing = s.txing := rfl
@[simp] theorem withRx_rxbuf (i : Nat) (b : Byte) : (s.withRx i b).rxbuf = s.rxbuf.set i b := rfl
@[simp] theorem withRx_rxpos (i : Nat) (b : Byte) : (s.withRx i b).rxpos = s.rxpos := rfl
@[simp] theorem withRx_rxlen (i : Nat) (b : Byte) : (s.withRx i b).rxlen = s.rxlen := rfl
@[simp] theorem withRx_lines (i : Nat) (b : Byte) : (s.withRx i b).lines = s.lines := rfl
@[simp] theorem withRx_busy (i : Nat) (b : Byte) : (s.withRx i b).busy = s.busy := rfl
@[simp] theorem withRx_fault (i : Nat) (b : Byte) : (s.withRx i b).fault = s.fault := rfl
@[simp] theorem withRx_hmem (i : Nat) (b : Byte) : (s.withRx i b).hmem = s.hmem := rfl
@[simp] theorem withRx_res (i : Nat) (b : Byte) : (s.withRx i b).res = s.res := rfl
@[simp] theorem withRx_script (i : Nat) (b : Byte) : (s.withRx i b).script = s.script := rfl
@[simp] theorem withRx_index (i : Nat) (b : Byte) : (s.withRx i b).index = s.index := rfl

@[simp] theorem begun_cfg : (s.begun).cfg = s.cfg := rfl
@[simp] theorem begun_err : (s.begun).err = s.err := rfl
@[simp] theorem begun_txing : (s.begun).txing = s.txing := rfl
@[simp] theorem begun_rxbuf : (s.begun).rxbuf = s.rxbuf := rfl
@[simp] theorem begun_rxpos : (s.begun).rxpos = s.rxpos := rfl
@[simp] theorem begun_rxlen : (s.begun).rxlen = s.rxlen := rfl
@[simp] theorem begun_lines : (s.begun).lines = { s.lines with events := [] } := rfl
@[simp] theorem begun_busy : (s.begun).busy = true := rfl
@[simp] theorem begun_fault : (s.begun).fault = s.fault := rfl
@[simp] theorem begun_hmem : (s.begun).hmem = s.hmem := rfl
@[simp] theorem begun_res : (s.begun).res = s.res := rfl
@[simp] theorem begun_script : (s.begun).script = s.script := rfl
@[simp] theorem begun_index : (s.begun).index = s.index := rfl

@[simp] theorem ended_cfg (r : Result) : (s.ended r).cfg = s.cfg := rfl
@[simp] theorem ended_err (r : Result) : (s.ended r).err = s.err := rfl
@[simp] theorem ended_txing (r : Result) : (s.ended r).txing = s.txing := rfl
@[simp] theorem ended_rxbuf (r : Result) : (s.ended r).rxbuf = s.rxbuf := rfl
@[simp] theorem ended_rxpos (r : Result) : (s.ended r).rxpos = s.rxpos := rfl
@[simp] theorem ended_rxlen (r : Result) : (s.ended r).rxlen = s.rxlen := rfl
@[simp] theorem ended_lines (r : Result) : (s.ended r).lines = s.lines := rfl
@[simp] theorem ended_busy (r : Result) : (s.ended r).busy = false := rfl
@[simp] theorem ended_fault (r : Result) : (s.ended r).fault = s.fault := rfl
@[simp] theorem ended_hmem (r : Result) : (s.ended r).hmem = s.hmem := rfl
@[simp] theorem ended_res (r : Result) : (s.ended r).res = r := rfl
@[simp] theorem ended_script (r : Result) : (s.ended r).script = s.script := rfl
@[simp] theorem ended_index (r : Result) : (s.ended r).index = s.index := rfl

@[simp] theorem raised_cfg (k : FaultCode) : (s.raised k).cfg = s.cfg := rfl
@[simp] theorem raised_err (k : FaultCode) : (s.raised k).err = s.err := rfl
@[simp] theorem raised_txing (k : FaultCode) : (s.raised k).txing = s.txing := rfl
@[simp] theorem raised_rxbuf (k : FaultCode) : (s.raised k).rxbuf = s.rxbuf := rfl
@[simp] theorem raised_rxpos (k : FaultCode) : (s.raised k).rxpos = s.rxpos := rfl
@[simp] theorem raised_rxlen (k : FaultCode) : (s.raised k).rxlen = s.rxlen := rfl
@[simp] theorem raised_lines (k : FaultCode) : (s.raised k).lines = s.lines := rfl
@[simp] theorem raised_busy (k : FaultCode) : (s.raised k).busy = false := rfl
@[simp] theorem raised_fault (k : FaultCode) : (s.raised k).fault = some k := rfl
@[simp] theorem raised_hmem (k : FaultCode) : (s.raised k).hmem = s.hmem := rfl
@[simp] theorem raised_res (k : FaultCode) : (s.raised k).res = s.res := rfl
@[simp] theorem raised_script (k : FaultCode) : (s.raised k).script = s.script := rfl
@[simp] theorem raised_index (k : FaultCode) : (s.raised k).index = s.index := rfl

@[simp] theorem raisedAtOnce_cfg (k : FaultCode) : (s.raisedAtOnce k).cfg = s.cfg := rfl
@[simp] theorem raisedAtOnce_err (k : FaultCode) : (s.raisedAtOnce k).err = s.err := rfl
@[simp] theorem raisedAtOnce_txing (k : FaultCode) : (s.raisedAtOnce k).txing = s.txing := rfl
@[simp] theorem raisedAtOnce_rxbuf (k : FaultCode) : (s.raisedAtOnce k).rxbuf = s.rxbuf := rfl
@[simp] theorem raisedAtOnce_rxpos (k : FaultCode) : (s.raisedAtOnce k).rxpos = s.rxpos := rfl
@[simp] theorem raisedAtOnce_rxlen (k : FaultCode) : (s.raisedAtOnce k).rxlen = s.rxlen := rfl
@[simp] theorem raisedAtOnce_lines (k : FaultCode) : (s.raisedAtOnce k).lines = { s.lines with events := [] } := rfl
@[simp] theorem raisedAtOnce_busy (k : FaultCode) : (s.raisedAtOnce k).busy = false := rfl
@[simp] theorem raisedAtOnce_fault (k : FaultCode) : (s.raisedAtOnce k).fault = some k := rfl
@[simp] theorem raisedAtOnce_hmem (k : FaultCode) : (s.raisedAtOnce k).hmem = s.hmem := rfl
@[simp] theorem raisedAtOnce_res (k : FaultCode) : (s.raisedAtOnce k).res = s.res := rfl
@[simp] theorem raisedAtOnce_script (k : FaultCode) : (s.raisedAtOnce k).script = s.script := rfl
@[simp] theorem raisedAtOnce_index (k : FaultCode) : (s.raisedAtOnce k).index = s.index := rfl

@[simp] theorem movedOn_cfg : (s.movedOn).cfg = s.cfg := rfl
@[simp] theorem movedOn_err : (s.movedOn).err = s.err := rfl
@[simp] theorem movedOn_txing : (s.movedOn).txing = s.txing := rfl
@[simp] theorem movedOn_rxbuf : (s.movedOn).rxbuf = s.rxbuf := rfl
@[simp] theorem movedOn_rxpos : (s.movedOn).rxpos = s.rxpos := rfl
@[simp] theorem movedOn_rxlen : (s.movedOn).rxlen = s.rxlen := rfl
@[simp] theorem movedOn_lines : (s.movedOn).lines = s.lines := rfl
@[simp] theorem movedOn_busy : (s.movedOn).busy = s.busy := rfl
@[simp] theorem movedOn_fault : (s.movedOn).fault = s.fault := rfl
@[simp] theorem movedOn_hmem : (s.movedOn).hmem = s.hmem := rfl
@[simp] theorem movedOn_res : (s.movedOn).res = s.res := rfl
@[simp] theorem movedOn_script : (s.movedOn).script = s.script.tail := rfl
@[simp] theorem movedOn_index : (s.movedOn).index = s.index := rfl

@[simp] theorem commandDone_cfg : (s.commandDone).cfg = s.cfg := rfl
@[simp] theorem commandDone_err : (s.commandDone).err = s.err := rfl
@[simp] theorem commandDone_txing : (s.commandDone).txing = s.txing := rfl
@[simp] theorem commandDone_rxbuf : (s.commandDone).rxbuf = s.rxbuf := rfl
@[simp] theorem commandDone_rxpos : (s.commandDone).rxpos = s.rxpos := rfl
@[simp] theorem commandDone_rxlen : (s.commandDone).rxlen = s.rxlen := rfl
@[simp] theorem commandDone_lines : (s.commandDone).lines = s.lines := rfl
@[simp] theorem commandDone_busy : (s.commandDone).busy = s.busy := rfl
@[simp] theorem commandDone_fault : (s.commandDone).fault = s.fault := rfl
@[simp] theorem commandDone_hmem : (s.commandDone).hmem = s.hmem := rfl
@[simp] theorem commandDone_res : (s.commandDone).res = s.res := rfl
@[simp] theorem commandDone_script : (s.commandDone).script = s.script.tail := rfl
@[simp] theorem commandDone_index : (s.commandDone).index = s.index + 1 := rfl

@[simp] theorem withCommand_cfg (w : Word) : (s.withCommand w).cfg = s.cfg := rfl
@[simp] theorem withCommand_err (w : Word) : (s.withCommand w).err = s.err := rfl
@[simp] theorem withCommand_txing (w : Word) : (s.withCommand w).txing = s.txing := rfl
@[simp] theorem withCommand_rxbuf (w : Word) : (s.withCommand w).rxbuf = s.rxbuf := rfl
@[simp] theorem withCommand_rxpos (w : Word) : (s.withCommand w).rxpos = s.rxpos := rfl
@[simp] theorem withCommand_rxlen (w : Word) : (s.withCommand w).rxlen = s.rxlen := rfl
@[simp] theorem withCommand_lines (w : Word) : (s.withCommand w).lines = s.lines := rfl
@[simp] theorem withCommand_busy (w : Word) : (s.withCommand w).busy = s.busy := rfl
@[simp] theorem withCommand_fault (w : Word) : (s.withCommand w).fault = s.fault := rfl
@[simp] theorem withCommand_hmem (w : Word) : (s.withCommand w).hmem = s.hmem := rfl
@[simp] theorem withCommand_res (w : Word) : (s.withCommand w).res = s.res := rfl
@[simp] theorem withCommand_script (w : Word) : (s.withCommand w).script = .command w :: s.script := rfl
@[simp] theorem withCommand_index (w : Word) : (s.withCommand w).index = s.index := rfl

@[simp] theorem answered_cfg (r : Result) : (s.answered r).cfg = s.cfg := rfl
@[simp] theorem answered_err (r : Result) : (s.answered r).err = s.err := rfl
@[simp] theorem answered_txing (r : Result) : (s.answered r).txing = s.txing := rfl
@[simp] theorem answered_rxbuf (r : Result) : (s.answered r).rxbuf = s.rxbuf := rfl
@[simp] theorem answered_rxpos (r : Result) : (s.answered r).rxpos = s.rxpos := rfl
@[simp] theorem answered_rxlen (r : Result) : (s.answered r).rxlen = s.rxlen := rfl
@[simp] theorem answered_lines (r : Result) : (s.answered r).lines = { s.lines with events := [] } := rfl
@[simp] theorem answered_busy (r : Result) : (s.answered r).busy = false := rfl
@[simp] theorem answered_fault (r : Result) : (s.answered r).fault = s.fault := rfl
@[simp] theorem answered_hmem (r : Result) : (s.answered r).hmem = s.hmem := rfl
@[simp] theorem answered_res (r : Result) : (s.answered r).res = r := rfl
@[simp] theorem answered_script (r : Result) : (s.answered r).script = s.script := rfl
@[simp] theorem answered_index (r : Result) : (s.answered r).index = s.index := rfl

@[simp] theorem emit_sda (e : Event) : (l.emit e).sda = l.sda := rfl
@[simp] theorem emit_scl (e : Event) : (l.emit e).scl = l.scl := rfl
@[simp] theorem emit_ie (e : Event) : (l.emit e).ie = l.ie := rfl
@[simp] theorem emit_answers (e : Event) : (l.emit e).answers = l.answers := rfl
@[simp] theorem emit_taken (e : Event) : (l.emit e).taken = l.taken := rfl
@[simp] theorem emit_events (e : Event) : (l.emit e).events = l.events ++ [e] := rfl

@[simp] theorem skip_sda (n : Nat) : (l.skip n).sda = l.sda := rfl
@[simp] theorem skip_scl (n : Nat) : (l.skip n).scl = l.scl := rfl
@[simp] theorem skip_ie (n : Nat) : (l.skip n).ie = l.ie := rfl
@[simp] theorem skip_answers (n : Nat) : (l.skip n).answers = l.answers.drop n := rfl
@[simp] theorem skip_taken (n : Nat) : (l.skip n).taken = l.taken + n := rfl
@[simp] theorem skip_events (n : Nat) : (l.skip n).events = l.events := rfl

@[simp] theorem moved_sda (c : Config) (d k : PinState) (n : Nat) (es : List Event) : (l.moved c d k n es).sda = d := rfl
@[simp] theorem moved_scl (c : Config) (d k : PinState) (n : Nat) (es : List Event) : (l.moved c d k n es).scl = k := rfl
@[simp] theorem moved_ie (c : Config) (d k : PinState) (n : Nat) (es : List Event) : (l.moved c d k n es).ie = ieAtExit c l.ie := rfl
@[simp] theorem moved_answers (c : Config) (d k : PinState) (n : Nat) (es : List Event) : (l.moved c d k n es).answers = l.answers.drop n := rfl
@[simp] theorem moved_taken (c : Config) (d k : PinState) (n : Nat) (es : List Event) : (l.moved c d k n es).taken = l.taken + n := rfl
@[simp] theorem moved_events (c : Config) (d k : PinState) (n : Nat) (es : List Event) : (l.moved c d k n es).events = l.events ++ es := rfl

end Sys2Proof.Machine
end

