-- ==== Sys2Proof/Laws/Transaction.lean ====
section
/-! SUPPORT. What the transaction layer's sub-operations do to the state (42_transaction.md): one equation each. -/

namespace Sys2Proof.Machine

variable {α : Type}

theorem onLines_ok {f : Config → Micro α} {s : State} {a : α} {l : Lines} (h : f s.cfg s.lines = .ok a l) :
    onLines f s = .ok a { s with lines := l } := by
  simp [onLines, h]

theorem onLines_error {f : Config → Micro α} {s : State} {p : Pin} {l : Lines} (h : f s.cfg s.lines = .error p l) :
    onLines f s = .error p { s with lines := l } := by
  simp [onLines, h]

theorem modify_run (f : State → State) (s : State) : (modify f : Cmd PUnit) s = .ok ⟨⟩ (f s) := rfl

theorem get_run (s : State) : (get : Cmd State) s = .ok s s := rfl

/-- No `SetLow` of the engine's START can fault in this state. -/
abbrev Lowerable (s : State) : Prop :=
  pushesHigh s.cfg s.lines.sda = false ∧ pushesHigh s.cfg s.lines.scl = false

theorem lowerable_iff (s : State) : canLowerBoth s = true ↔ Lowerable s := by
  simp [canLowerBoth, canLower, Lowerable]

/-- An address phase (R109, R119). -/
theorem addressPhase_run {ab : Byte} {s : State} (h : s.txing = true ∨ Lowerable s) :
    addressPhase ab s = .ok (!s.lines.answer 0)
      { s with lines := s.lines.moved s.cfg (held s.cfg) (held s.cfg) 1 (addressEvents s.txing ab (s.lines.answer 0)) } := by
  unfold addressPhase
  rw [bind_of_ok (get_run s)]
  cases ht : s.txing with
  | true =>
    have := onLines_ok (f := fun c => repStart c ab) (repStart_run s.cfg ab s.lines)
    rw [ht] at this
    simpa [addressEvents] using this
  | false =>
    obtain ⟨hd, hk⟩ := h.resolve_left (by simp [ht])
    have := onLines_ok (f := fun c => start c ab) (start_run (ab := ab) hd hk)
    rw [ht] at this
    simpa [addressEvents] using this

/-- `BeginTx` (R109). -/
theorem beginTx_run {a7 : BitVec 7} {s : State} (h : s.txing = true ∨ Lowerable s) :
    beginTx a7 s = .ok ⟨⟩
      { s with
        err := if s.lines.answer 0 then errAddressNak else s.err
        txing := true
        lines := s.lines.moved s.cfg (held s.cfg) (held s.cfg) 1
          (addressEvents s.txing (addressByte a7 false) (s.lines.answer 0)) } := by
  unfold beginTx
  rw [bind_of_ok (addressPhase_run h), modify_run]
  cases s.lines.answer 0 <;> simp [State.withErr, State.withTxing, errAfterAddress]

/-- `Stop()` and `TXING <- 0`. -/
theorem closeBus_run {s : State} (h : pushesHigh s.cfg s.lines.sda = false) :
    closeBus s = .ok ⟨⟩
      { s with txing := false, lines := s.lines.moved s.cfg (released s.cfg) (released s.cfg) 0 stopEvents } := by
  unfold closeBus
  rw [bind_of_ok (onLines_ok (stop_run h)), modify_run]
  rfl

/-- `EndTx(0)` (R112, R114). -/
theorem endTx_open (s : State) : endTx false s = .ok s.err { s with err := errNone } := rfl

/-- `EndTx(1)` (R112). -/
theorem endTx_close {s : State} (h : pushesHigh s.cfg s.lines.sda = false) :
    endTx true s = .ok s.err
      { s with
        err := errNone
        txing := false
        lines := s.lines.moved s.cfg (released s.cfg) (released s.cfg) 0 stopEvents } := by
  unfold endTx
  rw [bind_of_ok (get_run s)]
  simp only [if_true]
  rw [bind_of_ok (closeBus_run h), bind_of_ok (modify_run _ _)]
  rfl

/-- `Write` (R115). -/
theorem write_run {b : Byte} {s : State} (h : b.getLsbD 7 = false → pushesHigh s.cfg s.lines.sda = false) :
    write b s = .ok (!s.lines.answer 0)
      { s with
        err := if s.lines.answer 0 then errWriteNak else s.err
        lines := s.lines.moved s.cfg (held s.cfg) (held s.cfg) 1 (writeByteEvents b (s.lines.answer 0)) } := by
  unfold write
  rw [bind_of_ok (onLines_ok (writeByte_run h)), bind_of_ok (modify_run _ _)]
  cases s.lines.answer 0 <;> simp [State.withErr, errAfterData, pure, EStateM.pure]

theorem answersFrom_succ (l : Lines) (k n : Nat) :
    l.answersFrom k (n + 1) = l.answer k :: l.answersFrom (k + 1) n := by
  simp only [Lines.answersFrom]
  rw [List.range_succ_eq_map]
  simp only [List.map_cons, List.map_map, Nat.add_zero, List.cons.injEq, true_and]
  refine List.map_congr_left fun i _ => ?_
  have : k + (i + 1) = k + 1 + i := by omega
  simp [this]

theorem answersFrom_moved {c : Config} {l : Lines} (d k : PinState) (n : Nat) (es : List Event) (i m : Nat) :
    (l.moved c d k n es).answersFrom i m = l.answersFrom (n + i) m := by
  simp [Lines.answersFrom, Nat.add_assoc]

theorem byteAt_moved {c : Config} {l : Lines} (d k : PinState) (n : Nat) (es : List Event) (i : Nat) :
    (l.moved c d k n es).byteAt i = l.byteAt (n + i) := by
  simp [Lines.byteAt, answersFrom_moved]

/-- The WRITEs of the internal-address phase, from lines that hold SDA and SCL low (R119, R120). -/
theorem writeEach_run (bs : List Byte) (s : State) (l : Lines) (n : Nat) (es : List Event)
    (hl : s.lines = l.moved s.cfg (held s.cfg) (held s.cfg) n es) :
    writeEach bs s = .ok ⟨⟩
      { s with
        err := errAfterSamples (l.answersFrom n bs.length) s.err
        lines := l.moved s.cfg (held s.cfg) (held s.cfg) (n + bs.length)
          (es ++ writeEachEvents bs (l.answersFrom n bs.length)) } := by
  induction bs generalizing s n es with
  | nil => simp [writeEach, pure, EStateM.pure, errAfterSamples, Lines.answersFrom, writeEachEvents, hl.symm]
  | cons b bs ih =>
    simp only [writeEach]
    rw [bind_of_ok (write_run (by intro _; simp [hl]))]
    rw [ih _ (n + 1) (es ++ writeByteEvents b (l.answer n)) (by simp [hl])]
    have ha : s.lines.answer 0 = l.answer n := by simp [hl]
    simp only [List.length_cons, answersFrom_succ, writeEachEvents, ha]
    congr 1
    have hn : n + 1 + bs.length = n + (bs.length + 1) := by omega
    cases l.answer n <;> simp [errAfterSamples, hn]

theorem addressByte_write (a7 : BitVec 7) : addressByte a7 false = a7 ++ 0#1 := rfl

theorem addressByte_read (a7 : BitVec 7) : addressByte a7 true = a7 ++ 1#1 := rfl

/-- The internal-address bytes are `IADDR[8k+7 : 8k]` for k from ISIZE - 1 down to 0 (R119). -/
theorem iaddrBytes_eq (iaddr : BitVec 24) (n : Nat) :
    iaddrBytes iaddr n = (List.range n).reverse.map (fun k => iaddr.extractLsb' (8 * k) 8) := by
  induction n with
  | zero => rfl
  | succ n ih => simp [iaddrBytes, ih, List.range_succ, iaddrByte]

theorem length_iaddrBytes (iaddr : BitVec 24) (n : Nat) : (iaddrBytes iaddr n).length = n := by
  induction n with
  | zero => rfl
  | succ n ih => simp [iaddrBytes, ih]

/-- The internal-address phase with ISIZE > 0 (R119, R120). -/
theorem internalAddress_run {a7 : BitVec 7} {iaddr : BitVec 24} {n : Nat} {s : State} (hn : n ≠ 0)
    (h : s.txing = true ∨ Lowerable s) :
    internalAddress a7 iaddr n s = .ok (internalError s n)
      { s with
        err := errNone
        txing := true
        lines := s.lines.moved s.cfg (held s.cfg) (held s.cfg) (n + 1) (internalEvents s a7 iaddr n) } := by
  unfold internalAddress
  rw [if_neg hn, bind_of_ok (beginTx_run h), bind_of_ok (writeEach_run _ _ s.lines 1 _ rfl), endTx_open]
  simp [length_iaddrBytes, internalError, hn, internalEvents, Nat.add_comm]

/-- A buffer after `bs` were stored in it from index `i` on. -/
def putAt : List Byte → Nat → List Byte → List Byte
  | buf, _, []      => buf
  | buf, i, b :: bs => putAt (buf.set i b) (i + 1) bs

@[simp] theorem length_putAt (buf : List Byte) (i : Nat) (bs : List Byte) : (putAt buf i bs).length = buf.length := by
  induction bs generalizing buf i with
  | nil => rfl
  | cons b bs ih => simp [putAt, ih]

theorem getElem?_putAt_below (buf : List Byte) (i : Nat) (bs : List Byte) (k : Nat) (h : k < i) :
    (putAt buf i bs)[k]? = buf[k]? := by
  induction bs generalizing buf i with
  | nil => rfl
  | cons b bs ih => rw [putAt, ih _ _ (by omega), List.getElem?_set_ne (by omega)]

theorem getElem?_putAt_above (buf : List Byte) (i : Nat) (bs : List Byte) (k : Nat) (h : i + bs.length ≤ k) :
    (putAt buf i bs)[k]? = buf[k]? := by
  induction bs generalizing buf i with
  | nil => rfl
  | cons b bs ih =>
    simp only [List.length_cons] at h
    rw [putAt, ih _ _ (by omega), List.getElem?_set_ne (by omega)]

/-- Where the bytes fit, the buffer is what stood before, the bytes, what stood after. -/
theorem putAt_fits (buf : List Byte) (i : Nat) (bs : List Byte) (h : i + bs.length ≤ buf.length) :
    putAt buf i bs = buf.take i ++ bs ++ buf.drop (i + bs.length) := by
  induction bs generalizing buf i with
  | nil => simp [putAt]
  | cons b bs ih =>
    simp only [List.length_cons] at h
    have hlen : i < buf.length := by omega
    rw [putAt, ih _ _ (by simp; omega)]
    have h1 : (buf.set i b).take (i + 1) = buf.take i ++ [b] := by
      rw [List.take_add_one, List.take_set_of_le (Nat.le_refl i)]; simp [hlen]
    have h2 : (buf.set i b).drop (i + 1 + bs.length) = buf.drop (i + (b :: bs).length) := by
      rw [List.drop_set_of_lt (by omega)]
      congr 1; simp; omega
    rw [h1, h2]
    simp

/-- The reads of REQUEST_FROM, from lines that hold SCL low (R119, R121). -/
theorem readInto_run (m i : Nat) (s : State) (l : Lines) (d : PinState) (n : Nat) (es : List Event)
    (hl : s.lines = l.moved s.cfg d (held s.cfg) n es) :
    readInto m i s = .ok ⟨⟩
      { s with
        rxbuf := putAt s.rxbuf i ((List.range m).map (fun k => l.byteAt (n + 8 * k)))
        lines := l.moved s.cfg (if m = 0 then d else released s.cfg) (held s.cfg) (n + 8 * m)
          (es ++ readEachEvents l n m) } := by
  induction m generalizing i s n es d with
  | zero => simp [readInto, pure, EStateM.pure, readEachEvents, hl.symm, putAt]
  | succ m ih =>
    simp only [readInto]
    rw [bind_of_ok (onLines_ok (readByte_run s.cfg (m == 0) s.lines)), bind_of_ok (modify_run _ _)]
    rw [ih (i + 1) _ (released s.cfg) (n + 8) (es ++ readByteEvents (m == 0) (l.answersFrom n 8))
      (by simp [State.withRx, hl, answersFrom_moved])]
    have hb : s.lines.byteAt 0 = l.byteAt n := by rw [hl, byteAt_moved, Nat.add_zero]
    have h3 : (List.range (m + 1)).map (fun k => l.byteAt (n + 8 * k))
        = l.byteAt n :: (List.range m).map (fun k => l.byteAt (n + 8 + 8 * k)) := by
      rw [List.range_succ_eq_map]
      simp [List.map_map, Function.comp_def, Nat.mul_add, Nat.add_assoc, Nat.add_comm]
    have h4 : n + 8 + 8 * m = n + 8 * (m + 1) := by omega
    rw [h3]
    simp [State.withRx, hb, readEachEvents, h4, putAt]

/-- The end of REQUEST_FROM without a STOP. -/
theorem endRequest_open (s : State) : endRequest false s = .ok ⟨⟩ { s with txing := true } := rfl

/-- The end of REQUEST_FROM with a STOP. -/
theorem endRequest_close {s : State} (h : pushesHigh s.cfg s.lines.sda = false) :
    endRequest true s = .ok ⟨⟩
      { s with txing := false, lines := s.lines.moved s.cfg (released s.cfg) (released s.cfg) 0 stopEvents } :=
  closeBus_run h

/-- ISIZE = 0: no internal-address phase. -/
theorem internalAddress_none (a7 : BitVec 7) (iaddr : BitVec 24) (s : State) :
    internalAddress a7 iaddr 0 s = .ok errNone s := rfl

/-- The read phase of REQUEST_FROM (R119, R121). -/
theorem readPhase_run {a7 : BitVec 7} {q : Nat} {e : Byte} {sendStop : Bool} {s : State}
    (h : s.txing = true ∨ Lowerable s) :
    readPhase a7 q e sendStop s = .ok (resOfCount (availableAfter e (!s.lines.answer 0) q))
      { s with
        txing := !sendStop
        rxbuf := putAt s.rxbuf 0 ((List.range q).map (fun k => s.lines.byteAt (1 + 8 * k)))
        rxpos := 0
        rxlen := BitVec.ofNat 8 (availableAfter e (!s.lines.answer 0) q)
        lines := s.lines.moved s.cfg (requestSda s.cfg q sendStop) (requestScl s.cfg sendStop) (1 + 8 * q)
          (addressEvents s.txing (addressByte a7 true) (s.lines.answer 0) ++ readEachEvents s.lines 1 q
            ++ if sendStop then stopEvents else []) } := by
  unfold readPhase
  rw [bind_of_ok (addressPhase_run h)]
  rw [bind_of_ok (readInto_run q 0 _ s.lines (held s.cfg) 1 _ rfl)]
  dsimp only
  cases sendStop with
  | false =>
    rw [bind_of_ok (endRequest_open _), bind_of_ok (modify_run _ _), pure_run]
    cases q <;> simp [State.withCursor, requestSda, requestScl]
  | true =>
    rw [bind_of_ok (endRequest_close (by cases q <;> simp)), bind_of_ok (modify_run _ _), pure_run]
    simp [State.withCursor, requestSda, requestScl]

/-- The whole of REQUEST_FROM (R119 to R121). -/
theorem requestFrom_run {a7 : BitVec 7} {qty : Byte} {iaddr : BitVec 24} {n : Nat} {sendStop : Bool} {s : State}
    (h : s.txing = true ∨ Lowerable s) :
    requestFrom a7 qty iaddr n sendStop s = .ok (resOfCount (requestAvailable s n (clampQty s.cfg qty)))
      { s with
        err := if n = 0 then s.err else errNone
        txing := !sendStop
        rxbuf := putAt s.rxbuf 0 (requestBytes s n (clampQty s.cfg qty))
        rxpos := 0
        rxlen := BitVec.ofNat 8 (requestAvailable s n (clampQty s.cfg qty))
        lines := s.lines.moved s.cfg (requestSda s.cfg (clampQty s.cfg qty) sendStop) (requestScl s.cfg sendStop)
          (internalSamples n + 1 + 8 * clampQty s.cfg qty)
          (requestEvents s a7 iaddr n (clampQty s.cfg qty) sendStop) } := by
  unfold requestFrom
  by_cases hn : n = 0
  · subst hn
    rw [bind_of_ok (internalAddress_none _ _ _), bind_of_ok (get_run _), readPhase_run h]
    simp [availableAfter, requestAvailable, internalError, internalSamples, requestBytes, requestEvents, internalEvents]
  · rw [bind_of_ok (internalAddress_run hn h), bind_of_ok (get_run _)]
    dsimp only
    rw [readPhase_run (by exact .inl rfl)]
    have hr : ∀ (d k : PinState) (m : Nat) (es : List Event) (j i : Nat),
        readEachEvents (s.lines.moved s.cfg d k m es) j i = readEachEvents s.lines (m + j) i := by
      intro d k m es j i
      induction i generalizing j with
      | zero => rfl
      | succ i ih => simp [readEachEvents, ih, answersFrom_moved, Nat.add_assoc]
    have hk : ∀ a : Nat, n + 1 + (1 + a) = n + 1 + 1 + a := fun a => by omega
    have ho : (s.txing || n != 0) = true := by simp [hn]
    simp [availableAfter, requestAvailable, internalSamples, requestBytes, requestEvents, hn, hr, byteAt_moved, hk, ho]

/-- `BusBegin` (R106). -/
theorem busBegin_run (s : State) :
    busBegin s = .ok (s.lines.answer 0 && s.lines.answer 1)
      { s with
        err := errNone
        txing := false
        rxpos := 0
        rxlen := 0
        lines := s.lines.moved s.cfg (released s.cfg) (released s.cfg) 2
          [.rel .sda, .rel .scl, .samp .sda (s.lines.answer 0), .samp .scl (s.lines.answer 1)] } := by
  unfold busBegin
  rw [bind_of_ok (modify_run _ _), bind_of_ok (onLines_ok (setHigh_run .sda)), bind_of_ok (onLines_ok (setHigh_run .scl))]
  simp [bind, EStateM.bind, onLines, sample, maskedPinWrite, released, Lines.setPin, Lines.emit, driveOf, Lines.skip, pure,
    EStateM.pure, Lines.answer, Lines.moved, State.withCursor, State.withErr, State.withTxing]

/-- How many of `bs` WRITE_BUF sends when the samples are `as`: up to and with the first refused one. -/
theorem writeAll_run (b : Byte) (bs : List Byte) (c : Nat) (s : State)
    (h : b.getLsbD 7 = false → pushesHigh s.cfg s.lines.sda = false) :
    writeAll (b :: bs) c s = .ok (c + ackedBytes (s.lines.answersFrom 0 (bs.length + 1)))
      { s with
        err := if ackedBytes (s.lines.answersFrom 0 (bs.length + 1)) < bs.length + 1 then errWriteNak else s.err
        lines := s.lines.moved s.cfg (held s.cfg) (held s.cfg) (sentBytes (s.lines.answersFrom 0 (bs.length + 1)))
          (writeEachEvents ((b :: bs).take (sentBytes (s.lines.answersFrom 0 (bs.length + 1))))
            (s.lines.answersFrom 0 (bs.length + 1))) } := by
  induction bs generalizing b c s with
  | nil =>
    simp only [writeAll]
    rw [bind_of_ok (write_run h)]
    cases ha : s.lines.answer 0 <;>
      simp [Lines.answersFrom, ha, ackedBytes, sentBytes, writeEachEvents, pure, EStateM.pure]
  | cons b' bs ih =>
    simp only [writeAll]
    rw [bind_of_ok (write_run h), List.length_cons, answersFrom_succ]
    cases ha : s.lines.answer 0 with
    | true => simp [ackedBytes, sentBytes, writeEachEvents, pure, EStateM.pure]
    | false =>
      simp only [Bool.not_false, if_true, Bool.false_eq_true, if_false]
      have := ih b' (c + 1) { s with lines := s.lines.moved s.cfg (held s.cfg) (held s.cfg) 1 (writeByteEvents b false) }
        (by intro _; simp)
      simp only [writeAll] at this
      rw [this]
      simp only [answersFrom_moved, moved_moved, Nat.add_zero, Nat.zero_add]
      have hc : ∀ as : List Bool, ackedBytes (false :: as) = ackedBytes as + 1 := fun as => by simp [ackedBytes]
      have hs : ∀ as : List Bool, sentBytes (false :: as) = sentBytes as + 1 := fun as => by
        simp only [sentBytes, hc, List.length_cons]
        split <;> split <;> omega
      simp only [hc, hs, List.take_succ_cons, writeEachEvents]
      congr 1
      · omega
      · simp [Nat.add_comm]

/-! ### Where a `SetLow` faults (60_exceptions.md R154) -/

/-- Every address phase, from lines that hold a latch at 1 without pull-up mode and no transaction open. -/
theorem addressPhase_error {ab : Byte} {s : State} (ht : s.txing = false) (h : ¬ Lowerable s) :
    ∃ p t, addressPhase ab s = .error p t := by
  unfold addressPhase
  rw [bind_of_ok (get_run s)]
  cases hd : pushesHigh s.cfg s.lines.sda with
  | true => exact ⟨_, _, onLines_error (by simp only [ht]; exact start_error_sda hd)⟩
  | false =>
    cases hk : pushesHigh s.cfg s.lines.scl with
    | true => exact ⟨_, _, onLines_error (by simp only [ht]; exact start_error_scl hd hk)⟩
    | false => exact absurd ⟨hd, hk⟩ h

theorem beginTx_error {a7 : BitVec 7} {s : State} (ht : s.txing = false) (h : ¬ Lowerable s) :
    ∃ p t, beginTx a7 s = .error p t := by
  obtain ⟨p, t, he⟩ := addressPhase_error (ab := addressByte a7 false) ht h
  exact ⟨p, t, bind_of_error he⟩

theorem closeBus_error {s : State} (h : pushesHigh s.cfg s.lines.sda = true) : closeBus s = .error .sda s := by
  unfold closeBus
  exact bind_of_error (onLines_error (stop_error h))

theorem endTx_error {s : State} (h : pushesHigh s.cfg s.lines.sda = true) : endTx true s = .error .sda s := by
  unfold endTx
  rw [bind_of_ok (get_run s)]
  exact bind_of_error (by simpa using closeBus_error h)

theorem write_error {b : Byte} {s : State} (hb : b.getLsbD 7 = false) (h : pushesHigh s.cfg s.lines.sda = true) :
    write b s = .error .sda s := by
  unfold write
  exact bind_of_error (onLines_error (writeByte_error hb h))

theorem writeAll_error {b : Byte} {bs : List Byte} {c : Nat} {s : State} (hb : b.getLsbD 7 = false)
    (h : pushesHigh s.cfg s.lines.sda = true) : writeAll (b :: bs) c s = .error .sda s :=
  bind_of_error (write_error hb h)

theorem requestFrom_error {a7 : BitVec 7} {qty : Byte} {iaddr : BitVec 24} {n : Nat} {sendStop : Bool} {s : State}
    (ht : s.txing = false) (h : ¬ Lowerable s) : ∃ p t, requestFrom a7 qty iaddr n sendStop s = .error p t := by
  unfold requestFrom
  by_cases hn : n = 0
  · subst hn
    obtain ⟨p, t, he⟩ := addressPhase_error (ab := addressByte a7 true) ht h
    rw [bind_of_ok (internalAddress_none _ _ _), bind_of_ok (get_run _)]
    exact ⟨p, t, bind_of_error he⟩
  · obtain ⟨p, t, he⟩ := beginTx_error (a7 := a7) ht h
    exact ⟨p, t, bind_of_error (by rw [internalAddress, if_neg hn]; exact bind_of_error he)⟩

/-! ### From a body to the command (60_exceptions.md R153) -/

theorem runBody_ok {body : Cmd Result} {s t : State} {r : Result} (h : body s.begun = .ok r t) :
    runBody body s = .next (t.ended r) := by
  simp [runBody, h]

theorem runBody_error {body : Cmd Result} {s t : State} {p : Pin} (h : body s.begun = .error p t) :
    runBody body s = .fault (.pushPullHigh p (t.raised .pushPullHigh)) := by
  simp [runBody, h]

/-- What `runBody` can answer: the body's end or the fault it raised, never a refusal. -/
theorem runBody_cases (body : Cmd Result) (s : State) :
    (∃ r t, body s.begun = .ok r t ∧ runBody body s = .next (t.ended r)) ∨
    (∃ p t, body s.begun = .error p t ∧ runBody body s = .fault (.pushPullHigh p (t.raised .pushPullHigh))) := by
  cases h : body s.begun with
  | ok r t => exact .inl ⟨r, t, rfl, runBody_ok h⟩
  | error p t => exact .inr ⟨p, t, rfl, runBody_error h⟩

/-- A command that is one computation and a result made from its value. -/
theorem runBody_bind_ok {x : Cmd α} {f : α → Result} {s t : State} {a : α} (h : x s.begun = .ok a t) :
    runBody (x >>= fun v => pure (f v)) s = .next (t.ended (f a)) :=
  runBody_ok (by rw [bind_of_ok h, pure_run])

theorem runBody_bind_error {x : Cmd α} {f : α → Result} {s t : State} {p : Pin} (h : x s.begun = .error p t) :
    runBody (x >>= fun v => pure (f v)) s = .fault (.pushPullHigh p (t.raised .pushPullHigh)) :=
  runBody_error (bind_of_error h)

theorem runOnRange_fits {haddr : BitVec 32} {len : BitVec 16} {body : List Byte → Cmd Result} {s : State}
    (h : haddr.toNat + len.toNat ≤ s.cfg.hmemSize) :
    runOnRange haddr len body s = runBody (body (Memory.readRange s.hmem haddr.toNat len.toNat)) s := by
  simp [runOnRange, rangeFits, h]

theorem runOnRange_fault {haddr : BitVec 32} {len : BitVec 16} {body : List Byte → Cmd Result} {s : State}
    (h : s.cfg.hmemSize < haddr.toNat + len.toNat) :
    runOnRange haddr len body s = .fault (.hostMemRange haddr len (s.raisedAtOnce .hostMemRange)) := by
  simp [runOnRange, rangeFits, Nat.not_le.mpr h]

/-- The answers of the environment do not depend on the event list. -/
@[simp] theorem answer_events (l : Lines) (es : List Event) (k : Nat) :
    ({ l with events := es } : Lines).answer k = l.answer k := rfl

@[simp] theorem answersFrom_events (l : Lines) (es : List Event) (k n : Nat) :
    ({ l with events := es } : Lines).answersFrom k n = l.answersFrom k n := rfl

@[simp] theorem byteAt_events (l : Lines) (es : List Event) (k : Nat) :
    ({ l with events := es } : Lines).byteAt k = l.byteAt k := rfl

@[simp] theorem readEachEvents_events (l : Lines) (es : List Event) (k n : Nat) :
    readEachEvents { l with events := es } k n = readEachEvents l k n := by
  induction n generalizing k with
  | zero => rfl
  | succ n ih => simp [readEachEvents, ih]

theorem answer_begun (s : State) (k : Nat) : s.begun.lines.answer k = s.lines.answer k := rfl

theorem answersFrom_begun (s : State) (k n : Nat) : s.begun.lines.answersFrom k n = s.lines.answersFrom k n := rfl

theorem byteAt_begun (s : State) (k : Nat) : s.begun.lines.byteAt k = s.lines.byteAt k := rfl

theorem requestAvailable_begun (s : State) (n q : Nat) : requestAvailable s.begun n q = requestAvailable s n q := rfl

theorem requestBytes_begun (s : State) (n q : Nat) : requestBytes s.begun n q = requestBytes s n q := rfl

theorem requestEvents_begun (s : State) (a7 : BitVec 7) (iaddr : BitVec 24) (n q : Nat) (sendStop : Bool) :
    requestEvents s.begun a7 iaddr n q sendStop = requestEvents s a7 iaddr n q sendStop := by
  simp [requestEvents, internalEvents]

/-- A command that only moved the lines. -/
theorem moved_ended (s : State) (d k : PinState) (n : Nat) (es : List Event) (r : Result) :
    (({ s.begun with lines := s.begun.lines.moved s.cfg d k n es } : State).ended r) = s.movedTo d k n es r := by
  simp [State.begun, State.ended, State.movedTo, Lines.moved]

end Sys2Proof.Machine
end

