-- ==== Sys2Proof/Tests/Slice0.lean ====
section
/-! SUPPORT. Tests on fixed values, each from 95_test_vectors.md or another file of spec/ (named in its comment), and for
every obligation with hypotheses a witness that meets them together. -/

namespace Sys2Proof.Tests

-- One theorem after the other: many kernel evaluations at a time would each hold a thread.
set_option Elab.async false

open Sys2Proof.Machine Sys2Proof.Claims

/-! ### Helpers -/

/-- `State.reset` with the given answers of the environment. -/
def idle (as : List Bool) : State := { State.reset with lines := { State.reset.lines with answers := as } }

/-- A pin (dir, out, pu) as 95 section 0 writes it. -/
def pinOf (d : Dir) (o p : Bool) : PinState := { dir := d, out := o, pu := p }

/-- A state inside a transaction: both lines held low, TXING = 1. -/
def inside (as : List Bool) : State :=
  { State.reset with
    txing := true
    lines := { State.reset.lines with answers := as, sda := pinOf .output false true, scl := pinOf .output false true } }

/-- A block without pull-up mode, both pins (IN, `sda`, 0) and (IN, `scl`, 0). -/
def bare (sda scl : Bool) (as : List Bool) : State :=
  { State.reset with
    cfg := { Config.reference with pullup := false }
    lines := { State.reset.lines with answers := as, sda := pinOf .input sda false, scl := pinOf .input scl false } }

/-- SDA held low and SCL released, as in the second case of R91. -/
def heldData : State :=
  { State.reset with lines := { State.reset.lines with answers := [false], sda := pinOf .output false true } }

/-- A state whose receive buffer is known. -/
def received (bytes : List Byte) (pos len : Byte) : State :=
  { State.reset with cfg := { Config.reference with rxCap := bytes.length }, rxbuf := bytes, rxpos := pos, rxlen := len }

/-- A state whose HMEM holds bytes from an address on. -/
def holding (a : Nat) (bytes : List Byte) : State :=
  { inside [] with hmem := (bytes.zipIdx a).foldl (fun m p => Memory.write m p.2 p.1) [] }

/-- The bits of bytes, as 95 section 0 writes an oracle. -/
def bits (bs : List Byte) : List Bool := bs.flatMap wireBits

/-- The result and the state columns ERR/TXING/RXPOS/RXLEN of 95 section 0. -/
structure Report where
  res   : Int
  err   : Nat
  txing : Bool
  rxpos : Nat
  rxlen : Nat
deriving DecidableEq, Repr

/-- What a command reports, where it completes. -/
def outcome (i : Instr) (s : State) : Option Report :=
  (nextOf (exec i s)).map fun t => ⟨t.res.toInt, t.err.toNat, t.txing, t.rxpos.toNat, t.rxlen.toNat⟩

/-- The pins after a command, where it completes. -/
def pins (i : Instr) (s : State) : Option (PinState × PinState) :=
  (nextOf (exec i s)).map fun t => (t.lines.sda, t.lines.scl)

/-- The events of a command, where it completes. -/
def events (i : Instr) (s : State) : List Event := ((nextOf (exec i s)).map fun t => t.lines.events).getD []

/-- The bus sequence of a command from idle lines. -/
def bus (i : Instr) (s : State) : List BusItem := busSequence .idle (events i s)

/-- The bus sequence of a command inside a transaction. -/
def busIn (i : Instr) (s : State) : List BusItem := busSequence .inside (events i s)

theorem next_of_isSome {o : Host.Outcome State Fault Refusal} (h : (nextOf o).isSome = true) : ∃ t, o = .next t := by
  cases o with
  | next t => exact ⟨t, rfl⟩
  | fault f => cases h
  | refused r => cases h

theorem next_with {α : Type} {o : Host.Outcome State Fault Refusal} {f : State → α} {r : α}
    (h : (nextOf o).map f = some r) : ∃ t, o = .next t ∧ f t = r := by
  cases o with
  | next t => exact ⟨t, rfl, Option.some.inj h⟩
  | fault x => cases h
  | refused x => cases h

/-! ### Well-formed configurations (00_scope.md R7): one refused for each check -/

theorem test_reference_is_well_formed : Config.reference.wf = true := by decide +kernel
theorem test_equal_pins_refused : ({ Config.reference with sclPin := 0 } : Config).wf = false := by decide +kernel
theorem test_capacity_zero_refused : ({ Config.reference with rxCap := 0 } : Config).wf = false := by decide +kernel
theorem test_capacity_256_refused : ({ Config.reference with rxCap := 256 } : Config).wf = false := by decide +kernel
theorem test_delay_zero_refused : ({ Config.reference with tUs := 0 } : Config).wf = false := by decide +kernel
theorem test_attempts_zero_refused : ({ Config.reference with nSw := 0 } : Config).wf = false := by decide +kernel
theorem test_hmem_zero_refused : ({ Config.reference with hmemSize := 0 } : Config).wf = false := by decide +kernel
theorem test_hmem_above_refused : ({ Config.reference with hmemSize := 2 ^ 32 + 1 } : Config).wf = false := by
  decide +kernel
theorem test_hmem_largest_accepted : ({ Config.reference with hmemSize := 2 ^ 32 } : Config).wf = true := by
  decide +kernel

/-! ### Decoding: the words of 95 section 2.1, one per opcode -/

theorem test_decode_gpio :
    decode 0x0100000000000000 = .ok (.setLow .sda) ∧ decode 0x0200000000000001 = .ok (.setHigh .scl) := by
  decide +kernel

theorem test_decode_engine :
    decode 0x1000000000000080 = .ok (.start 0x80) ∧ decode 0x1100000000000081 = .ok (.repStart 0x81) ∧
    decode 0x1200000000000080 = .ok (.startWait 0x80) ∧ decode 0x1300000000000000 = .ok .stop ∧
    decode 0x14000000000000A5 = .ok (.writeByte 0xA5) ∧ decode 0x1500000000000001 = .ok (.readByte true) := by
  decide +kernel

theorem test_decode_transaction :
    decode 0x2000000000000000 = .ok .busBegin ∧ decode 0x2100000000000000 = .ok .busEnd ∧
    decode 0x2200000000000040 = .ok (.beginTx 0x40) ∧ decode 0x2300000000000001 = .ok (.endTx true) ∧
    decode 0x2400000000000010 = .ok (.write 0x10) ∧ decode 0x2500000300000010 = .ok (.writeBuf 0x10 3) ∧
    decode 0x2600050000050140 = .ok (.requestFrom 0x40 1 0x000005 1 true) ∧
    decode 0x2700000000000000 = .ok .available ∧ decode 0x2800000000000000 = .ok .read ∧
    decode 0x2900000000000000 = .ok .peek := by
  decide +kernel

theorem test_decode_request_extremes :
    decode 0x2600000000000240 = .ok (.requestFrom 0x40 2 0 0 false) ∧
    decode 0x260007FFFFFFFF7F = .ok (.requestFrom 0x7F 255 0xFFFFFF 3 true) := by
  decide +kernel

theorem test_decode_crc :
    decode 0x3000002800000000 = .ok (.crc8 0 40) ∧ decode 0x3100000500000100 = .ok (.crcCheck 0x100 5) := by
  decide +kernel

/-- 95 section 2.1, the words that decode to nothing. -/
theorem test_illegal_words :
    [0x0000000000000000#64, 0xFF00000000000000#64, 0x0300000000000000#64].map decode
      = [.error (.unassignedOpcode 0x00), .error (.unassignedOpcode 0xFF), .error (.unassignedOpcode 0x03)] ∧
    ([0x0100000000000002#64, 0x1300000000000001#64, 0x1400000000000100#64, 0x2200000000000080#64,
      0x2600000000000080#64, 0x2600080000000040#64, 0x3001000000000000#64, 0x2700000000000001#64].all
      fun w => decode w == .error (.reservedBitSet w)) = true := by
  decide +kernel

/-- 20_memory.md R42, 95 section 2.1: a word as bytes is big-endian. -/
theorem test_word_bytes :
    wordBytes 0x2200000000000040 = [0x22, 0, 0, 0, 0, 0, 0, 0x40] ∧
    decodeBytes [0x22, 0, 0, 0, 0, 0, 0, 0x40, 0x13] = .ok (.beginTx 0x40, [0x13]) ∧
    decodeBytes [0x22, 0, 0] = .error .truncated := by
  decide +kernel

/-- R68: pseudo-instructions; R67: an operand that does not fit is refused. -/
theorem test_assembler :
    assembleWords "WRITE16 0x1000" = some [0x2400000000000010, 0x2400000000000000] ∧
    assembleWords "REQUEST_FROM 0x40, 2, 0" = some [0x2600000000000240] ∧ assembleWords "WRITE 256" = none := by
  decide +kernel

/-! ### GPIO (95 section 2.2) -/

/-- G-1: SET_LOW SDA from (IN, 1, 1). -/
theorem test_set_low_keeps_the_pull_up :
    pins (.setLow .sda) { State.reset with lines := { State.reset.lines with sda := pinOf .input true true } }
      = some (pinOf .output false true, pinOf .input false false) := by
  decide +kernel

/-- G-9: policy ENABLE, IE 0: SET_LOW leaves IE 1. -/
theorem test_set_low_enables_interrupts :
    (nextOf (exec (.setLow .sda) { State.reset with
      cfg := { Config.reference with irqExit := .enable }, lines := { State.reset.lines with ie := false } })).map
      (fun t => (t.lines.ie, t.lines.events)) = some (true, [.low .sda]) := by
  decide +kernel

/-- G-2: SET_HIGH SCL from (OUT, 0, 1). -/
theorem test_set_high_releases :
    pins (.setHigh .scl) { State.reset with lines := { State.reset.lines with scl := pinOf .output false true } }
      = some (pinOf .input false false, pinOf .input true true) := by
  decide +kernel

/-- G-4: PULLUP 0. -/
theorem test_set_high_without_pull_up :
    pins (.setHigh .sda) { bare false false [] with
      lines := { (bare false false []).lines with sda := pinOf .output false false } }
      = some (pinOf .input false false, pinOf .input false false) := by
  decide +kernel

/-! ### Bit engine (95 section 2.3) -/

/-- B-1. -/
theorem test_start_acknowledged :
    outcome (.start 0x80) (idle [false]) = some ⟨1, 0, false, 0, 0⟩ ∧
    bus (.start 0x80) (idle [false]) = [.s, .byte 0x80 true] ∧ (events (.start 0x80) (idle [false])).length = 42 := by
  decide +kernel

/-- B-3. -/
theorem test_rep_start_acknowledged :
    outcome (.repStart 0x81) (inside [false]) = some ⟨1, 0, true, 0, 0⟩ ∧
    busIn (.repStart 0x81) (inside [false]) = [.sr, .byte 0x81 true] ∧
    (events (.repStart 0x81) (inside [false])).length = 45 := by
  decide +kernel

/-- B-12. -/
theorem test_start_wait_third_attempt :
    outcome (.startWait 0x80) (idle [true, true, false]) = some ⟨1, 0, false, 0, 0⟩ ∧
    bus (.startWait 0x80) (idle [true, true, false])
      = [.s, .byte 0x80 false, .p, .s, .byte 0x80 false, .p, .s, .byte 0x80 true] := by
  decide +kernel

/-- B-13. -/
theorem test_start_wait_gives_up :
    outcome (.startWait 0x80) (idle [true, true, true]) = some ⟨0, 0, false, 0, 0⟩ ∧
    (events (.startWait 0x80) (idle [true, true, true])).length = 144 := by
  decide +kernel

/-- B-10. -/
theorem test_stop :
    events .stop (inside []) = [.low .sda, .wait .t, .rel .scl, .wait .t, .rel .sda, .wait .t] ∧
    pins .stop (inside []) = some (pinOf .input true true, pinOf .input true true) := by
  decide +kernel

/-- B-5. -/
theorem test_write_byte_refused :
    outcome (.writeByte 0x00) (inside [true]) = some ⟨0, 0, true, 0, 0⟩ ∧
    busIn (.writeByte 0x00) (inside [true]) = [.byte 0x00 false] := by
  decide +kernel

/-- B-4, the bits of 0xA5 most significant first. -/
theorem test_write_byte_order :
    (events (.writeByte 0xA5) (inside [false])).take 8
      = [.rel .sda, .rel .scl, .wait .t, .low .scl, .low .sda, .rel .scl, .wait .t, .low .scl] := by
  decide +kernel

/-- B-7. -/
theorem test_read_byte :
    outcome (.readByte false) (inside (bits [0x3C])) = some ⟨60, 0, true, 0, 0⟩ ∧
    busIn (.readByte false) (inside (bits [0x3C])) = [.byte 0x3C true] := by
  decide +kernel

/-- B-8. -/
theorem test_read_byte_last :
    outcome (.readByte true) (inside (bits [0xA5])) = some ⟨165, 0, true, 0, 0⟩ ∧
    busIn (.readByte true) (inside (bits [0xA5])) = [.byte 0xA5 false] := by
  decide +kernel

/-! ### Transaction layer (95 section 2.4) -/

/-- T-4. -/
theorem test_bus_begin_resets_the_handle :
    outcome .busBegin { received [1, 2, 3, 4, 5] 2 5 with
      err := 3, txing := true, lines := { State.reset.lines with answers := [true, true] } }
      = some ⟨1, 0, false, 0, 0⟩ := by
  decide +kernel

/-- T-3: SCL stuck low. -/
theorem test_bus_begin_scl_low : outcome .busBegin (idle [true, false]) = some ⟨0, 0, false, 0, 0⟩ := by decide +kernel

/-- T-5. -/
theorem test_bus_end :
    outcome .busEnd { received [1, 2, 3] 1 3 with err := 2, txing := true } = some ⟨0, 2, true, 1, 3⟩ := by decide +kernel

/-- T-7. -/
theorem test_begin_tx_refused :
    outcome (.beginTx 0x40) (idle [true]) = some ⟨0, 2, true, 0, 0⟩ ∧
    bus (.beginTx 0x40) (idle [true]) = [.s, .byte 0x80 false] := by
  decide +kernel

/-- T-8. -/
theorem test_begin_tx_repeated :
    outcome (.beginTx 0x40) (inside [false]) = some ⟨0, 0, true, 0, 0⟩ ∧
    busIn (.beginTx 0x40) (inside [false]) = [.sr, .byte 0x80 true] := by
  decide +kernel

/-- T-9. -/
theorem test_end_tx :
    outcome (.endTx true) { inside [] with err := 2 } = some ⟨2, 0, false, 0, 0⟩ ∧
    busIn (.endTx true) { inside [] with err := 2 } = [.p] := by
  decide +kernel

/-- T-10. -/
theorem test_end_tx_held :
    outcome (.endTx false) { inside [] with err := 2 } = some ⟨2, 0, true, 0, 0⟩ ∧
    events (.endTx false) { inside [] with err := 2 } = [] := by
  decide +kernel

/-- T-14: 3 overwrites 2. -/
theorem test_write_refused : outcome (.write 0x10) { inside [true] with err := 2 } = some ⟨0, 3, true, 0, 0⟩ := by
  decide +kernel

/-- T-15: an ACK does not clear ERR. -/
theorem test_write_acknowledged : outcome (.write 0x10) { inside [false] with err := 2 } = some ⟨1, 2, true, 0, 0⟩ := by
  decide +kernel

/-- T-16, T-17. -/
theorem test_write_buf :
    outcome (.writeBuf 0x10 3) { holding 0x10 [1, 2, 3] with lines := (inside [false, false, false]).lines }
      = some ⟨3, 0, true, 0, 0⟩ ∧
    busIn (.writeBuf 0x10 3) { holding 0x10 [1, 2, 3] with lines := (inside [false, true]).lines }
      = [.byte 1 true, .byte 2 false] := by
  decide +kernel

/-- T-23. -/
theorem test_request_from_internal_address :
    outcome (.requestFrom 0x40 3 0xCCDD 2 true) (idle ([false, false, false, false] ++ bits [0xA1, 0xB2, 0xC3]))
      = some ⟨3, 0, false, 0, 3⟩ ∧
    bus (.requestFrom 0x40 3 0xCCDD 2 true) (idle ([false, false, false, false] ++ bits [0xA1, 0xB2, 0xC3]))
      = [.s, .byte 0x80 true, .byte 0xCC true, .byte 0xDD true, .sr, .byte 0x81 true, .byte 0xA1 true, .byte 0xB2 true,
         .byte 0xC3 false, .p] := by
  decide +kernel

/-- T-25: the old ERR = 2 makes the request fail. -/
theorem test_request_from_old_error :
    outcome (.requestFrom 0x40 1 0x05 1 true) { inside ([false, false, false] ++ bits [0x77]) with err := 2 }
      = some ⟨0, 0, false, 0, 0⟩ := by
  decide +kernel

/-- T-29. -/
theorem test_read_and_peek :
    outcome .read (received [0xA1, 0xB2, 0xC3] 0 3) = some ⟨161, 0, false, 1, 3⟩ ∧
    outcome .peek (received [0xA1, 0xB2, 0xC3] 0 3) = some ⟨161, 0, false, 0, 3⟩ ∧
    outcome .available (received [0xA1, 0xB2, 0xC3] 1 3) = some ⟨2, 0, false, 1, 3⟩ := by
  decide +kernel

/-- T-30. -/
theorem test_read_and_peek_at_reset :
    outcome .read State.reset = some ⟨-1, 0, false, 0, 0⟩ ∧ outcome .peek State.reset = some ⟨-1, 0, false, 0, 0⟩ ∧
    outcome .available State.reset = some ⟨0, 0, false, 0, 0⟩ := by
  decide +kernel

/-! ### CRC (95 section 2.5) -/

theorem test_crc8_values :
    crc8 [] = 0x00 ∧ crc8 [0x31] = 0xF4 ∧ crc8 [0x12, 0x34, 0, 0] = 0xCB ∧
    crc8 [0x31, 0x32, 0x33, 0x34, 0x35, 0x36, 0x37, 0x38, 0x39] = 0xA2 := by
  decide +kernel

/-- C-1, C-2. -/
theorem test_crc8_command :
    outcome (.crc8 0x100 4) (holding 0x100 [0x12, 0x34, 0, 0, 0xCB]) = some ⟨203, 0, true, 0, 0⟩ ∧
    outcome (.crc8 0x100 5) (holding 0x100 [0x12, 0x34, 0, 0, 0xCB]) = some ⟨0, 0, true, 0, 0⟩ := by
  decide +kernel

/-- C-3, C-4, C-6, C-7. -/
theorem test_crc_check_command :
    outcome (.crcCheck 0x100 5) (holding 0x100 [0x12, 0x34, 0, 0, 0xCB]) = some ⟨1, 0, true, 0, 0⟩ ∧
    outcome (.crcCheck 0x100 5) (holding 0x100 [0x12, 0x35, 0, 0, 0xCB]) = some ⟨0, 0, true, 0, 0⟩ ∧
    outcome (.crcCheck 0x100 0) (holding 0x100 [0x12]) = some ⟨0, 0, true, 0, 0⟩ ∧
    outcome (.crcCheck 0x100 1) (holding 0x100 [0x00]) = some ⟨1, 0, true, 0, 0⟩ := by
  decide +kernel

/-! ### Faults and the step (95 section 2.6) -/

/-- F-3, C-11, C-12, C-13: the range check at its boundary. -/
theorem test_hmem_range :
    (faultOf (exec (.writeBuf 0x1FE 3) State.reset)).isSome = true ∧
    outcome (.crc8 0x200 0) State.reset = some ⟨0, 0, false, 0, 0⟩ ∧
    (faultOf (exec (.crc8 0x1FF 2) State.reset)).isSome = true ∧
    (faultOf (exec (.crcCheck 0xFFFFFFFF 0xFFFF) State.reset)).isSome = true := by
  decide +kernel

/-- B-15, B-16, F-6: where `PushPullHigh` is raised. -/
theorem test_push_pull_high :
    (match exec (.start 0x80) (bare true true []) with
      | .fault (.pushPullHigh p t) => (p == .sda && t.fault == some .pushPullHigh && t.lines.events == [])
      | _ => false) = true ∧
    (match exec (.start 0x80) (bare false true []) with
      | .fault (.pushPullHigh p t) => (p == .scl && t.lines.events == [.low .sda, .wait .t]
          && t.lines.sda == pinOf .output false false && t.lines.scl == pinOf .input true false)
      | _ => false) = true ∧
    outcome (.readByte false) (bare true true (bits [0x00])) = some ⟨0, 0, false, 0, 0⟩ := by
  decide +kernel

/-- F-1, F-2, F-4. -/
theorem test_step_faults :
    (match step (State.reset.withFetchWord 64 0) with
      | .fault (.illegalCommand w t) => (w == 0#64 && t.fault == some .illegalCommand)
      | _ => false) = true ∧
    (match step ({ State.reset with fault := some .illegalCommand }.withFetchWord 64 0x2000000000000000) with
      | .fault (.noStep c) => (c == .illegalCommand)
      | _ => false) = true ∧
    (match step ({ State.reset with busy := true }.withFetchWord 64 0) with
      | .fault (.reentrant t) => (t.fault == some .reentrant)
      | _ => false) = true := by
  decide +kernel

/-- 10_state.md R24: the host's index grows by one for a completed command. -/
theorem test_step_counts_commands :
    (nextOf (step (State.reset.withFetchWord 64 0x2700000000000000))).map (fun t => (t.res, t.index, t.script))
      = some (0, 1, []) := by
  decide +kernel

/-! ### Witnesses: the hypotheses of each obligation, met together -/

theorem test_meets_DecodedWordIsTheEncoding : ∃ (w : Word) (i : Instr), decode w = .ok i :=
  ⟨0x2600050000050140, .requestFrom 0x40 1 5 1 true, by decide +kernel⟩

/-- One word that decodes, one refused for its opcode, one for its topmost reserved bit. -/
theorem test_meets_DecodeRefusesExactlyTheIllegalWords :
    (unassigned 0x22 = false ∧ ∀ k < 56, ¬ (reservedBit 0x22 k = true ∧ (0x2200000000000040#64).getLsbD k = true)) ∧
    unassigned 0x32 = true ∧ (reservedBit 0x26 43 = true ∧ (0x2600080000000040#64).getLsbD 43 = true) := by
  decide +kernel

/-- A word and a row that it matches. -/
theorem test_meets_OpcodeMapIsTheSpecs :
    ∃ r ∈ opTable, 0x260007FFFFFFFF7F &&& r.fmt.mask = r.matchWord ∧ r.opc = 0x26 := by
  have h : (opTable.any fun r => 0x260007FFFFFFFF7F &&& r.fmt.mask == r.matchWord && r.opc == 0x26) = true := by
    decide +kernel
  obtain ⟨r, hr, he⟩ := List.any_eq_true.mp h
  simp only [Bool.and_eq_true, beq_iff_eq] at he
  exact ⟨r, hr, he⟩

theorem test_meets_StepRunsTheDecodedCommand : ∃ (s : State) (w : Word) (i : Instr),
    s.fault = none ∧ s.busy = false ∧ s.script = [.command w] ∧ decode w = .ok i :=
  ⟨State.reset.withFetchWord 64 0x2000000000000000, 0x2000000000000000, .busBegin, by decide +kernel⟩

theorem test_meets_StepFaultsInTheOrderOfTheSpec :
    (∃ s : State, s.fault = some .pushPullHigh) ∧
    (∃ s : State, s.fault = none ∧ s.busy = true ∧ s.script = [.command 0]) ∧
    (∃ s : State, s.fault = none ∧ s.busy = false ∧ s.script = [.command 0] ∧ ∀ i, decode 0 ≠ .ok i) :=
  ⟨⟨{ State.reset with fault := some .pushPullHigh }, rfl⟩,
   ⟨{ State.reset with busy := true, script := [.command 0] }, rfl, rfl, rfl⟩,
   ⟨{ State.reset with script := [.command 0] }, rfl, rfl, rfl, fun i h => by
      have : decode 0 = .error (.unassignedOpcode 0) := by decide +kernel
      rw [this] at h
      cases h⟩⟩

/-- One byte past the end of HMEM, and a range that ends exactly there. -/
theorem test_meets_RangeOutsideHmemFaults :
    State.reset.cfg.hmemSize < (0x1FF#32).toNat + (2#16).toNat ∧ (0x1FF#32).toNat + (1#16).toNat ≤ State.reset.cfg.hmemSize := by
  decide +kernel

/-- A waiting block; a store at the last address of HMEM; one at the first past it; a change of IE. -/
theorem test_meets_HostMovesBetweenCommands :
    State.reset.fault = none ∧ State.reset.script = [] ∧ Memory.wf State.reset.hmem = true ∧
    511 < State.reset.cfg.hmemSize ∧ State.reset.cfg.hmemSize ≤ 512 ∧
    ({ State.reset with script := [.store 511 1] } : State).script = .store 511 1 :: [] ∧
    ({ State.reset with script := [.setIE false] } : State).script = .setIE false :: [] := by
  decide +kernel

theorem test_meets_ConstructionSetsTheResetValues : ∃ c : Config, c.wf = true ∧ c.rxCap = 255 :=
  ⟨{ Config.reference with rxCap := 255 }, by decide +kernel⟩

theorem test_meets_ResetMeetsTheInvariant : ∃ c : Config, c.wf = true ∧ c.rxCap = 1 :=
  ⟨{ Config.reference with rxCap := 1 }, by decide +kernel⟩

/-- A state inside the invariant that no reset is: received bytes, one read. -/
theorem received_ok : StateOk (received [0xA1, 0xB2, 0xC3] 1 3) :=
  { cfg := by decide +kernel, err := .inl rfl, cursor := by decide +kernel, length := by decide +kernel,
    capacity := rfl, atRest := rfl, canonical := rfl, inHmem := rfl }

theorem test_meets_StepKeepsTheInvariant : ∃ s t : State, StateOk s ∧ step s = .next t :=
  have h : ∃ t, step ((received [0xA1, 0xB2, 0xC3] 1 3).withFetchWord 64 0x2800000000000000) = .next t :=
    next_of_isSome (by decide +kernel)
  have r := received_ok
  ⟨(received [0xA1, 0xB2, 0xC3] 1 3).withFetchWord 64 0x2800000000000000, h.choose,
    { cfg := r.cfg, err := r.err, cursor := r.cursor, length := r.length, capacity := r.capacity,
      atRest := r.atRest, canonical := r.canonical, inHmem := r.inHmem }, h.choose_spec⟩

/-- PULLUP 0 with both latches 0: START runs. -/
theorem test_meets_StepKeepsOpenDrain : ∃ s t : State, step s = .next t ∧ openDrain s.lines = true ∧
    MayLower s .sda ∧ MayLower s .scl :=
  have h : ∃ t, step ((bare false false [true]).withFetchWord 64 0x1000000000000080) = .next t :=
    next_of_isSome (by decide +kernel)
  ⟨_, h.choose, h.choose_spec, by decide +kernel, .inr rfl, .inr rfl⟩

theorem test_meets_StepKeepsParametersAndFault : ∃ s t : State, step s = .next t :=
  ⟨State.reset, State.reset, rfl⟩

/-- Both ways a line may be lowered, and a latch at 1 without pull-up mode. -/
theorem test_meets_SetLowPullsTheLineLow :
    MayLower (bare false true []) .sda ∧ MayLower State.reset .scl ∧
    (bare false true []).cfg.pullup = false ∧ ((bare false true []).lines.pin .scl).out = true :=
  ⟨.inr rfl, .inl rfl, rfl, rfl⟩

/-- A pin operation under each policy. -/
theorem test_meets_InterruptEnableFollowsThePolicy :
    (∃ s t : State, exec (.setHigh .sda) s = .next t ∧ s.cfg.irqExit = .restore) ∧
    (∃ s t : State, exec (.setHigh .sda) s = .next t ∧ s.cfg.irqExit = .enable) :=
  ⟨⟨State.reset, _, rfl, rfl⟩,
   ⟨{ State.reset with cfg := { Config.reference with irqExit := .enable } }, _, rfl, rfl⟩⟩

/-- A byte with bit 7 set where SDA may not be lowered; one with bit 7 clear where it may, and where it may not. -/
theorem test_meets_WriteByteSendsTheByte :
    (0x80#8).getLsbD 7 = true ∧ ¬ MayLower (bare true true []) .sda ∧ (0x7F#8).getLsbD 7 = false ∧
    MayLower (bare false true []) .sda := by
  decide +kernel

/-- Both lines may be lowered; only SDA may; none may. -/
theorem test_meets_StartSendsTheAddressByte :
    (MayLower (bare false false []) .sda ∧ MayLower (bare false false []) .scl) ∧
    ¬ (MayLower (bare false true []) .sda ∧ MayLower (bare false true []) .scl) ∧
    ¬ (MayLower (bare true true []) .sda ∧ MayLower (bare true true []) .scl) := by
  decide +kernel

/-- Acknowledged at the first attempt, at the last one, and never; and a START that faults. -/
theorem test_meets_StartWaitRetriesUpToItsBound :
    (1 ≤ State.reset.cfg.nSw ∧ MayLower State.reset .sda ∧ MayLower State.reset .scl) ∧
    (0 < State.reset.cfg.nSw ∧ (idle [false]).lines.answer 0 = false) ∧
    (2 < State.reset.cfg.nSw ∧ (∀ j < 2, (idle [true, true, false]).lines.answer j = true) ∧
      (idle [true, true, false]).lines.answer 2 = false) ∧
    (∀ j < State.reset.cfg.nSw, (idle [true, true, true]).lines.answer j = true) ∧
    (1 ≤ (bare false true []).cfg.nSw ∧ ¬ (MayLower (bare false true []) .sda ∧ MayLower (bare false true []) .scl)) := by
  decide +kernel

theorem test_meets_StopReleasesTheBus : MayLower (bare false true []) .sda ∧ ¬ MayLower (bare true true []) .sda := by
  decide +kernel

theorem test_meets_EngineLeavesTheHandleAlone : ∃ (i : Instr) (s t : State), isEngine i = true ∧ exec i s = .next t :=
  have h : ∃ t, exec (.start 0x80) (idle [true]) = .next t := next_of_isSome (by decide +kernel)
  ⟨_, _, h.choose, rfl, h.choose_spec⟩

/-- Each way a command stops (CommandsStopAsTheSpecSays): a range, a precise fault, START's fault on SCL. -/
theorem test_commands_stop :
    exec (.crc8 0x1FF 2) State.reset = rangeFault 0x1FF 2 State.reset ∧
    exec .stop (bare true true []) = pushFault .sda (bare true true []) ∧
    exec (.beginTx 0x40) (bare false true []) = startFault (bare false true []) :=
  ⟨rfl, rfl, rfl⟩

/-- START_WAIT acknowledged, and given up. -/
theorem test_meets_EngineLeavesTheLinesOfTheTable :
    1 ≤ State.reset.cfg.nSw ∧ (∃ t, exec (.startWait 0x80) (idle [true, false]) = .next t ∧ t.res = 1) ∧
    (∃ t, exec (.startWait 0x80) (idle [true, true, true]) = .next t ∧ t.res = 0) :=
  ⟨by decide, next_with (f := State.res) (by decide +kernel), next_with (f := State.res) (by decide +kernel)⟩

theorem test_meets_TwoReadsGiveTwoBytesInOrder :
    (inside (bits [0x12, 0x34])).lines.answersFrom 0 16 = wireBits 0x12 ++ wireBits 0x34 := by
  decide +kernel

theorem test_meets_ConditionsReadOffTheEvents :
    (linesReleased (idle [false]).lines = true ∧ ∀ i ∈ ([.start 0x80, .stop] : List Instr), ∃ t, exec i (idle [false]) = .next t) ∧
    (clockHeld (inside [false]).lines = true ∧
      ∀ i ∈ ([.start 0x80, .repStart 0x81, .writeByte 0xA5, .readByte true, .stop] : List Instr),
        ∃ t, exec i (inside [false]) = .next t) ∧
    (driveOf heldData.lines.sda = .pullLow ∧ driveOf heldData.lines.scl = .released ∧
      ∃ t, exec (.start 0x80) heldData = .next t) := by
  refine ⟨⟨by decide +kernel, fun i hi => next_of_isSome ?_⟩, ⟨by decide +kernel, fun i hi => next_of_isSome ?_⟩,
    by decide +kernel, by decide +kernel, next_of_isSome (by decide +kernel)⟩
  · revert i; decide +kernel
  · revert i; decide +kernel

/-- R91, second case: SDA held low and SCL released, START puts no START condition on the bus. -/
theorem test_start_with_data_held :
    (busSequence (.onLines heldData.lines false) (events (.start 0x80) heldData)).any isStartItem = false := by
  decide +kernel

theorem test_meets_OnlyBusBeginSamplesScl :
    ∃ (s t : State) (b : Bool), exec .busBegin s = .next t ∧ .samp .scl b ∈ t.lines.events :=
  have h : ∃ t, exec .busBegin (idle [true, true]) = .next t := next_of_isSome (by decide +kernel)
  ⟨idle [true, true], h.choose, true, h.choose_spec, by
    have e : (nextOf (exec .busBegin (idle [true, true]))).map (fun t => t.lines.events)
        = some [.rel .sda, .rel .scl, .samp .sda true, .samp .scl true] := by decide +kernel
    rw [h.choose_spec] at e
    have e' : h.choose.lines.events = [.rel .sda, .rel .scl, .samp .sda true, .samp .scl true] := Option.some.inj e
    rw [e']
    decide⟩

/-- Four shapes of a command that completes: an engine command, WRITE_BUF refused part-way, REQUEST_FROM with an internal
address, and READ. It is the premise of the six obligations on every command that completes. -/
theorem test_meets_EventCountsAreTheTables :
    (∃ t, exec (.startWait 0x80) (idle [true, false]) = .next t) ∧
    (∃ t, exec (.writeBuf 0x10 3) { holding 0x10 [1, 2, 3] with lines := (inside [false, true]).lines } = .next t) ∧
    (∃ t, exec (.requestFrom 0x40 1 5 1 false) (idle ([false, false, false] ++ bits [0x77])) = .next t) ∧
    (∃ t, exec .read (received [0xA1] 0 1) = .next t) :=
  ⟨next_of_isSome (by decide +kernel), next_of_isSome (by decide +kernel), next_of_isSome (by decide +kernel),
   next_of_isSome (by decide +kernel)⟩

theorem test_meets_ErrAndTxingFollowTheTable : ∃ (i : Instr) (s t : State), exec i s = .next t :=
  ⟨.busEnd, State.reset, _, rfl⟩

theorem test_meets_CursorHasThreeWriters : ∃ (s t : State), exec .read s = .next t ∧ s.rxpos < s.rxlen :=
  have h : ∃ t, exec .read (received [0xA1] 0 1) = .next t := next_of_isSome (by decide +kernel)
  ⟨_, h.choose, h.choose_spec, by decide +kernel⟩

/-- A clamp below the quantity asked for. -/
theorem test_meets_OnlyRequestFromWritesTheBuffer : ∃ (s t : State) (qty : Byte),
    exec (.requestFrom 0x40 qty 0 0 true) s = .next t ∧ s.cfg.rxCap < qty.toNat :=
  have h : ∃ t, exec (.requestFrom 0x40 6 0 0 true)
      { received [0, 0, 0, 0] 0 0 with lines := (idle (false :: bits [1, 2, 3, 4])).lines } = .next t :=
    next_of_isSome (by decide +kernel)
  ⟨_, h.choose, 6, h.choose_spec, by decide +kernel⟩

theorem test_meets_NoCommandTouchesTheHost : ∃ (i : Instr) (s t : State), exec i s = .next t ∧ s.hmem ≠ [] :=
  ⟨.busEnd, holding 0x10 [1, 2, 3], _, rfl, by decide +kernel⟩

/-- Open with a START; in a transaction with a repeated START where a START would fault; a START that faults. -/
theorem test_meets_BeginTxOpensATransaction :
    (∃ s : State, s.txing = false ∧ MayLower s .sda ∧ MayLower s .scl) ∧
    (∃ s : State, s.txing = true ∧ ¬ MayLower s .sda) ∧
    (∃ s : State, s.txing = false ∧ ¬ (MayLower s .sda ∧ MayLower s .scl)) :=
  ⟨⟨bare false false [], rfl, .inr rfl, .inr rfl⟩, ⟨{ bare true true [] with txing := true }, rfl, by decide +kernel⟩,
   ⟨bare true true [], rfl, by decide +kernel⟩⟩

theorem test_meets_EndTxReportsTheError :
    (∃ s : State, MayLower s .sda ∧ s.err = 3) ∧ ∃ s : State, ¬ MayLower s .sda :=
  ⟨⟨{ State.reset with err := 3 }, .inl rfl, rfl⟩, ⟨bare true true [], by decide +kernel⟩⟩

theorem test_meets_WriteSendsOneByte :
    (0x80#8).getLsbD 7 = true ∧ ¬ MayLower (bare true true []) .sda ∧ MayLower (inside []) .sda ∧
    (0x7F#8).getLsbD 7 = false := by
  decide +kernel

/-- An empty range at HMEM_SIZE, one that ends exactly there, one that goes past it, and a first byte that faults. -/
theorem test_meets_WriteBufSendsUpToTheFirstNak :
    (0x200#32).toNat + (0#16).toNat ≤ State.reset.cfg.hmemSize ∧
    ((0x1FF#32).toNat + (1#16).toNat ≤ State.reset.cfg.hmemSize ∧ (1 : BitVec 16) ≠ 0 ∧ MayLower State.reset .sda) ∧
    State.reset.cfg.hmemSize < (0x200#32).toNat + (1#16).toNat ∧
    ((Memory.read (bare true true []).hmem 0).getLsbD 7 = false ∧ ¬ MayLower (bare true true []) .sda) := by
  decide +kernel

theorem test_meets_WriteBufIsAsManyWrites : ∃ t,
    exec (.writeBuf 0x10 3) { holding 0x10 [1, 2, 3] with lines := (inside [false, true]).lines } = .next t :=
  next_of_isSome (by decide +kernel)

/-- The smallest and the largest buffer; a START that faults. -/
theorem test_meets_RequestFromReadsIntoTheBuffer :
    (MayLower (received [0] 0 0) .sda ∧ MayLower (received [0] 0 0) .scl ∧
      (received [0] 0 0).rxbuf.length = (received [0] 0 0).cfg.rxCap) ∧
    ((inside []).txing = true ∧ (inside []).rxbuf.length = (inside []).cfg.rxCap) ∧
    ((bare false true []).txing = false ∧ ¬ MayLower (bare false true []) .scl) := by
  decide +kernel

/-- Both sides of the equivalence: every phase acknowledged, and the read address refused. -/
theorem test_meets_RequestFromClampsItsQuantity :
    (∃ t, exec (.requestFrom 0x40 1 5 1 true) (idle ([false, false, false] ++ bits [0x77])) = .next t) ∧
    (∃ t, exec (.requestFrom 0x40 1 0 0 true) (idle (true :: bits [0x77])) = .next t) ∧
    min (1#8).toNat State.reset.cfg.rxCap ≠ 0 :=
  ⟨next_of_isSome (by decide +kernel), next_of_isSome (by decide +kernel), by decide +kernel⟩

theorem test_meets_AvailableCountsTheBytesLeft :
    (received [1, 2] 2 2).rxpos ≤ (received [1, 2] 2 2).rxlen ∧ (received [1, 2] 0 2).rxpos ≤ (received [1, 2] 0 2).rxlen := by
  decide +kernel

/-- The last byte, and the cursor at the valid length. -/
theorem test_meets_ReadTakesTheNextByte :
    ((received [0xA1, 0xB2] 1 2).rxpos < (received [0xA1, 0xB2] 1 2).rxlen ∧
      (received [0xA1, 0xB2] 1 2).rxbuf[(received [0xA1, 0xB2] 1 2).rxpos.toNat]? = some 0xB2) ∧
    (received [0xA1, 0xB2] 2 2).rxlen ≤ (received [0xA1, 0xB2] 2 2).rxpos := by
  decide +kernel

theorem test_meets_PeekLooksAtTheNextByte :
    ((received [0xA1, 0xB2] 0 2).rxpos < (received [0xA1, 0xB2] 0 2).rxlen ∧
      (received [0xA1, 0xB2] 0 2).rxbuf[(received [0xA1, 0xB2] 0 2).rxpos.toNat]? = some 0xA1) ∧
    State.reset.rxlen ≤ State.reset.rxpos := by
  decide +kernel

/-- `received_ok`'s state before a request for two bytes that is acknowledged. -/
def asking : State :=
  { received [0xA1, 0xB2, 0xC3] 1 3 with lines := (idle (false :: bits [0x55, 0xAA])).lines }

theorem asking_ok : StateOk asking :=
  have r := received_ok
  { cfg := r.cfg, err := r.err, cursor := r.cursor, length := r.length, capacity := r.capacity, atRest := r.atRest,
    canonical := r.canonical, inHmem := r.inHmem }

/-- Three READs with other commands between them, after the request for two bytes. -/
def readingOut : List Instr := [.read, .peek, .endTx false, .read, .available, .read]

theorem test_meets_ReadsReturnTheRequestedBytes : ∃ s t : State,
    StateOk s ∧ exec (.requestFrom 0x40 2 0 0 true) s = .next t ∧
      (t.res = 2 ∧ readingOut.all keepsReceived = true ∧ ∃ rs u, readsAmong readingOut t = some (rs, u)) := by
  have h : ∃ t, exec (.requestFrom 0x40 2 0 0 true) asking = .next t ∧
      (t.res, (readsAmong readingOut t).isSome) = (2, true) :=
    next_with (f := fun t => (t.res, (readsAmong readingOut t).isSome)) (by decide +kernel)
  obtain ⟨t, ht, hr⟩ := h
  simp only [Prod.mk.injEq, Option.isSome_iff_exists] at hr
  obtain ⟨⟨rs, u⟩, hu⟩ := hr.2
  exact ⟨asking, t, asking_ok, ht, hr.1, rfl, rs, u, hu⟩

/-- R126: the READs give the slave's bytes in order and then -1, whatever commands stand between them. -/
theorem test_reads_between_other_commands :
    ((nextOf (exec (.requestFrom 0x40 2 0 0 true) asking)).bind (readsAmong readingOut)).map (fun p => p.1)
      = some [0x55#32, 0xAA#32, BitVec.ofInt 32 (-1)] := by
  decide +kernel

theorem test_meets_ProbeReportsTheAcknowledge :
    (∃ s : State, s.err = 0 ∧ MayLower s .sda ∧ MayLower s .scl) ∧ ∃ s : State, s.err = 3 ∧ s.txing = true :=
  ⟨⟨State.reset, rfl, .inl rfl, .inl rfl⟩, ⟨{ inside [] with err := 3 }, rfl, rfl⟩⟩

theorem test_meets_EndTxAfterWritesReportsTheWorst : ∃ s : State, s.err = 0 ∧ s.txing = true :=
  ⟨inside [], rfl, rfl⟩

theorem test_meets_QuietCommandsTouchNoLine : ∃ (s t : State), isQuiet .read = true ∧ exec .read s = .next t :=
  have h : ∃ t, exec .read (received [0xA1] 0 1) = .next t := next_of_isSome (by decide +kernel)
  ⟨_, h.choose, rfl, h.choose_spec⟩

theorem test_meets_OnlyThreeCommandsReadHmem : readsNoHmem (.requestFrom 0x40 5 0 0 true) = true := rfl

/-- An empty frame, one that ends exactly at HMEM_SIZE, one that goes past it. -/
theorem test_meets_CrcCommandsAnswer :
    (0x200#32).toNat + (0#16).toNat ≤ State.reset.cfg.hmemSize ∧
    (0x1FB#32).toNat + (5#16).toNat ≤ State.reset.cfg.hmemSize ∧ (5 : BitVec 16) ≠ 0 ∧
    State.reset.cfg.hmemSize < (0x1FC#32).toNat + (5#16).toNat := by
  decide +kernel

theorem test_meets_ChecksumLaws : ([0x12, 0x34, 0, 0] : List Byte).length = ([0x03, 0xE8, 0, 0] : List Byte).length := rfl

theorem test_meets_FramePassesWhenItsChecksumIsZero : ([0x12, 0x34, 0, 0, 0xCB] : List Byte) ≠ [] := by decide

/-- The first and the last byte of a passing frame. -/
theorem test_meets_OneByteErrorsAreDetected :
    crcPasses [0x12, 0x34, 0, 0, 0xCB] = true ∧ 0 < [0x12, 0x34, 0, 0, 0xCB].length ∧
    4 < [0x12, 0x34, 0, 0, 0xCB].length ∧ (1 : Byte) ≠ 0 := by
  decide +kernel

theorem test_meets_OddErrorsAreDetected :
    ([0, 1, 0, 3, 0] : List Byte).length = ([0x12, 0x34, 0, 0, 0xCB] : List Byte).length ∧
    crcPasses [0x12, 0x34, 0, 0, 0xCB] = true ∧ (([0, 1, 0, 3, 0] : List Byte).map onesOf).sum % 2 = 1 := by
  decide +kernel

end Sys2Proof.Tests
end

section
/-! SUPPORT. What a command leaves alone (00_scope.md R10, 10_state.md R24, R32, R33): a computation that keeps a view of the
state, the rules for composing such computations, and the view that every body keeps, the host's side. -/

namespace Sys2Proof.Machine

section Keeps

variable {α β γ : Type} {view : State → γ} {x : Cmd α} {f : α → Cmd β}

/-- Where `x` completes, what `view` shows of the state is as it was. -/
def Keeps (view : State → γ) (x : Cmd α) : Prop := ∀ s a t, x s = .ok a t → view t = view s

theorem Keeps.pure (a : α) : Keeps view (pure a) := by
  rintro s b t ⟨⟩
  rfl

theorem Keeps.get : Keeps view get := by
  rintro s a t ⟨⟩
  rfl

theorem Keeps.modify {g : State → State} (h : ∀ s, view (g s) = view s) : Keeps view (modify g) := by
  rintro s a t ⟨⟩
  exact h s

theorem Keeps.bind (hx : Keeps view x) (hf : ∀ a, Keeps view (f a)) : Keeps view (x >>= f) := by
  intro s b u h
  cases hs : x s with
  | ok a t =>
    rw [bind_of_ok hs] at h
    exact (hf a t b u h).trans (hx s a t hs)
  | error p t =>
    rw [bind_of_error hs] at h
    cases h

theorem Keeps.onLines (m : Config → Micro α) (h : ∀ s l, view { s with lines := l } = view s) :
    Keeps view (onLines m) := by
  intro s a t ht
  cases hm : m s.cfg s.lines with
  | ok b l =>
    rw [onLines_ok hm] at ht
    cases ht
    exact h s l
  | error p l =>
    rw [onLines_error hm] at ht
    cases ht

end Keeps

/-- What belongs to the host or is fixed for the block's life: the parameters, FAULT (written only by a raise), host memory,
the host's moves and its index. -/
def State.hostSide (s : State) : Config × Option FaultCode × Memory × List HostMove × Nat :=
  (s.cfg, s.fault, s.hmem, s.script, s.index)

theorem hostSide_eq_iff {s t : State} : t.hostSide = s.hostSide ↔
    t.cfg = s.cfg ∧ t.fault = s.fault ∧ t.hmem = s.hmem ∧ t.script = s.script ∧ t.index = s.index := by
  simp only [State.hostSide, Prod.mk.injEq]

/-! ### The transaction layer's sub-operations keep the host's side -/

theorem onLines_keeps {α : Type} (m : Config → Micro α) : Keeps State.hostSide (onLines m) :=
  .onLines m fun _ _ => rfl

theorem addressPhase_keeps (ab : Byte) : Keeps State.hostSide (addressPhase ab) :=
  .bind .get fun _ => onLines_keeps _

theorem beginTx_keeps (a7 : BitVec 7) : Keeps State.hostSide (beginTx a7) :=
  .bind (addressPhase_keeps _) fun _ => .modify fun _ => rfl

theorem closeBus_keeps : Keeps State.hostSide closeBus :=
  .bind (onLines_keeps _) fun _ => .modify fun _ => rfl

theorem endTx_keeps (sendStop : Bool) : Keeps State.hostSide (endTx sendStop) := by
  refine .bind .get fun entry => ?_
  have clear : Keeps State.hostSide (do modify (fun s => s.withErr errNone); pure entry.err) :=
    .bind (.modify fun _ => rfl) fun _ => .pure _
  cases sendStop with
  | false => exact clear
  | true => exact .bind closeBus_keeps fun _ => clear

theorem write_keeps (b : Byte) : Keeps State.hostSide (write b) :=
  .bind (onLines_keeps _) fun _ => .bind (.modify fun _ => rfl) fun _ => .pure _

theorem writeAll_keeps (bs : List Byte) (c : Nat) : Keeps State.hostSide (writeAll bs c) := by
  induction bs generalizing c with
  | nil => exact .pure c
  | cons b bs ih =>
    refine .bind (write_keeps b) fun ack => ?_
    cases ack with
    | false => exact .pure c
    | true => exact ih (c + 1)

theorem writeEach_keeps (bs : List Byte) : Keeps State.hostSide (writeEach bs) := by
  induction bs with
  | nil => exact .pure ()
  | cons b bs ih => exact .bind (write_keeps b) fun _ => ih

theorem internalAddress_keeps (a7 : BitVec 7) (iaddr : BitVec 24) (n : Nat) :
    Keeps State.hostSide (internalAddress a7 iaddr n) := by
  unfold internalAddress
  split
  · exact .pure _
  · exact .bind (beginTx_keeps a7) fun _ => .bind (writeEach_keeps _) fun _ => endTx_keeps false

theorem readInto_keeps (n i : Nat) : Keeps State.hostSide (readInto n i) := by
  induction n generalizing i with
  | zero => exact .pure ()
  | succ n ih => exact .bind (onLines_keeps _) fun _ => .bind (.modify fun _ => rfl) fun _ => ih (i + 1)

theorem endRequest_keeps (sendStop : Bool) : Keeps State.hostSide (endRequest sendStop) := by
  cases sendStop with
  | false => exact .modify fun _ => rfl
  | true => exact closeBus_keeps

theorem readPhase_keeps (a7 : BitVec 7) (q : Nat) (e : Byte) (sendStop : Bool) :
    Keeps State.hostSide (readPhase a7 q e sendStop) :=
  .bind (addressPhase_keeps _) fun _ => .bind (readInto_keeps q 0) fun _ => .bind (endRequest_keeps sendStop) fun _ =>
    .bind (.modify fun _ => rfl) fun _ => .pure _

theorem requestFrom_keeps (a7 : BitVec 7) (qty : Byte) (iaddr : BitVec 24) (n : Nat) (sendStop : Bool) :
    Keeps State.hostSide (requestFrom a7 qty iaddr n sendStop) :=
  .bind (internalAddress_keeps a7 iaddr n) fun _ => .bind .get fun _ => readPhase_keeps a7 _ _ sendStop

theorem busBegin_keeps : Keeps State.hostSide busBegin :=
  .bind (.modify fun _ => rfl) fun _ => .bind (onLines_keeps _) fun _ => .bind (onLines_keeps _) fun _ =>
    .bind (onLines_keeps _) fun _ => .bind (onLines_keeps _) fun _ => .pure _

theorem takeByte_keeps : Keeps State.hostSide takeByte := by
  intro s a t h
  unfold takeByte at h
  split at h <;> cases h <;> rfl

theorem peekByte_keeps : Keeps State.hostSide peekByte := by
  intro s a t h
  unfold peekByte at h
  split at h <;> cases h <;> rfl

/-! ### From a body to the command -/

/-- A body that ends in a result made from what it computed. -/
theorem Keeps.answer {α γ : Type} {view : State → γ} {x : Cmd α} (hx : Keeps view x) (f : α → Result) :
    Keeps view (do let a ← x; Pure.pure (f a)) :=
  hx.bind fun _ => .pure _

/-- A run that completes keeps the host's side and leaves BUSY 0. -/
def HostUntouched (s t : State) : Prop := t.hostSide = s.hostSide ∧ t.busy = false

theorem runBody_hostUntouched {body : Cmd Result} (hb : Keeps State.hostSide body) {s t : State}
    (h : runBody body s = .next t) : HostUntouched s t := by
  obtain ⟨r, u, hu, hrun⟩ | ⟨p, u, -, hrun⟩ := runBody_cases body s
  · rw [hrun] at h
    cases h
    exact ⟨hb s.begun r u hu, rfl⟩
  · rw [hrun] at h
    cases h

theorem runOnRange_hostUntouched {haddr : BitVec 32} {len : BitVec 16} {body : List Byte → Cmd Result}
    (hb : ∀ bytes, Keeps State.hostSide (body bytes)) {s t : State} (h : runOnRange haddr len body s = .next t) :
    HostUntouched s t := by
  by_cases hr : haddr.toNat + len.toNat ≤ s.cfg.hmemSize
  · rw [runOnRange_fits hr] at h
    exact runBody_hostUntouched (hb _) h
  · rw [runOnRange_fault (Nat.lt_of_not_le hr)] at h
    cases h

/-- R10, R24, R32, R33: no command that completes touches the host's side, and BUSY is 0 after it. -/
theorem exec_hostUntouched {i : Instr} {s t : State} (h : exec i s = .next t) : HostUntouched s t := by
  cases i with
  | setLow p => exact runBody_hostUntouched ((onLines_keeps _).answer _) h
  | setHigh p => exact runBody_hostUntouched ((onLines_keeps fun c => setHigh c p).answer fun _ => 0) h
  | start ab => exact runBody_hostUntouched ((onLines_keeps _).answer _) h
  | repStart ab => exact runBody_hostUntouched ((onLines_keeps _).answer _) h
  | startWait ab => exact runBody_hostUntouched ((onLines_keeps _).answer _) h
  | stop => exact runBody_hostUntouched ((onLines_keeps _).answer _) h
  | writeByte v => exact runBody_hostUntouched ((onLines_keeps _).answer _) h
  | readByte last => exact runBody_hostUntouched ((onLines_keeps _).answer _) h
  | busBegin => exact runBody_hostUntouched (busBegin_keeps.answer _) h
  | busEnd => exact runBody_hostUntouched (.pure _) h
  | beginTx a7 => exact runBody_hostUntouched ((beginTx_keeps a7).answer _) h
  | endTx sendStop => exact runBody_hostUntouched ((endTx_keeps sendStop).answer _) h
  | write b => exact runBody_hostUntouched ((write_keeps b).answer _) h
  | writeBuf haddr len => exact runOnRange_hostUntouched (fun bytes => (writeAll_keeps bytes 0).answer _) h
  | requestFrom a7 qty iaddr isize sendStop =>
    exact runBody_hostUntouched (requestFrom_keeps a7 qty iaddr isize.toNat sendStop) h
  | available => exact runBody_hostUntouched (Keeps.get.answer fun t => resOfByte t.rxlen - resOfByte t.rxpos) h
  | read => exact runBody_hostUntouched takeByte_keeps h
  | peek => exact runBody_hostUntouched peekByte_keeps h
  | crc8 haddr len => exact runOnRange_hostUntouched (fun _ => .pure _) h
  | crcCheck haddr len => exact runOnRange_hostUntouched (fun _ => .pure _) h

/-! ### The step -/

/-- A command word that completes: BUSY was 0, the word decodes, and its command ran (R153). -/
theorem issue_next {w : Word} {s t : State} (h : issue w s = .next t) :
    s.busy = false ∧ ∃ i u, decode w = .ok i ∧ exec i s = .next u ∧ t = u.commandDone := by
  unfold issue at h
  split at h
  · cases h
  · next hb =>
    split at h
    · next i hd =>
      cases hx : exec i s with
      | next u =>
        rw [hx] at h
        cases h
        exact ⟨Bool.eq_false_of_not_eq_true hb, i, u, hd, hx, rfl⟩
      | fault r => rw [hx] at h; cases h
      | refused r => rw [hx] at h; cases h
    · cases h

/-- What a step that completes can have done: the block waited, ran a command, or the host stored a byte or set IE. -/
theorem step_next_cases {s t : State} (h : step s = .next t) : s.fault = none ∧
    ((s.script = [] ∧ t = s) ∨
    (∃ w rest i u, s.script = .command w :: rest ∧ s.busy = false ∧ decode w = .ok i ∧ exec i s = .next u ∧
      t = u.commandDone) ∨
    (∃ a b rest, s.script = .store a b :: rest ∧ a < s.cfg.hmemSize ∧
      t = { s.movedOn with hmem := Memory.write s.hmem a b }) ∨
    (∃ v rest, s.script = .setIE v :: rest ∧ t = { s.movedOn with lines := { s.lines with ie := v } })) := by
  unfold step advance at h
  split at h
  · cases h
  · next hf =>
    refine ⟨hf, ?_⟩
    split at h
    · next hs =>
      cases h
      exact .inl ⟨hs, rfl⟩
    · next m rest hs =>
      cases m with
      | command w =>
        obtain ⟨hb, i, u, hd, hx, rfl⟩ := issue_next h
        exact .inr (.inl ⟨w, rest, i, u, hs, hb, hd, hx, rfl⟩)
      | store a b =>
        simp only [runMove, hostStore] at h
        split at h
        · next ha =>
          cases h
          exact .inr (.inr (.inl ⟨a, b, rest, hs, ha, rfl⟩))
        · cases h
      | setIE v =>
        cases h
        exact .inr (.inr (.inr ⟨v, rest, hs, rfl⟩))

/-! ### Construction -/

/-- R7: the types of the parameters. -/
theorem config_wf_iff (c : Config) : c.wf = true ↔ c.sdaPin ≠ c.sclPin ∧ 1 ≤ c.rxCap ∧ c.rxCap ≤ 255 ∧
    1 ≤ c.tUs ∧ 1 ≤ c.nSw ∧ 1 ≤ c.hmemSize ∧ c.hmemSize ≤ 2 ^ 32 := by
  simp only [Config.wf, Bool.and_eq_true, bne_iff_ne, decide_eq_true_eq, and_assoc]

theorem construct_refused_iff (c : Config) : construct c = .error .noSuchBlock ↔ ¬ c.wf = true := by
  cases hwf : c.wf <;> simp [construct, hwf]

end Sys2Proof.Machine
end

section
/-! The obligations of 00_scope.md. -/

namespace Sys2Proof.Proofs

open Sys2Proof.Machine Sys2Proof.Claims

/-- Settles O17: the host's moves write neither the parameters nor FAULT, and a command keeps the host's side. -/
theorem stepKeepsParametersAndFault : Obligations.StepKeepsParametersAndFault := by
  intro s t h
  obtain ⟨hf, hcases⟩ := step_next_cases h
  suffices hkept : t.cfg = s.cfg ∧ t.fault = s.fault by
    obtain ⟨hcfg, hfault⟩ := hkept
    exact ⟨hcfg, hf, hfault.trans hf⟩
  obtain ⟨-, rfl⟩ | ⟨w, rest, i, u, -, -, -, hx, rfl⟩ | ⟨a, b, rest, -, -, rfl⟩ | ⟨v, rest, -, rfl⟩ := hcases
  · exact ⟨rfl, rfl⟩
  · obtain ⟨hside, -⟩ := exec_hostUntouched hx
    obtain ⟨hcfg, hfault, -⟩ := hostSide_eq_iff.mp hside
    exact ⟨hcfg, hfault⟩
  · exact ⟨rfl, rfl⟩
  · exact ⟨rfl, rfl⟩

/-- Settles O51: every body keeps the host's side, and the common step ends with BUSY 0. -/
theorem noCommandTouchesTheHost : Obligations.NoCommandTouchesTheHost := by
  intro i s t h
  obtain ⟨hside, hbusy⟩ := exec_hostUntouched h
  obtain ⟨hcfg, hfault, hhmem, hscript, hindex⟩ := hostSide_eq_iff.mp hside
  exact ⟨fun a => by rw [hhmem], hhmem, hcfg, hfault, hscript, hindex, hbusy⟩

/-- Settles O13: `construct` refuses exactly what `Config.wf` rejects. -/
theorem constructionRefusesBadConfigurations : Obligations.ConstructionRefusesBadConfigurations := by
  intro c
  rw [construct_refused_iff, config_wf_iff]
  exact ⟨Iff.rfl, rfl⟩

end Sys2Proof.Proofs
end

section
/-! SUPPORT. What a command that completes preserves (10_state.md R22, R26, R27, R30): a property that the four
micro-operations and the bodies' writes keep is kept by the whole command. One traversal of the bodies serves all such
properties: the error codes, the cursor, RXBUF, the pins. -/

namespace Sys2Proof.Machine

section Preserves

variable {ε σ α β : Type} {P : σ → Prop} {x : EStateM ε σ α} {f : α → EStateM ε σ β}

/-- Where `x` completes from a state with `P`, the state after it has `P`. -/
def Preserves (P : σ → Prop) (x : EStateM ε σ α) : Prop := ∀ s a t, x s = .ok a t → P s → P t

theorem Preserves.pure (a : α) : Preserves P (Pure.pure a : EStateM ε σ α) := by
  rintro s b t ⟨⟩ hs
  exact hs

theorem Preserves.get : Preserves P (get : EStateM ε σ σ) := by
  rintro s a t ⟨⟩ hs
  exact hs

theorem Preserves.modify {g : σ → σ} (h : ∀ s, P s → P (g s)) : Preserves P (modify g : EStateM ε σ PUnit) := by
  rintro s a t ⟨⟩ hs
  exact h s hs

theorem Preserves.bind (hx : Preserves P x) (hf : ∀ a, Preserves P (f a)) : Preserves P (x >>= f) := by
  intro s b u h hs
  cases hxs : x s with
  | ok a t =>
    rw [bind_of_ok hxs] at h
    exact hf a t b u h (hx s a t hxs hs)
  | error e t =>
    rw [bind_of_error hxs] at h
    cases h

/-- A computation and a value made from what it computed. -/
theorem Preserves.answer (hx : Preserves P x) (g : α → β) : Preserves P (do let a ← x; Pure.pure (g a)) :=
  hx.bind fun _ => .pure _

end Preserves

/-! ### The engine's sub-operations -/

section Engine

variable {c : Config} {P : Lines → Prop}

/-- A property of the lines that the four micro-operations (00_scope.md R11) preserve. -/
structure MicroInvariant (c : Config) (P : Lines → Prop) : Prop where
  setLow  : ∀ p, Preserves P (setLow c p)
  setHigh : ∀ p, Preserves P (setHigh c p)
  sample  : ∀ p, Preserves P (sample p)
  delay   : ∀ k, Preserves P (delay k)

theorem MicroInvariant.of_irrelevant (h : ∀ l l', P l → P l') : MicroInvariant c P where
  setLow  := fun _ l _ l' _ => h l l'
  setHigh := fun _ l _ l' _ => h l l'
  sample  := fun _ l _ l' _ => h l l'
  delay   := fun _ l _ l' _ => h l l'

variable (h : MicroInvariant c P)
include h

theorem setData_preserves (b : Bool) : Preserves P (setData c b) := by
  cases b with
  | false => exact h.setLow .sda
  | true => exact h.setHigh .sda

theorem sendBits_preserves (bs : List Bool) : Preserves P (sendBits c bs) := by
  induction bs with
  | nil => exact .pure ()
  | cons b bs ih =>
    exact .bind (setData_preserves h b) fun _ => .bind (h.setHigh .scl) fun _ => .bind (h.delay .t) fun _ =>
      .bind (h.setLow .scl) fun _ => ih

theorem sampleAck_preserves : Preserves P (sampleAck c) :=
  .bind (h.setHigh .sda) fun _ => .bind (h.setHigh .scl) fun _ => .bind (h.delay .h) fun _ =>
    .bind (h.sample .sda) fun _ => .bind (h.setLow .scl) fun _ => .bind (h.delay .h) fun _ =>
    .bind (h.setLow .sda) fun _ => .pure _

theorem writeByte_preserves (v : Byte) : Preserves P (writeByte c v) :=
  .bind (sendBits_preserves h _) fun _ => sampleAck_preserves h

theorem receiveBits_preserves (n : Nat) (b : Byte) : Preserves P (receiveBits c n b) := by
  induction n generalizing b with
  | zero => exact .pure b
  | succ n ih =>
    exact .bind (h.delay .t) fun _ => .bind (h.setHigh .scl) fun _ => .bind (h.sample .sda) fun d =>
      .bind (h.setLow .scl) fun _ => ih (shiftIn b d)

theorem sendAck_preserves (last : Bool) : Preserves P (sendAck c last) :=
  .bind (setData_preserves h last) fun _ => .bind (h.setHigh .scl) fun _ => .bind (h.delay .h) fun _ =>
    .bind (h.setLow .scl) fun _ => .bind (h.delay .h) fun _ => h.setHigh .sda

theorem readByte_preserves (last : Bool) : Preserves P (readByte c last) :=
  .bind (h.setHigh .sda) fun _ => .bind (receiveBits_preserves h 8 0) fun _ =>
    .bind (sendAck_preserves h last) fun _ => .pure _

theorem start_preserves (ab : Byte) : Preserves P (start c ab) :=
  .bind (h.setLow .sda) fun _ => .bind (h.delay .t) fun _ => .bind (h.setLow .scl) fun _ => writeByte_preserves h ab

theorem repStart_preserves (ab : Byte) : Preserves P (repStart c ab) :=
  .bind (h.setHigh .sda) fun _ => .bind (h.setHigh .scl) fun _ => .bind (h.delay .t) fun _ => start_preserves h ab

theorem stop_preserves : Preserves P (stop c) :=
  .bind (h.setLow .sda) fun _ => .bind (h.delay .t) fun _ => .bind (h.setHigh .scl) fun _ =>
    .bind (h.delay .t) fun _ => .bind (h.setHigh .sda) fun _ => h.delay .t

theorem startAttempts_preserves (ab : Byte) (n : Nat) : Preserves P (startAttempts c ab n) := by
  induction n with
  | zero => exact .pure false
  | succ n ih =>
    refine .bind (start_preserves h ab) fun ack => ?_
    cases ack with
    | false => exact .bind (stop_preserves h) fun _ => ih
    | true => exact .pure true

end Engine

/-! ### The transaction layer's sub-operations -/

section Body

variable {P : State → Prop}

/-- A property of the state that the common step (60_exceptions.md R153), the micro-operations and the bodies' writes of ERR
and TXING keep. What the writes of RXBUF and of the cursor must keep is asked for where they occur. -/
structure BodyInvariant (P : State → Prop) : Prop where
  micro : ∀ s : State, MicroInvariant s.cfg fun l => P { s with lines := l }
  err   : ∀ (s : State) (e : Byte), e = errNone ∨ e = errAddressNak ∨ e = errWriteNak → P s → P (s.withErr e)
  txing : ∀ (s : State) (v : Bool), P s → P (s.withTxing v)
  begun : ∀ s : State, P s → P s.begun
  ended : ∀ (s : State) (r : Result), P s → P (s.ended r)

/-- Writes of RXPOS and RXLEN keep `P`. -/
abbrev KeptByCursor (P : State → Prop) : Prop := ∀ (s : State) (p n : Byte), P s → P (s.withCursor p n)

/-- Writes of RXBUF keep `P`. -/
abbrev KeptByRx (P : State → Prop) : Prop := ∀ (s : State) (i : Nat) (b : Byte), P s → P (s.withRx i b)

theorem takeByte_preserves (hc : KeptByCursor P) : Preserves P takeByte := by
  intro s a t h hs
  unfold takeByte at h
  split at h <;> cases h
  · exact hc s _ _ hs
  · exact hs

theorem peekByte_preserves : Preserves P peekByte := by
  intro s a t h hs
  unfold peekByte at h
  split at h <;> cases h <;> exact hs

variable (hP : BodyInvariant P)
include hP

theorem onLines_preserves {α : Type} {m : Config → Micro α}
    (hm : ∀ (c : Config) (Q : Lines → Prop), MicroInvariant c Q → Preserves Q (m c)) : Preserves P (onLines m) := by
  intro s a t ht hs
  cases hrun : m s.cfg s.lines with
  | ok b l =>
    rw [onLines_ok hrun] at ht
    cases ht
    exact hm s.cfg _ (hP.micro s) s.lines a l hrun hs
  | error p l =>
    rw [onLines_error hrun] at ht
    cases ht

theorem addressPhase_preserves (ab : Byte) : Preserves P (addressPhase ab) := by
  refine .bind .get fun s => onLines_preserves hP fun c Q h => ?_
  cases s.txing with
  | false => exact start_preserves h ab
  | true => exact repStart_preserves h ab

theorem withErr_errAfterAddress_kept (ack : Bool) (s : State) (hs : P s) : P (s.withErr (errAfterAddress ack s.err)) := by
  cases ack with
  | false => exact hP.err s _ (.inr (.inl rfl)) hs
  | true => exact hs

theorem withErr_errAfterData_kept (ack : Bool) (s : State) (hs : P s) : P (s.withErr (errAfterData ack s.err)) := by
  cases ack with
  | false => exact hP.err s _ (.inr (.inr rfl)) hs
  | true => exact hs

theorem beginTx_preserves (a7 : BitVec 7) : Preserves P (beginTx a7) :=
  .bind (addressPhase_preserves hP _) fun ack =>
    .modify fun s hs => hP.txing _ true (withErr_errAfterAddress_kept hP ack s hs)

theorem closeBus_preserves : Preserves P closeBus :=
  .bind (onLines_preserves hP fun _ _ h => stop_preserves h) fun _ => .modify fun s => hP.txing s false

theorem endTx_preserves (sendStop : Bool) : Preserves P (endTx sendStop) := by
  refine .bind .get fun entry => ?_
  have clear : Preserves P (do modify (fun s => s.withErr errNone); pure entry.err : Cmd Byte) :=
    .bind (.modify fun s => hP.err s _ (.inl rfl)) fun _ => .pure _
  cases sendStop with
  | false => exact clear
  | true => exact .bind (closeBus_preserves hP) fun _ => clear

theorem write_preserves (b : Byte) : Preserves P (write b) :=
  .bind (onLines_preserves hP fun _ _ h => writeByte_preserves h b) fun ack =>
    .bind (.modify (withErr_errAfterData_kept hP ack)) fun _ => .pure _

theorem writeAll_preserves (bs : List Byte) (n : Nat) : Preserves P (writeAll bs n) := by
  induction bs generalizing n with
  | nil => exact .pure n
  | cons b bs ih =>
    refine .bind (write_preserves hP b) fun ack => ?_
    cases ack with
    | false => exact .pure n
    | true => exact ih (n + 1)

theorem writeEach_preserves (bs : List Byte) : Preserves P (writeEach bs) := by
  induction bs with
  | nil => exact .pure ()
  | cons b bs ih => exact .bind (write_preserves hP b) fun _ => ih

theorem internalAddress_preserves (a7 : BitVec 7) (iaddr : BitVec 24) (n : Nat) :
    Preserves P (internalAddress a7 iaddr n) := by
  unfold internalAddress
  split
  · exact .pure _
  · exact .bind (beginTx_preserves hP a7) fun _ => .bind (writeEach_preserves hP _) fun _ => endTx_preserves hP false

theorem readInto_preserves (hr : KeptByRx P) (n i : Nat) : Preserves P (readInto n i) := by
  induction n generalizing i with
  | zero => exact .pure ()
  | succ n ih =>
    exact .bind (onLines_preserves hP fun _ _ h => readByte_preserves h _) fun b =>
      .bind (.modify fun s => hr s i b) fun _ => ih (i + 1)

theorem endRequest_preserves (sendStop : Bool) : Preserves P (endRequest sendStop) := by
  cases sendStop with
  | false => exact .modify fun s => hP.txing s true
  | true => exact closeBus_preserves hP

theorem readPhase_preserves (hc : KeptByCursor P) (hr : KeptByRx P) (a7 : BitVec 7) (q : Nat) (e : Byte)
    (sendStop : Bool) : Preserves P (readPhase a7 q e sendStop) :=
  .bind (addressPhase_preserves hP _) fun _ => .bind (readInto_preserves hP hr q 0) fun _ =>
    .bind (endRequest_preserves hP sendStop) fun _ => .bind (.modify fun s => hc s _ _) fun _ => .pure _

theorem requestFrom_preserves (hc : KeptByCursor P) (hr : KeptByRx P) (a7 : BitVec 7) (qty : Byte) (iaddr : BitVec 24)
    (n : Nat) (sendStop : Bool) : Preserves P (requestFrom a7 qty iaddr n sendStop) :=
  .bind (internalAddress_preserves hP a7 iaddr n) fun _ => .bind .get fun _ =>
    readPhase_preserves hP hc hr a7 _ _ sendStop

theorem busBegin_preserves (hc : KeptByCursor P) : Preserves P busBegin :=
  .bind (.modify fun s hs => hP.txing _ false (hP.err _ _ (.inl rfl) (hc s 0 0 hs))) fun _ =>
    .bind (onLines_preserves hP fun _ _ h => h.setHigh .sda) fun _ =>
    .bind (onLines_preserves hP fun _ _ h => h.setHigh .scl) fun _ =>
    .bind (onLines_preserves hP fun _ _ h => h.sample .sda) fun _ =>
    .bind (onLines_preserves hP fun _ _ h => h.sample .scl) fun _ => .pure _

/-! ### From a body to the command -/

theorem runBody_preserves {body : Cmd Result} (hb : Preserves P body) {s t : State} (h : runBody body s = .next t)
    (hs : P s) : P t := by
  obtain ⟨r, u, hu, hrun⟩ | ⟨p, u, -, hrun⟩ := runBody_cases body s
  · rw [hrun] at h
    cases h
    exact hP.ended u r (hb s.begun r u hu (hP.begun s hs))
  · rw [hrun] at h
    cases h

theorem runOnRange_preserves {haddr : BitVec 32} {len : BitVec 16} {body : List Byte → Cmd Result}
    (hb : ∀ bytes, Preserves P (body bytes)) {s t : State} (h : runOnRange haddr len body s = .next t) (hs : P s) :
    P t := by
  by_cases hr : haddr.toNat + len.toNat ≤ s.cfg.hmemSize
  · rw [runOnRange_fits hr] at h
    exact runBody_preserves hP (hb _) h hs
  · rw [runOnRange_fault (Nat.lt_of_not_le hr)] at h
    cases h

/-- The commands that write RXPOS or RXLEN (10_state.md R26, R27). -/
def writesCursor : Instr → Bool
  | .requestFrom _ _ _ _ _ => true
  | .busBegin => true
  | .read => true
  | _ => false

/-- The command that writes RXBUF (R25). -/
def writesRxbuf : Instr → Bool
  | .requestFrom _ _ _ _ _ => true
  | _ => false

/-- A command that completes preserves every body invariant that its own writes of the cursor and of RXBUF keep. -/
theorem exec_preserves {i : Instr} (hc : writesCursor i = true → KeptByCursor P) (hr : writesRxbuf i = true → KeptByRx P)
    {s t : State} (h : exec i s = .next t) (hs : P s) : P t := by
  cases i with
  | setLow p => exact runBody_preserves hP ((onLines_preserves hP fun _ _ hm => hm.setLow p).answer _) h hs
  | setHigh p => exact runBody_preserves hP ((onLines_preserves hP fun _ _ hm => hm.setHigh p).answer fun _ => 0) h hs
  | start ab => exact runBody_preserves hP ((onLines_preserves hP fun _ _ hm => start_preserves hm ab).answer _) h hs
  | repStart ab =>
    exact runBody_preserves hP ((onLines_preserves hP fun _ _ hm => repStart_preserves hm ab).answer _) h hs
  | startWait ab =>
    exact runBody_preserves hP ((onLines_preserves hP fun c _ hm => startAttempts_preserves hm ab c.nSw).answer _) h hs
  | stop => exact runBody_preserves hP ((onLines_preserves hP fun _ _ hm => stop_preserves hm).answer _) h hs
  | writeByte v =>
    exact runBody_preserves hP ((onLines_preserves hP fun _ _ hm => writeByte_preserves hm v).answer _) h hs
  | readByte last =>
    exact runBody_preserves hP ((onLines_preserves hP fun _ _ hm => readByte_preserves hm last).answer _) h hs
  | busBegin => exact runBody_preserves hP ((busBegin_preserves hP (hc rfl)).answer _) h hs
  | busEnd => exact runBody_preserves hP (.pure _) h hs
  | beginTx a7 => exact runBody_preserves hP ((beginTx_preserves hP a7).answer _) h hs
  | endTx sendStop => exact runBody_preserves hP ((endTx_preserves hP sendStop).answer _) h hs
  | write b => exact runBody_preserves hP ((write_preserves hP b).answer _) h hs
  | writeBuf haddr len => exact runOnRange_preserves hP (fun bytes => (writeAll_preserves hP bytes 0).answer _) h hs
  | requestFrom a7 qty iaddr isize sendStop =>
    exact runBody_preserves hP (requestFrom_preserves hP (hc rfl) (hr rfl) a7 qty iaddr isize.toNat sendStop) h hs
  | available =>
    exact runBody_preserves hP (Preserves.get.answer fun u : State => resOfByte u.rxlen - resOfByte u.rxpos) h hs
  | read => exact runBody_preserves hP (takeByte_preserves (hc rfl)) h hs
  | peek => exact runBody_preserves hP peekByte_preserves h hs
  | crc8 haddr len => exact runOnRange_preserves hP (fun _ => .pure _) h hs
  | crcCheck haddr len => exact runOnRange_preserves hP (fun _ => .pure _) h hs

end Body

/-! ### ERR, the cursor and RXBUF (R22, R25 to R28) -/

/-- R22: "Values 1 and 4..255 never occur". -/
theorem exec_errCode {i : Instr} {s t : State} (h : exec i s = .next t)
    (hs : s.err = errNone ∨ s.err = errAddressNak ∨ s.err = errWriteNak) :
    t.err = errNone ∨ t.err = errAddressNak ∨ t.err = errWriteNak := by
  have hP : BodyInvariant fun s => s.err = errNone ∨ s.err = errAddressNak ∨ s.err = errWriteNak :=
    { micro := fun _ => .of_irrelevant fun _ _ h => h
      err := fun _ _ he _ => he
      txing := fun _ _ h => h
      begun := fun _ h => h
      ended := fun _ _ h => h }
  exact exec_preserves hP (fun _ _ _ _ h => h) (fun _ _ _ _ h => h) h hs

/-- No micro-operation and no write of ERR or TXING touches what REQUEST_FROM received. -/
theorem bodyInvariant_received (R : Byte → Byte → List Byte → Prop) :
    BodyInvariant fun s => R s.rxpos s.rxlen s.rxbuf where
  micro := fun _ => .of_irrelevant fun _ _ h => h
  err   := fun _ _ _ h => h
  txing := fun _ _ h => h
  begun := fun _ h => h
  ended := fun _ _ h => h

theorem exec_keepsCursor {i : Instr} (hi : writesCursor i = false) {s t : State} (h : exec i s = .next t) :
    t.rxpos = s.rxpos ∧ t.rxlen = s.rxlen := by
  have hP := bodyInvariant_received fun p n _ => p = s.rxpos ∧ n = s.rxlen
  exact exec_preserves hP (by simp [hi]) (fun _ _ _ _ h => h) h ⟨rfl, rfl⟩

theorem exec_keepsRxbuf {i : Instr} (hi : writesRxbuf i = false) {s t : State} (h : exec i s = .next t) :
    t.rxbuf = s.rxbuf := by
  have hP := bodyInvariant_received fun _ _ buf => buf = s.rxbuf
  exact exec_preserves hP (fun _ _ _ _ h => h) (by simp [hi]) h rfl

/-- BUS_BEGIN empties the cursor (R106). -/
theorem execBusBegin_cursor {s t : State} (h : exec .busBegin s = .next t) : t.rxpos = 0 ∧ t.rxlen = 0 := by
  rw [show exec .busBegin s = _ from runBody_bind_ok (busBegin_run s.begun)] at h
  cases h
  exact ⟨rfl, rfl⟩

/-- READ moves RXPOS up to RXLEN and no further (R124). -/
theorem execRead_cursor {s t : State} (h : exec .read s = .next t) :
    t.rxpos = (if s.rxpos < s.rxlen then s.rxpos + 1 else s.rxpos) ∧ t.rxlen = s.rxlen := by
  by_cases hlt : s.rxpos < s.rxlen
  · have hrun : takeByte s.begun = .ok (resOfByte (s.rxAt s.rxpos.toNat)) (s.begun.withCursor (s.rxpos + 1) s.rxlen) :=
      if_pos hlt
    rw [show exec .read s = _ from runBody_ok hrun] at h
    cases h
    exact ⟨(if_pos hlt).symm, rfl⟩
  · have hrun : takeByte s.begun = .ok sentinel s.begun := if_neg hlt
    rw [show exec .read s = _ from runBody_ok hrun] at h
    cases h
    exact ⟨(if_neg hlt).symm, rfl⟩

section RequestFrom

variable {a7 : BitVec 7} {qty : Byte} {iaddr : BitVec 24} {isize : BitVec 2} {sendStop : Bool} {s t : State}

/-- REQUEST_FROM does not complete where its address phase faults (60_exceptions.md R154). -/
theorem lowerable_of_execRequestFrom_next (h : exec (.requestFrom a7 qty iaddr isize sendStop) s = .next t) :
    s.txing = true ∨ Lowerable s := by
  by_contra hno
  obtain ⟨htx, hlow⟩ := not_or.mp hno
  obtain ⟨p, u, hrun⟩ := requestFrom_error (a7 := a7) (qty := qty) (iaddr := iaddr) (n := isize.toNat)
    (sendStop := sendStop) (s := s.begun) (Bool.eq_false_of_not_eq_true htx) hlow
  rw [show exec (.requestFrom a7 qty iaddr isize sendStop) s = _ from runBody_error hrun] at h
  cases h

theorem requestAvailable_le (s : State) (n q : Nat) : requestAvailable s n q ≤ q := by
  unfold requestAvailable
  split
  · exact q.zero_le
  · exact le_rfl

theorem clampQty_lt (c : Config) (qty : Byte) : clampQty c qty < 256 :=
  (min_le_left _ _).trans_lt qty.isLt

/-- What REQUEST_FROM makes of the cursor and of RXBUF (R119, R121). -/
theorem execRequestFrom_received (h : exec (.requestFrom a7 qty iaddr isize sendStop) s = .next t) :
    t.rxpos = 0 ∧ t.rxlen.toNat = requestAvailable s isize.toNat (clampQty s.cfg qty) ∧
    t.rxbuf = putAt s.rxbuf 0 (requestBytes s isize.toNat (clampQty s.cfg qty)) := by
  have hrun := requestFrom_run (a7 := a7) (qty := qty) (iaddr := iaddr) (n := isize.toNat) (sendStop := sendStop)
    (s := s.begun) (lowerable_of_execRequestFrom_next h)
  rw [show exec (.requestFrom a7 qty iaddr isize sendStop) s = _ from runBody_ok hrun] at h
  cases h
  have hfits : requestAvailable s isize.toNat (clampQty s.cfg qty) < 256 :=
    (requestAvailable_le ..).trans_lt (clampQty_lt ..)
  exact ⟨rfl, BitVec.toNat_ofNat _ _ |>.trans (Nat.mod_eq_of_lt hfits), rfl⟩

end RequestFrom

theorem exec_length_rxbuf {i : Instr} {s t : State} (h : exec i s = .next t) : t.rxbuf.length = s.rxbuf.length := by
  cases i with
  | requestFrom a7 qty iaddr isize sendStop =>
    obtain ⟨-, -, hbuf⟩ := execRequestFrom_received h
    rw [hbuf, length_putAt]
  | _ => rw [exec_keepsRxbuf rfl h]

/-- R28: RXPOS ≤ RXLEN ≤ RX_CAP. -/
def CursorOk (s : State) : Prop := s.rxpos ≤ s.rxlen ∧ s.rxlen.toNat ≤ s.cfg.rxCap

theorem exec_cursorOk {i : Instr} {s t : State} (h : exec i s = .next t) (hs : CursorOk s) : CursorOk t := by
  obtain ⟨hside, -⟩ := exec_hostUntouched h
  obtain ⟨hcfg, -⟩ := hostSide_eq_iff.mp hside
  obtain ⟨hpos, hlen⟩ := hs
  unfold CursorOk
  rw [hcfg]
  cases i with
  | requestFrom a7 qty iaddr isize sendStop =>
    obtain ⟨hpos', hlen', -⟩ := execRequestFrom_received h
    rw [hpos', hlen']
    exact ⟨Nat.zero_le _, (requestAvailable_le ..).trans (min_le_right _ _)⟩
  | busBegin =>
    obtain ⟨hpos', hlen'⟩ := execBusBegin_cursor h
    rw [hpos', hlen']
    exact ⟨BitVec.le_refl 0, Nat.zero_le _⟩
  | read =>
    obtain ⟨hpos', hlen'⟩ := execRead_cursor h
    rw [hpos', hlen']
    refine ⟨?_, hlen⟩
    split
    · bv_omega
    · exact hpos
  | _ =>
    obtain ⟨hpos', hlen'⟩ := exec_keepsCursor rfl h
    rw [hpos', hlen']
    exact ⟨hpos, hlen⟩

/-! ### The invariant of the state -/

theorem exec_stateOk {i : Instr} {s t : State} (h : exec i s = .next t) (hs : StateOk s) : StateOk t := by
  obtain ⟨hside, hbusy⟩ := exec_hostUntouched h
  obtain ⟨hcfg, -, hhmem, -⟩ := hostSide_eq_iff.mp hside
  obtain ⟨hcursor, hlength⟩ := exec_cursorOk h ⟨hs.cursor, hs.length⟩
  exact
    { cfg := by rw [hcfg]; exact hs.cfg
      err := exec_errCode h hs.err
      cursor := hcursor
      length := hlength
      capacity := by rw [exec_length_rxbuf h, hcfg]; exact hs.capacity
      atRest := hbusy
      canonical := by rw [hhmem]; exact hs.canonical
      inHmem := by rw [hcfg, hhmem]; exact hs.inHmem }

theorem commandDone_stateOk {s : State} (hs : StateOk s) : StateOk s.commandDone := { hs with }

/-- A store of the host inside HMEM (20_memory.md R48). -/
theorem store_stateOk {s : State} {a : Nat} (b : Byte) (ha : a < s.cfg.hmemSize) (hs : StateOk s) :
    StateOk { s.movedOn with hmem := Memory.write s.hmem a b } :=
  { hs with
    canonical := write_wf s.hmem a b hs.canonical
    inHmem := write_below s.hmem a b s.cfg.hmemSize ha hs.inHmem }

theorem setIE_stateOk {s : State} (v : Bool) (hs : StateOk s) :
    StateOk { s.movedOn with lines := { s.lines with ie := v } } := { hs with }

theorem resetWith_stateOk {c : Config} (hc : c.wf = true) : StateOk (State.resetWith c) where
  cfg       := hc
  err       := .inl rfl
  cursor    := BitVec.le_refl 0
  length    := Nat.zero_le _
  capacity  := by simp [State.resetWith]
  atRest    := rfl
  canonical := rfl
  inHmem    := rfl

/-! ### The pins (R30, 70_reset_and_hazards.md R172) -/

theorem forall_pin {R : Pin → Prop} : (∀ p, R p) ↔ R .sda ∧ R .scl :=
  ⟨fun h => ⟨h .sda, h .scl⟩, fun ⟨hd, hk⟩ p => by cases p; exacts [hd, hk]⟩

theorem pins_of_eq {R : PinState → Prop} {l l' : Lines} (hd : l'.sda = l.sda) (hk : l'.scl = l.scl)
    (h : ∀ p, R (l.pin p)) : ∀ p, R (l'.pin p) := by
  obtain ⟨hsda, hscl⟩ := forall_pin.mp h
  exact forall_pin.mpr ⟨by rwa [pin_sda, hd], by rwa [pin_scl, hk]⟩

theorem pin_maskedPinWrite (c : Config) (p q : Pin) (v : PinState) (e : Event) (l : Lines) :
    (maskedPinWrite c p v e l).pin q = if q = p then v else l.pin q := by
  cases p <;> cases q <;> rfl

/-- A property of a pin that a line released by the master has, and a line pulled low without a fault. -/
structure PinInvariant (Q : Config → PinState → Prop) : Prop where
  released : ∀ c, Q c (released c)
  lowered  : ∀ c v, pushesHigh c v = false → Q c (lowered c v)

variable {Q : Config → PinState → Prop}

theorem maskedPinWrite_pins {c : Config} {v : PinState} (hv : Q c v) (p : Pin) (e : Event) {l : Lines}
    (hl : ∀ q, Q c (l.pin q)) (q : Pin) : Q c ((maskedPinWrite c p v e l).pin q) := by
  rw [pin_maskedPinWrite]
  split
  · exact hv
  · exact hl q

/-- Only the pin operations write a pin, and they leave it lowered or released. -/
theorem microInvariant_pins (hQ : PinInvariant Q) (c : Config) : MicroInvariant c fun l => ∀ p, Q c (l.pin p) where
  setLow p := by
    intro l a l' h hl
    cases hp : pushesHigh c (l.pin p) with
    | true => rw [setLow_error hp] at h; cases h
    | false =>
      rw [setLow_ok hp] at h
      cases h
      exact maskedPinWrite_pins (hQ.lowered c _ hp) p _ hl
  setHigh p := by
    intro l a l' h hl
    rw [setHigh_run] at h
    cases h
    exact maskedPinWrite_pins (hQ.released c) p _ hl
  sample p := by
    intro l a l' h hl
    unfold sample at h
    split at h <;> cases h <;> exact pins_of_eq rfl rfl hl
  delay k := by
    intro l a l' h hl
    rw [delay_run] at h
    cases h
    exact pins_of_eq rfl rfl hl

theorem bodyInvariant_pins (hQ : PinInvariant Q) : BodyInvariant fun s => ∀ p, Q s.cfg (s.lines.pin p) where
  micro s := microInvariant_pins hQ s.cfg
  err := fun _ _ _ h => h
  txing := fun _ _ h => h
  begun := fun _ h => pins_of_eq rfl rfl h
  ended := fun _ _ h => h

/-- No step that completes takes a pin out of a pin invariant. -/
theorem step_keepsPins (hQ : PinInvariant Q) {s t : State} (h : step s = .next t)
    (hs : ∀ p, Q s.cfg (s.lines.pin p)) : ∀ p, Q t.cfg (t.lines.pin p) := by
  obtain ⟨-, hcases⟩ := step_next_cases h
  obtain ⟨-, rfl⟩ | ⟨w, rest, i, u, -, -, -, hx, rfl⟩ | ⟨a, b, rest, -, -, rfl⟩ | ⟨v, rest, -, rfl⟩ := hcases
  · exact hs
  · exact exec_preserves (t := u) (bodyInvariant_pins hQ) (fun _ _ _ _ h => h) (fun _ _ _ _ h => h) hx hs
  · exact hs
  · exact pins_of_eq rfl rfl hs

theorem openDrain_iff (l : Lines) : openDrain l = true ↔ ∀ p, driveOf (l.pin p) ≠ .pushHigh := by
  rw [forall_pin]
  simp [openDrain]

/-- A `SetLow` that raises nothing finds the latch at 0 or clears it (R71, R74). -/
theorem out_lowered {c : Config} {v : PinState} (h : pushesHigh c v = false) : (lowered c v).out = false := by
  cases hp : c.pullup <;> simp_all [pushesHigh, lowered]

theorem dir_lowered (c : Config) (v : PinState) : (lowered c v).dir = .output := rfl

theorem pinInvariant_openDrain : PinInvariant fun _ v => driveOf v ≠ .pushHigh where
  released c := by simp [driveOf, released]
  lowered c v h := by simp [driveOf, dir_lowered, out_lowered h]

theorem pinInvariant_mayLower : PinInvariant fun c v => c.pullup = true ∨ v.out = false where
  released c := by cases hp : c.pullup <;> simp [released, hp]
  lowered c v h := .inr (out_lowered h)

/-! ### Construction -/

theorem construct_of_wf {c : Config} (hc : c.wf = true) : construct c = .ok (State.resetWith c) := if_pos hc

theorem reference_wf : Config.reference.wf = true := by decide

end Sys2Proof.Machine
end

section
/-! The obligations of 10_state.md. -/

namespace Sys2Proof.Proofs

open Sys2Proof.Machine Sys2Proof.Claims

/-- Settles O15: a step waits, runs a command, or makes a move of the host, and each keeps every field of `StateOk`. -/
theorem stepKeepsTheInvariant : Obligations.StepKeepsTheInvariant := by
  intro s t hs h
  obtain ⟨-, hcases⟩ := step_next_cases h
  obtain ⟨-, rfl⟩ | ⟨w, rest, i, u, -, -, -, hx, rfl⟩ | ⟨a, b, rest, -, ha, rfl⟩ | ⟨v, rest, -, rfl⟩ := hcases
  · exact hs
  · exact commandDone_stateOk (exec_stateOk hx hs)
  · exact store_stateOk b ha hs
  · exact setIE_stateOk v hs

/-- Settles O16: not driven high, and latches that a `SetLow` may lower, are both pin invariants. -/
theorem stepKeepsOpenDrain : Obligations.StepKeepsOpenDrain := by
  intro s t h
  constructor
  · rw [openDrain_iff, openDrain_iff]
    exact step_keepsPins pinInvariant_openDrain h
  · rw [← forall_pin (R := MayLower s), ← forall_pin (R := MayLower t)]
    exact step_keepsPins pinInvariant_mayLower h

/-- Settles O49: the three writers by their own rules, every other command by the cursor it keeps. -/
theorem cursorHasThreeWriters : Obligations.CursorHasThreeWriters := by
  intro i s t h
  cases i with
  | requestFrom a7 qty iaddr isize sendStop =>
    obtain ⟨hpos, hlen, -⟩ := execRequestFrom_received h
    exact ⟨hpos, hlen⟩
  | busBegin => exact execBusBegin_cursor h
  | read => exact execRead_cursor h
  | _ => exact exec_keepsCursor rfl h

/-- Settles O50: REQUEST_FROM stores `min(QTY, RX_CAP)` bytes from index 0 on, every other command keeps RXBUF. -/
theorem onlyRequestFromWritesTheBuffer : Obligations.OnlyRequestFromWritesTheBuffer := by
  intro i s t h
  cases i with
  | requestFrom a7 qty iaddr isize sendStop =>
    refine ⟨exec_length_rxbuf h, fun k hk => ?_⟩
    obtain ⟨-, -, hbuf⟩ := execRequestFrom_received h
    rw [hbuf, getElem?_putAt_above _ _ _ _ (by simpa [requestBytes, clampQty] using hk)]
  | _ => exact exec_keepsRxbuf rfl h

/-- Settles O12: construction gives `State.resetWith`, whose fields are the reset values. -/
theorem constructionSetsTheResetValues : Obligations.ConstructionSetsTheResetValues := by
  refine ⟨fun c hc => ?_, construct_of_wf reference_wf⟩
  have hcap := (resetWith_stateOk hc).capacity
  exact ⟨State.resetWith c, construct_of_wf hc, rfl, rfl, rfl, hcap, rfl, rfl, rfl, rfl, rfl, rfl, rfl, rfl, rfl, rfl⟩

/-- Settles O14: the reset state meets the invariant, and the reference configuration is one there is a block for. -/
theorem resetMeetsTheInvariant : Obligations.ResetMeetsTheInvariant :=
  ⟨fun _ hc => resetWith_stateOk hc, resetWith_stateOk reference_wf⟩

end Sys2Proof.Proofs
end

section
/-! SUPPORT. Encoding and decoding of a command word (30_encoding.md R61, R64, 20_memory.md R42): each field read back from a
word of its format, what `decode` makes of the word of a command, and the word carried as its eight bytes. -/

namespace Sys2Proof

section Fields

variable {v w start len i : Nat} {hi : BitVec v} {lo : BitVec w}

/-- A field that lies in the low part of a word is read from that part. -/
theorem field_of_low {field : BitVec len} (hfits : start + len ≤ w) (h : lo.extractLsb' start len = field) :
    (hi ++ lo).extractLsb' start len = field :=
  (BitVec.extractLsb'_append_eq_of_add_le hfits).trans h

/-- A bit of the low part of a word is read from that part. -/
theorem bit_of_low {b : Bool} (hlow : i < w) (h : lo.getLsbD i = b) : (hi ++ lo).getLsbD i = b :=
  (BitVec.getLsbD_append.trans (if_pos hlow)).trans h

/-- The one-bit field right above the low part of a word. -/
theorem bit_above (b : Bool) (lo : BitVec w) : (BitVec.ofBool b ++ lo).getLsbD w = b := by
  rw [BitVec.getLsbD_append, if_neg w.lt_irrefl, Nat.sub_self]
  cases b <;> rfl

theorem lowBit_encodeBit (opc : Byte) (b : BitVec 1) : (encodeBit opc b).getLsbD 0 = b.getLsbD 0 :=
  bit_of_low (by decide) <| bit_of_low (by decide) rfl

theorem pselOf_encodeBit (opc : Byte) (p : Pin) : pselOf (encodeBit opc (pselBit p)) = p := by
  rw [pselOf, lowBit_encodeBit]
  cases p <;> rfl

theorem flagOf_encodeBit (opc : Byte) (b : Bool) : flagOf (encodeBit opc (BitVec.ofBool b)) = b := by
  rw [flagOf, lowBit_encodeBit]
  cases b <;> rfl

theorem byteOf_encodeB (opc v : Byte) : byteOf (encodeB opc v) = v :=
  field_of_low (by decide) BitVec.extractLsb'_append_eq_right

theorem addr7Of_encodeA (opc : Byte) (a7 : BitVec 7) : addr7Of (encodeA opc a7) = a7 :=
  field_of_low (by decide) BitVec.extractLsb'_append_eq_right

theorem haddrOf_encodeM (opc : Byte) (h : BitVec 32) (n : BitVec 16) : haddrOf (encodeM opc h n) = h :=
  field_of_low (by decide) <| field_of_low (by decide) BitVec.extractLsb'_append_eq_right

theorem lenOf_encodeM (opc : Byte) (h : BitVec 32) (n : BitVec 16) : lenOf (encodeM opc h n) = n :=
  field_of_low (by decide) <| field_of_low (by decide) BitVec.extractLsb'_append_eq_left

end Fields

section FormatR

variable (opc : Byte) (a7 : BitVec 7) (qty : Byte) (iaddr : BitVec 24) (isize : BitVec 2) (sendStop : Bool)

theorem stopOf_encodeR : stopOf (encodeR opc a7 qty iaddr isize sendStop) = sendStop :=
  bit_of_low (by decide) <| bit_of_low (by decide) <| bit_above sendStop _

theorem isizeOf_encodeR : isizeOf (encodeR opc a7 qty iaddr isize sendStop) = isize :=
  field_of_low (by decide) <| field_of_low (by decide) <| field_of_low (by decide) BitVec.extractLsb'_append_eq_left

theorem iaddrOf_encodeR : iaddrOf (encodeR opc a7 qty iaddr isize sendStop) = iaddr :=
  field_of_low (by decide) <| field_of_low (by decide) <| field_of_low (by decide) <| field_of_low (by decide)
    BitVec.extractLsb'_append_eq_left

theorem qtyOf_encodeR : qtyOf (encodeR opc a7 qty iaddr isize sendStop) = qty :=
  field_of_low (by decide) <| field_of_low (by decide) <| field_of_low (by decide) <| field_of_low (by decide) <|
    field_of_low (by decide) BitVec.extractLsb'_append_eq_left

theorem addr7Of_encodeR : addr7Of (encodeR opc a7 qty iaddr isize sendStop) = a7 :=
  field_of_low (by decide) <| field_of_low (by decide) <| field_of_low (by decide) <| field_of_low (by decide) <|
    field_of_low (by decide) <| field_of_low (by decide) BitVec.extractLsb'_append_eq_right

end FormatR

/-- The word of a command decodes to the command, if the row of its opcode reads the command from it (R64). -/
theorem decode_encode_of_row {i : Instr} {opc : Byte} {x : BitVec 56} {row : OpRow}
    (hi : Laws.EncodesToRow.Statement i) (hw : encode i = opc ++ x) (hr : rowOf opc = some row)
    (hread : row.read (encode i) = i) : decode (encode i) = .ok i := by
  obtain ⟨row', hrow, hmask⟩ := hi
  obtain rfl : row' = row := by
    rw [hw, opcodeOf_append, hr] at hrow
    exact (Option.some.inj hrow).symm
  simp only [decode, hrow, hmask, if_true, hread]

open Laws in
/-- Decoding inverts encoding, operands included (R61, R64). -/
@[simp] theorem decode_encode (i : Instr) : decode (encode i) = .ok i := by
  cases i with
  | setLow p =>
    exact decode_encode_of_row (opc := 0x01) (EncodesToRow.setLow p) rfl rfl
      (congrArg Instr.setLow (pselOf_encodeBit _ p))
  | setHigh p =>
    exact decode_encode_of_row (opc := 0x02) (EncodesToRow.setHigh p) rfl rfl
      (congrArg Instr.setHigh (pselOf_encodeBit _ p))
  | start ab =>
    exact decode_encode_of_row (opc := 0x10) (EncodesToRow.start ab) rfl rfl
      (congrArg Instr.start (byteOf_encodeB _ ab))
  | repStart ab =>
    exact decode_encode_of_row (opc := 0x11) (EncodesToRow.repStart ab) rfl rfl
      (congrArg Instr.repStart (byteOf_encodeB _ ab))
  | startWait ab =>
    exact decode_encode_of_row (opc := 0x12) (EncodesToRow.startWait ab) rfl rfl
      (congrArg Instr.startWait (byteOf_encodeB _ ab))
  | stop => exact decode_encode_of_row (opc := 0x13) EncodesToRow.stop rfl rfl rfl
  | writeByte v =>
    exact decode_encode_of_row (opc := 0x14) (EncodesToRow.writeByte v) rfl rfl
      (congrArg Instr.writeByte (byteOf_encodeB _ v))
  | readByte last =>
    exact decode_encode_of_row (opc := 0x15) (EncodesToRow.readByte last) rfl rfl
      (congrArg Instr.readByte (flagOf_encodeBit _ last))
  | busBegin => exact decode_encode_of_row (opc := 0x20) EncodesToRow.busBegin rfl rfl rfl
  | busEnd => exact decode_encode_of_row (opc := 0x21) EncodesToRow.busEnd rfl rfl rfl
  | beginTx a7 =>
    exact decode_encode_of_row (opc := 0x22) (EncodesToRow.beginTx a7) rfl rfl
      (congrArg Instr.beginTx (addr7Of_encodeA _ a7))
  | endTx sendStop =>
    exact decode_encode_of_row (opc := 0x23) (EncodesToRow.endTx sendStop) rfl rfl
      (congrArg Instr.endTx (flagOf_encodeBit _ sendStop))
  | write b =>
    exact decode_encode_of_row (opc := 0x24) (EncodesToRow.write b) rfl rfl
      (congrArg Instr.write (byteOf_encodeB _ b))
  | writeBuf haddr len =>
    exact decode_encode_of_row (opc := 0x25) (EncodesToRow.writeBuf haddr len) rfl rfl
      (congrArg₂ Instr.writeBuf (haddrOf_encodeM _ haddr len) (lenOf_encodeM _ haddr len))
  | requestFrom a7 qty iaddr isize sendStop =>
    refine decode_encode_of_row (opc := 0x26) (EncodesToRow.requestFrom a7 qty iaddr isize sendStop) rfl rfl ?_
    simp only [encode, addr7Of_encodeR, qtyOf_encodeR, iaddrOf_encodeR, isizeOf_encodeR, stopOf_encodeR]
  | available => exact decode_encode_of_row (opc := 0x27) EncodesToRow.available rfl rfl rfl
  | read => exact decode_encode_of_row (opc := 0x28) EncodesToRow.read rfl rfl rfl
  | peek => exact decode_encode_of_row (opc := 0x29) EncodesToRow.peek rfl rfl rfl
  | crc8 haddr len =>
    exact decode_encode_of_row (opc := 0x30) (EncodesToRow.crc8 haddr len) rfl rfl
      (congrArg₂ Instr.crc8 (haddrOf_encodeM _ haddr len) (lenOf_encodeM _ haddr len))
  | crcCheck haddr len =>
    exact decode_encode_of_row (opc := 0x31) (EncodesToRow.crcCheck haddr len) rfl rfl
      (congrArg₂ Instr.crcCheck (haddrOf_encodeM _ haddr len) (lenOf_encodeM _ haddr len))

/-- A low part of a word with the bits next above it is a longer low part. -/
theorem extractLsb'_append_low {m n k : Nat} {x : BitVec m} {lo : BitVec n} (h : lo = x.extractLsb' 0 n) :
    x.extractLsb' n k ++ lo = x.extractLsb' 0 (k + n) := by
  rw [h]
  exact BitVec.extractLsb'_append_extractLsb'_eq_extractLsb' n.zero_add.symm

/-- The bytes of a word, first byte highest, make the word (R42). -/
theorem wordOfBytes_wordBytes (w : Word) :
    wordOfBytes (w.extractLsb' 56 8) (w.extractLsb' 48 8) (w.extractLsb' 40 8) (w.extractLsb' 32 8)
      (w.extractLsb' 24 8) (w.extractLsb' 16 8) (w.extractLsb' 8 8) (w.extractLsb' 0 8) = w := by
  unfold wordOfBytes
  refine (?_ : _ = w.extractLsb' 0 64).trans BitVec.extractLsb'_eq_self
  iterate 7 apply extractLsb'_append_low
  rfl

/-- Decoding a word's eight bytes is decoding the word, with the bytes after it left over (R42). -/
theorem decodeBytes_wordBytes (w : Word) (rest : List Byte) :
    decodeBytes (wordBytes w ++ rest) = (decode w).map fun i => (i, rest) := by
  simp only [wordBytes, List.cons_append, List.nil_append, decodeBytes, wordOfBytes_wordBytes]
  cases decode w <;> rfl

end Sys2Proof
end

section
/-! SUPPORT. HMEM and the commands (20_memory.md R45, R47, R50): the fault of a range that leaves HMEM; the host's moves;
computations that commute with a change of the state, the rules for composing them, and the bodies that do not look at
HMEM. -/

namespace Sys2Proof.Machine

/-! ### The range check (R50) -/

/-- `HostMemRange` is raised by the range check alone: no body raises it. -/
theorem runBody_ne_hostMemRange (body : Cmd Result) (s : State) (haddr : BitVec 32) (len : BitVec 16) (t : State) :
    runBody body s ≠ .fault (.hostMemRange haddr len t) := by
  obtain ⟨r, u, -, hrun⟩ | ⟨p, u, -, hrun⟩ := runBody_cases body s
  · rw [hrun]; nofun
  · rw [hrun]; nofun

theorem runOnRange_ne_hostMemRange {haddr : BitVec 32} {len : BitVec 16} {body : List Byte → Cmd Result} {s : State}
    (h : haddr.toNat + len.toNat ≤ s.cfg.hmemSize) (haddr' : BitVec 32) (len' : BitVec 16) (t : State) :
    runOnRange haddr len body s ≠ .fault (.hostMemRange haddr' len' t) := by
  rw [runOnRange_fits h]
  exact runBody_ne_hostMemRange _ s haddr' len' t

/-- The three commands that name an HMEM range run through its check. -/
theorem exec_runOnRange {i : Instr} {haddr : BitVec 32} {len : BitVec 16}
    (hi : i = .writeBuf haddr len ∨ i = .crc8 haddr len ∨ i = .crcCheck haddr len) :
    ∃ body, ∀ s, exec i s = runOnRange haddr len body s := by
  obtain rfl | rfl | rfl := hi
  · exact ⟨fun bytes => do let c ← writeAll bytes 0; pure (resOfCount c), fun _ => rfl⟩
  · exact ⟨fun bytes => pure (resOfByte (crc8 bytes)), fun _ => rfl⟩
  · exact ⟨fun bytes => pure (resOfBool (crcPasses bytes)), fun _ => rfl⟩

/-! ### The host's moves -/

theorem step_wait {s : State} (hf : s.fault = none) (hs : s.script = []) : step s = .next s := by
  simp only [step, advance, hf, hs]

theorem step_move {s : State} {m : HostMove} {rest : List HostMove} (hf : s.fault = none) (hs : s.script = m :: rest) :
    step s = runMove m s := by
  simp only [step, advance, hf, hs]

theorem movedOn_eq {s : State} {m : HostMove} {rest : List HostMove} (hs : s.script = m :: rest) :
    s.movedOn = { s with script := rest } := by
  rw [State.movedOn, hs, List.tail_cons]

/-! ### Computations that commute with a change of the state -/

section Commutes

variable {ε σ α β : Type} {g : σ → σ} {x : EStateM ε σ α} {f : α → EStateM ε σ β}

/-- A result with its state changed. -/
def onState (g : σ → σ) : EStateM.Result ε σ α → EStateM.Result ε σ α
  | .ok a s    => .ok a (g s)
  | .error e s => .error e (g s)

/-- From a state changed by `g`, `x` does what it does from the state itself, and the change is still there after it. -/
def Commutes (g : σ → σ) (x : EStateM ε σ α) : Prop := ∀ s, x (g s) = onState g (x s)

theorem Commutes.pure (a : α) : Commutes g (Pure.pure a : EStateM ε σ α) := fun _ => rfl

theorem Commutes.modify {u : σ → σ} (h : ∀ s, u (g s) = g (u s)) : Commutes g (modify u : EStateM ε σ PUnit) :=
  fun s => congrArg (EStateM.Result.ok PUnit.unit) (h s)

theorem Commutes.bind (hx : Commutes g x) (hf : ∀ a, Commutes g (f a)) : Commutes g (x >>= f) := by
  intro s
  cases hs : x s with
  | ok a t => rw [bind_of_ok hs, bind_of_ok ((hx s).trans (congrArg _ hs)), hf]
  | error e t => rw [bind_of_error hs, bind_of_error ((hx s).trans (congrArg _ hs))]; rfl

/-- A computation and a value made from what it computed. -/
theorem Commutes.answer (hx : Commutes g x) (h : α → β) : Commutes g (do let a ← x; Pure.pure (h a)) :=
  hx.bind fun _ => .pure _

/-- A computation that looks at the state, if it does not see the change. -/
theorem Commutes.get {f : σ → EStateM ε σ β} (hg : ∀ s, f (g s) = f s) (hf : ∀ s, Commutes g (f s)) :
    Commutes g (get >>= f) := by
  intro s
  have hrun : ∀ t, (MonadState.get >>= f) t = f t t := fun _ => rfl
  rw [hrun, hrun, hg]
  exact hf s s

end Commutes

/-- A change of the state that neither the micro-operations (00_scope.md R11) nor the common step (60_exceptions.md R153)
see. -/
structure Unseen (g : State → State) : Prop where
  cfg       : ∀ s, (g s).cfg = s.cfg
  lines     : ∀ s, (g s).lines = s.lines
  withLines : ∀ s l, { g s with lines := l } = g { s with lines := l }
  begun     : ∀ s, (g s).begun = g s.begun
  ended     : ∀ s r, (g s).ended r = g (s.ended r)

section Unseen

variable {g : State → State} (hg : Unseen g)
include hg

theorem onLines_commutes {α : Type} (m : Config → Micro α) : Commutes g (onLines m) := by
  intro s
  have hm : m (g s).cfg (g s).lines = m s.cfg s.lines := by rw [hg.cfg, hg.lines]
  cases hs : m s.cfg s.lines with
  | ok a l =>
    rw [onLines_ok hs, onLines_ok (hm.trans hs), hg.withLines]
    rfl
  | error p l =>
    rw [onLines_error hs, onLines_error (hm.trans hs), hg.withLines]
    rfl

/-- A command whose body commutes with `g` completes from both states or from neither. -/
theorem nextOf_runBody {body : Cmd Result} (hb : Commutes g body) (s : State) :
    nextOf (runBody body (g s)) = (nextOf (runBody body s)).map g := by
  have hbody : body (g s).begun = onState g (body s.begun) := by rw [hg.begun, hb]
  obtain ⟨r, t, hok, hrun⟩ | ⟨p, t, herr, hrun⟩ := runBody_cases body s
  · rw [hrun, runBody_ok (hbody.trans (congrArg _ hok)), hg.ended]
    rfl
  · rw [hrun, runBody_error (hbody.trans (congrArg _ herr))]
    rfl

end Unseen

/-! ### READ and PEEK, by whether a received byte is left (42_transaction.md R124, R125) -/

theorem takeByte_of_lt {s : State} (h : s.rxpos < s.rxlen) :
    takeByte s = .ok (resOfByte (s.rxAt s.rxpos.toNat)) (s.withCursor (s.rxpos + 1) s.rxlen) := if_pos h

theorem takeByte_of_not_lt {s : State} (h : ¬ s.rxpos < s.rxlen) : takeByte s = .ok sentinel s := if_neg h

theorem peekByte_of_lt {s : State} (h : s.rxpos < s.rxlen) :
    peekByte s = .ok (resOfByte (s.rxAt s.rxpos.toNat)) s := if_pos h

theorem peekByte_of_not_lt {s : State} (h : ¬ s.rxpos < s.rxlen) : peekByte s = .ok sentinel s := if_neg h

/-! ### Other contents of HMEM (R45) -/

/-- The state with other contents of HMEM. -/
def State.withHmem (m : Memory) (s : State) : State := { s with hmem := m }

section WithHmem

variable {m : Memory}

theorem unseen_withHmem : Unseen (State.withHmem m) where
  cfg       := fun _ => rfl
  lines     := fun _ => rfl
  withLines := fun _ _ => rfl
  begun     := fun _ => rfl
  ended     := fun _ _ => rfl

theorem onLines_ignoresHmem {α : Type} (f : Config → Micro α) : Commutes (State.withHmem m) (onLines f) :=
  onLines_commutes unseen_withHmem f

theorem addressPhase_ignoresHmem (ab : Byte) : Commutes (State.withHmem m) (addressPhase ab) :=
  .get (fun _ => rfl) fun _ => onLines_ignoresHmem _

theorem beginTx_ignoresHmem (a7 : BitVec 7) : Commutes (State.withHmem m) (beginTx a7) :=
  .bind (addressPhase_ignoresHmem _) fun _ => .modify fun _ => rfl

theorem closeBus_ignoresHmem : Commutes (State.withHmem m) closeBus :=
  .bind (onLines_ignoresHmem _) fun _ => .modify fun _ => rfl

theorem endTx_ignoresHmem (sendStop : Bool) : Commutes (State.withHmem m) (endTx sendStop) := by
  refine .get (fun _ => rfl) fun entry => ?_
  have clear : Commutes (State.withHmem m) (do modify (fun s => s.withErr errNone); pure entry.err : Cmd Byte) :=
    .bind (.modify fun _ => rfl) fun _ => .pure _
  cases sendStop with
  | false => exact clear
  | true => exact .bind closeBus_ignoresHmem fun _ => clear

theorem write_ignoresHmem (b : Byte) : Commutes (State.withHmem m) (write b) :=
  .bind (onLines_ignoresHmem _) fun _ => .bind (.modify fun _ => rfl) fun _ => .pure _

theorem writeEach_ignoresHmem (bs : List Byte) : Commutes (State.withHmem m) (writeEach bs) := by
  induction bs with
  | nil => exact .pure ()
  | cons b bs ih => exact .bind (write_ignoresHmem b) fun _ => ih

theorem internalAddress_ignoresHmem (a7 : BitVec 7) (iaddr : BitVec 24) (n : Nat) :
    Commutes (State.withHmem m) (internalAddress a7 iaddr n) := by
  unfold internalAddress
  split
  · exact .pure _
  · exact .bind (beginTx_ignoresHmem a7) fun _ => .bind (writeEach_ignoresHmem _) fun _ => endTx_ignoresHmem false

theorem readInto_ignoresHmem (n i : Nat) : Commutes (State.withHmem m) (readInto n i) := by
  induction n generalizing i with
  | zero => exact .pure ()
  | succ n ih => exact .bind (onLines_ignoresHmem _) fun _ => .bind (.modify fun _ => rfl) fun _ => ih (i + 1)

theorem endRequest_ignoresHmem (sendStop : Bool) : Commutes (State.withHmem m) (endRequest sendStop) := by
  cases sendStop with
  | false => exact .modify fun _ => rfl
  | true => exact closeBus_ignoresHmem

theorem readPhase_ignoresHmem (a7 : BitVec 7) (q : Nat) (e : Byte) (sendStop : Bool) :
    Commutes (State.withHmem m) (readPhase a7 q e sendStop) :=
  .bind (addressPhase_ignoresHmem _) fun _ => .bind (readInto_ignoresHmem q 0) fun _ =>
    .bind (endRequest_ignoresHmem sendStop) fun _ => .bind (.modify fun _ => rfl) fun _ => .pure _

theorem requestFrom_ignoresHmem (a7 : BitVec 7) (qty : Byte) (iaddr : BitVec 24) (n : Nat) (sendStop : Bool) :
    Commutes (State.withHmem m) (requestFrom a7 qty iaddr n sendStop) :=
  .bind (internalAddress_ignoresHmem a7 iaddr n) fun _ => .get (fun _ => rfl) fun _ =>
    readPhase_ignoresHmem a7 _ _ sendStop

theorem busBegin_ignoresHmem : Commutes (State.withHmem m) busBegin :=
  .bind (.modify fun _ => rfl) fun _ => .bind (onLines_ignoresHmem _) fun _ => .bind (onLines_ignoresHmem _) fun _ =>
    .bind (onLines_ignoresHmem _) fun _ => .bind (onLines_ignoresHmem _) fun _ => .pure _

theorem takeByte_ignoresHmem : Commutes (State.withHmem m) takeByte := by
  intro s
  by_cases h : s.rxpos < s.rxlen
  · rw [takeByte_of_lt h, takeByte_of_lt (s := s.withHmem m) h]; rfl
  · rw [takeByte_of_not_lt h, takeByte_of_not_lt (s := s.withHmem m) h]; rfl

theorem peekByte_ignoresHmem : Commutes (State.withHmem m) peekByte := by
  intro s
  by_cases h : s.rxpos < s.rxlen
  · rw [peekByte_of_lt h, peekByte_of_lt (s := s.withHmem m) h]; rfl
  · rw [peekByte_of_not_lt h, peekByte_of_not_lt (s := s.withHmem m) h]; rfl

/-- R45: for a command that names no HMEM range, other contents of HMEM change nothing but HMEM itself. -/
theorem nextOf_exec_withHmem {i : Instr} (hi : Claims.readsNoHmem i = true) (s : State) :
    nextOf (exec i (s.withHmem m)) = (nextOf (exec i s)).map (State.withHmem m) := by
  have body {b : Cmd Result} (hb : Commutes (State.withHmem m) b) := nextOf_runBody unseen_withHmem hb s
  cases i with
  | setLow p => exact body ((onLines_ignoresHmem _).answer _)
  | setHigh p => exact body ((onLines_ignoresHmem fun c => setHigh c p).answer fun _ => 0)
  | start ab => exact body ((onLines_ignoresHmem _).answer _)
  | repStart ab => exact body ((onLines_ignoresHmem _).answer _)
  | startWait ab => exact body ((onLines_ignoresHmem _).answer _)
  | stop => exact body ((onLines_ignoresHmem _).answer _)
  | writeByte v => exact body ((onLines_ignoresHmem _).answer _)
  | readByte last => exact body ((onLines_ignoresHmem _).answer _)
  | busBegin => exact body (busBegin_ignoresHmem.answer _)
  | busEnd => exact body (.pure _)
  | beginTx a7 => exact body ((beginTx_ignoresHmem a7).answer _)
  | endTx sendStop => exact body ((endTx_ignoresHmem sendStop).answer _)
  | write b => exact body ((write_ignoresHmem b).answer _)
  | writeBuf haddr len => cases hi
  | requestFrom a7 qty iaddr isize sendStop => exact body (requestFrom_ignoresHmem a7 qty iaddr isize.toNat sendStop)
  | available => exact body (.get (fun _ => rfl) fun _ => .pure _)
  | read => exact body takeByte_ignoresHmem
  | peek => exact body peekByte_ignoresHmem
  | crc8 haddr len => cases hi
  | crcCheck haddr len => cases hi

end WithHmem

end Sys2Proof.Machine
end

section
/-! The obligations of 20_memory.md. -/

namespace Sys2Proof.Proofs

open Sys2Proof.Machine Sys2Proof.Claims

/-- Settles O1: each field is read back from the word, and the word from its bytes. -/
theorem decodeOfEncodeGivesTheCommand : Obligations.DecodeOfEncodeGivesTheCommand := by
  refine fun i => ⟨decode_encode i, fun rest => ?_⟩
  rw [decodeBytes_wordBytes, decode_encode]
  rfl

/-- Settles O9: the three commands are `runOnRange`, whose check faults, and whose bodies raise `PushPullHigh` alone. -/
theorem rangeOutsideHmemFaults : Obligations.RangeOutsideHmemFaults := by
  intro i h n s hi
  obtain ⟨body, hbody⟩ := exec_runOnRange hi
  rw [hbody]
  exact ⟨runOnRange_fault, runOnRange_ne_hostMemRange⟩

/-- Settles O11: `advance` waits or makes the move at the head of the host's script. -/
theorem hostMovesBetweenCommands : Obligations.HostMovesBetweenCommands := by
  intro s hf
  refine ⟨step_wait hf, fun a b rest hs => ⟨fun ha => ?_, fun ha => ?_⟩, fun v rest hs => ?_⟩
  · refine ⟨Memory.write s.hmem a b, ?_, write_wf s.hmem a b, fun hwf x => read_write s.hmem a b x hwf⟩
    rw [step_move hf hs]
    simp only [runMove, hostStore, if_pos ha, movedOn_eq hs]
  · rw [step_move hf hs]
    exact if_neg (Nat.not_lt.mpr ha)
  · rw [step_move hf hs]
    simp only [runMove, hostSetIE, movedOn_eq hs]

/-- Settles O53: no body but those of the three commands looks at HMEM. -/
theorem onlyThreeCommandsReadHmem : Obligations.OnlyThreeCommandsReadHmem :=
  fun _ s _ hi => nextOf_exec_withHmem hi s

end Sys2Proof.Proofs
end

section
/-! SUPPORT. What a word that matches a row of the opcode map says (30_encoding.md R61, R63, R64): its opcode byte, its
reserved bits, and that the row's fields and format make the word again. -/

namespace Sys2Proof

/-- Decoding gives the command that the row of the opcode reads from a word whose reserved bits are 0 (R64). -/
theorem decode_eq_ok_iff {w : Word} {i : Instr} :
    decode w = .ok i ↔
      ∃ row, rowOf (opcodeOf w) = some row ∧ w &&& row.fmt.mask = row.matchWord ∧ row.read w = i := by
  unfold decode
  cases rowOf (opcodeOf w) with
  | none => simp
  | some row => by_cases h : w &&& row.fmt.mask = row.matchWord <;> simp [h]

theorem mem_of_rowOf {opc : Byte} {row : OpRow} (h : rowOf opc = some row) : row ∈ opTable :=
  List.mem_of_find?_eq_some h

theorem opc_of_rowOf {opc : Byte} {row : OpRow} (h : rowOf opc = some row) : row.opc = opc := by
  simpa only [beq_iff_eq] using List.find?_some h

/-! ### The fields of a word of a row -/

section Fields

variable {m start len n k : Nat} {w mask : Word} {opc : Byte}

/-- A field that the mask covers is that of the masked word. -/
theorem field_of_mask (hmask : mask.extractLsb' start len = BitVec.allOnes len) :
    (w &&& mask).extractLsb' start len = w.extractLsb' start len := by
  rw [BitVec.extractLsb'_and, hmask, BitVec.and_allOnes]

/-- Every format's mask covers the opcode byte. -/
theorem extractLsb'_mask_opcode (f : Format) : f.mask.extractLsb' 56 8 = BitVec.allOnes 8 := by
  cases f <;> rfl

/-- A word that matches has the opcode byte of the match value. -/
theorem opcodeOf_of_match {f : Format} (h : w &&& f.mask = opc ++ 0#56) : opcodeOf w = opc := by
  rw [← opcodeOf_append opc 0#56, ← h]
  exact (field_of_mask (extractLsb'_mask_opcode f)).symm

/-- A word that matches has zeros in a field that the mask covers. -/
theorem reserved_of_match (h : w &&& mask = opc ++ 0#56) (hfits : start + len ≤ 56)
    (hmask : mask.extractLsb' start len = BitVec.allOnes len) : 0#len = w.extractLsb' start len := by
  rw [← field_of_mask hmask, h]
  exact (field_of_low hfits BitVec.extractLsb'_zero).symm

/-- A field of a word put above the low part of the word that ends where the field begins. -/
theorem field_append_low {x : BitVec m} {field : BitVec k} {lo : BitVec n} (hfield : field = x.extractLsb' n k)
    (hlo : lo = x.extractLsb' 0 n) : field ++ lo = x.extractLsb' 0 (k + n) := by
  rw [hfield]
  exact extractLsb'_append_low hlo

/-- A word that matches is the opcode byte of the match value above its 56 low bits. -/
theorem append_low_of_match {f : Format} {lo : BitVec 56} (h : w &&& f.mask = opc ++ 0#56)
    (hlo : lo = w.extractLsb' 0 56) : opc ++ lo = w :=
  (field_append_low (opcodeOf_of_match h).symm hlo).trans BitVec.extractLsb'_eq_self

end Fields

/-! ### Each format makes its word again from the fields read from it (R61) -/

section Formats

variable {w : Word} {opc : Byte}

/-- A bit of a word as a field of width 1. -/
theorem ofBool_getLsbD (w : Word) (k : Nat) : BitVec.ofBool (w.getLsbD k) = w.extractLsb' k 1 := by
  rw [BitVec.getLsbD_eq_extractLsb']
  generalize w.extractLsb' k 1 = b
  decide +revert

theorem ofBool_flagOf (w : Word) : BitVec.ofBool (flagOf w) = w.extractLsb' 0 1 := ofBool_getLsbD w 0

theorem ofBool_stopOf (w : Word) : BitVec.ofBool (stopOf w) = w.extractLsb' 42 1 := ofBool_getLsbD w 42

theorem pselBit_pselOf (w : Word) : pselBit (pselOf w) = w.extractLsb' 0 1 := by
  rw [← ofBool_getLsbD, pselOf]
  cases w.getLsbD 0 <;> rfl

theorem encodeN_of_match (h : w &&& Format.n.mask = opc ++ 0#56) : encodeN opc = w :=
  append_low_of_match h (reserved_of_match h (by decide) rfl)

/-- Formats P and L have the same field and the same mask. -/
theorem encodeBit_of_match {b : BitVec 1} (hb : b = w.extractLsb' 0 1) (h : w &&& Format.p.mask = opc ++ 0#56) :
    encodeBit opc b = w :=
  append_low_of_match h <| field_append_low (reserved_of_match h (by decide) rfl) hb

theorem encodeB_byteOf (h : w &&& Format.b.mask = opc ++ 0#56) : encodeB opc (byteOf w) = w :=
  append_low_of_match h <| field_append_low (reserved_of_match h (by decide) rfl) rfl

theorem encodeA_addr7Of (h : w &&& Format.a.mask = opc ++ 0#56) : encodeA opc (addr7Of w) = w :=
  append_low_of_match h <| field_append_low (reserved_of_match h (by decide) rfl) rfl

theorem encodeM_fields (h : w &&& Format.m.mask = opc ++ 0#56) : encodeM opc (haddrOf w) (lenOf w) = w :=
  append_low_of_match h <| field_append_low (reserved_of_match h (by decide) rfl) <| field_append_low rfl rfl

theorem encodeR_fields (h : w &&& Format.r.mask = opc ++ 0#56) :
    encodeR opc (addr7Of w) (qtyOf w) (iaddrOf w) (isizeOf w) (stopOf w) = w :=
  append_low_of_match h <| field_append_low (reserved_of_match h (by decide) rfl) <|
    field_append_low (ofBool_stopOf w) <| field_append_low rfl <| field_append_low rfl <| field_append_low rfl <|
    field_append_low (reserved_of_match h (by decide) rfl) rfl

end Formats

/-- The command that a row reads from a word that matches it has that word (R63, R64). -/
theorem encode_read_of_match {w : Word} {row : OpRow} (hrow : row ∈ opTable)
    (h : w &&& row.fmt.mask = row.matchWord) : encode (row.read w) = w := by
  revert row
  simp only [opTable, List.forall_mem_cons]
  exact ⟨encodeBit_of_match (pselBit_pselOf w), encodeBit_of_match (pselBit_pselOf w), encodeB_byteOf, encodeB_byteOf,
    encodeB_byteOf, encodeN_of_match, encodeB_byteOf, encodeBit_of_match (ofBool_flagOf w), encodeN_of_match,
    encodeN_of_match, encodeA_addr7Of, encodeBit_of_match (ofBool_flagOf w), encodeB_byteOf, encodeM_fields,
    encodeR_fields, encodeN_of_match, encodeN_of_match, encodeN_of_match, encodeM_fields, encodeM_fields, nofun⟩

/-! ### The match, bit by bit (R64, R65) -/

/-- A word matches a row when it has the row's opcode and no 1 in a low bit that the mask covers. -/
theorem match_iff {w : Word} {row : OpRow} :
    w &&& row.fmt.mask = row.matchWord ↔
      opcodeOf w = row.opc ∧ ∀ k < 56, row.fmt.mask.getLsbD k = true → w.getLsbD k = false := by
  refine ⟨fun h => ⟨opcodeOf_of_match h, fun k hk hmask => ?_⟩, fun ⟨hopc, hlow⟩ => ?_⟩
  · have hbit : (w &&& row.fmt.mask).getLsbD k = false := by rw [h]; exact bit_of_low hk BitVec.getLsbD_zero
    rwa [BitVec.getLsbD_and, hmask, Bool.and_true] at hbit
  · have hbyte : row.opc = (w &&& row.fmt.mask).extractLsb' 56 8 :=
      hopc.symm.trans (field_of_mask (extractLsb'_mask_opcode row.fmt)).symm
    have hzero : 0#56 = (w &&& row.fmt.mask).extractLsb' 0 56 := by
      refine BitVec.eq_of_getLsbD_eq fun k hk => ?_
      rw [BitVec.getLsbD_extractLsb', decide_eq_true hk, Bool.true_and, Nat.zero_add, BitVec.getLsbD_and,
        BitVec.getLsbD_zero]
      cases hmask : row.fmt.mask.getLsbD k with
      | false => rw [Bool.and_false]
      | true => rw [hlow k hk hmask, Bool.false_and]
    exact BitVec.extractLsb'_eq_self.symm.trans (field_append_low hbyte hzero).symm

end Sys2Proof
end

section
/-! SUPPORT. The reserved bits and the unassigned opcodes that the statements list from 30_encoding.md R61, R65 (a) are
those of the decoder's opcode map; the commands of a source line (R67) and their words. -/

namespace Sys2Proof

open Sys2Proof.Machine Sys2Proof.Claims

theorem lt_of_reservedBit {opc k : Nat} (h : reservedBit opc k = true) : k < 56 := by
  unfold reservedBit at h
  split_ifs at h <;> simp only [Bool.and_eq_true, Bool.or_eq_true, decide_eq_true_eq, beq_iff_eq] at h <;> omega

/-- The bits R61 reserves are the low bits of the row's mask. -/
theorem reservedBit_eq_mask {row : OpRow} (hrow : row ∈ opTable) {k : Nat} (hk : k < 56) :
    reservedBit row.opc.toNat k = row.fmt.mask.getLsbD k := by
  have h : ∀ row ∈ opTable, ∀ k < 56, reservedBit row.opc.toNat k = row.fmt.mask.getLsbD k := by decide +kernel
  exact h row hrow k hk

/-- An opcode is unassigned when it has no row (R63, R65). -/
theorem isNone_rowOf : ∀ opc : Byte, (rowOf opc).isNone = unassigned opc.toNat := by
  decide +kernel

theorem toNat_opcodeOf (w : Word) : (opcodeOf w).toNat = w.toNat / 2 ^ 56 := by
  rw [opcodeOf, BitVec.extractLsb'_toNat, Nat.shiftRight_eq_div_pow]
  omega

/-- A word with the opcode of a row fails to match it exactly by a 1 in a reserved bit (R65 (b)). -/
theorem not_match_iff {w : Word} {row : OpRow} (hrow : rowOf (opcodeOf w) = some row) :
    ¬ w &&& row.fmt.mask = row.matchWord ↔
      ∃ k, reservedBit (opcodeOf w).toNat k = true ∧ w.getLsbD k = true := by
  have hmask {k : Nat} (hk : k < 56) := reservedBit_eq_mask (mem_of_rowOf hrow) hk
  rw [match_iff, ← opc_of_rowOf hrow]
  constructor
  · intro h
    simp only [true_and, not_forall, Bool.not_eq_false] at h
    obtain ⟨k, hk, hm, hbit⟩ := h
    exact ⟨k, (hmask hk).trans hm, hbit⟩
  · rintro ⟨k, hr, hbit⟩ ⟨-, hlow⟩
    have hk := lt_of_reservedBit hr
    exact absurd hbit (Bool.eq_false_iff.mp (hlow k hk ((hmask hk).symm.trans hr)))

/-- A line that assembles to commands gives the words of those commands. -/
theorem assembleWords_of_line {line : String} {is : List Instr} (h : assembleLine line = some is) :
    assembleWords line = some (is.map encode) :=
  congrArg (Option.map (List.map encode)) h

/-- A line that assembles to one command gives its word, which decodes to it. -/
theorem assembleWords_and_decode {line : String} {i : Instr} {w : Word} (h : assembleLine line = some [i])
    (hw : encode i = w) : assembleWords line = some [w] ∧ decode w = .ok i :=
  hw ▸ ⟨assembleWords_of_line h, decode_encode i⟩

end Sys2Proof
end

section
/-! The obligations of 30_encoding.md. -/

namespace Sys2Proof.Proofs

open Sys2Proof.Machine Sys2Proof.Claims

/-- Settles O2: the word matches the row it was read by, and each format makes its word again from the fields. -/
theorem decodedWordIsTheEncoding : Obligations.DecodedWordIsTheEncoding := by
  intro w i h
  obtain ⟨row, hrow, hmatch, rfl⟩ := decode_eq_ok_iff.mp h
  exact encode_read_of_match (mem_of_rowOf hrow) hmatch

/-- Settles O3: a word with no row has an unassigned opcode; one with a row decodes unless it fails to match the row. -/
theorem decodeRefusesExactlyTheIllegalWords : Obligations.DecodeRefusesExactlyTheIllegalWords := by
  intro w
  have hassigned := isNone_rowOf (opcodeOf w)
  simp only [ne_eq, decode_eq_ok_iff]
  rw [← toNat_opcodeOf, ← hassigned]
  cases hrow : rowOf (opcodeOf w) with
  | none => simp
  | some row =>
    rw [← not_match_iff hrow]
    simp

/-- Settles O4: two rows that a word matches both have the word's opcode byte; the rest is a finite check. -/
theorem opcodeMapIsTheSpecs : Obligations.OpcodeMapIsTheSpecs :=
  ⟨by decide +kernel, fun _ _ _ _ _ h₁ h₂ => (opcodeOf_of_match h₁).symm.trans (opcodeOf_of_match h₂),
    by decide +kernel, isNone_rowOf⟩

/-- Settles O5: each line assembles to its command, and the command's word decodes to it. -/
theorem specWordsDecode : Obligations.SpecWordsDecode := by
  refine ⟨?_, ?_, ?_, ?_, ?_, ?_, ?_, ?_, ?_, ?_⟩ <;> exact assembleWords_and_decode (by decide +kernel) rfl

/-- Settles O6: each line assembles to the commands named here, whose words are those of the statement. -/
theorem assemblerLinesOfTheSpec : Obligations.AssemblerLinesOfTheSpec := by
  refine ⟨?_, ?_, ?_, ?_, ?_, ?_, ?_, ?_, ?_, ?_, ?_⟩
  · exact assembleWords_of_line (is := [.endTx true]) (by decide +kernel)
  · exact assembleWords_of_line (is := [.requestFrom 0x40 5 0 0 true]) (by decide +kernel)
  · exact assembleWords_of_line (is := [.requestFrom 0x40 2 0 0 false]) (by decide +kernel)
  · exact assembleWords_of_line (is := [.requestFrom 0x40 1 5 1 true]) (by decide +kernel)
  · exact assembleWords_of_line (is := [.start 0x80]) (by decide +kernel)
  · exact assembleWords_of_line (is := [.start 0x81]) (by decide +kernel)
  · exact assembleWords_of_line (is := [.repStart 0x81]) (by decide +kernel)
  · exact assembleWords_of_line (is := [.endTx false]) (by decide +kernel)
  · exact assembleWords_of_line (is := [.beginTx 0x40, .endTx true]) (by decide +kernel)
  · exact assembleWords_of_line (is := [.write 0x10, .write 0x00]) (by decide +kernel)
  · decide +kernel

end Sys2Proof.Proofs
end

section
/-! SUPPORT. One pin operation as a command (40_gpio.md R71 to R74): when a `SetLow` raises nothing and what it makes of
the pin, and the state in which a masked pin write ends the command. -/

namespace Sys2Proof.Machine

theorem pushesHigh_eq_false_iff {c : Config} {v : PinState} :
    pushesHigh c v = false ↔ c.pullup = true ∨ v.out = false := by
  simp [pushesHigh, or_iff_not_imp_left]

theorem pushesHigh_eq_true_iff {c : Config} {v : PinState} :
    pushesHigh c v = true ↔ c.pullup = false ∧ v.out = true := by
  simp [pushesHigh]

theorem pu_lowered (c : Config) (v : PinState) : (lowered c v).pu = v.pu := by
  cases hp : c.pullup <;> simp [lowered, hp]

/-- A `SetLow` that raises nothing leaves the line pulled low, its pull-up as before (R71). -/
theorem lowered_eq {c : Config} {v : PinState} (h : pushesHigh c v = false) :
    lowered c v = { dir := .output, out := false, pu := v.pu } := by
  rw [← dir_lowered c v, ← out_lowered h, ← pu_lowered c v]

theorem pin_begun (s : State) (p : Pin) : s.begun.lines.pin p = s.lines.pin p := by
  cases p <;> rfl

/-- The state after a command whose body is one masked pin write (R77, R153). -/
def State.afterPinWrite (s : State) (p : Pin) (v : PinState) (e : Event) : State :=
  { s with
    busy := false
    res := 0
    lines := { s.lines.setPin p v with ie := ieAtExit s.cfg s.lines.ie, events := [e] } }

theorem maskedPinWrite_ended (s : State) (p : Pin) (v : PinState) (e : Event) :
    (({ s.begun with lines := maskedPinWrite s.cfg p v e s.begun.lines } : State).ended 0) = s.afterPinWrite p v e := by
  cases p <;> rfl

theorem exec_setLow_next {p : Pin} {s : State} (h : pushesHigh s.cfg (s.lines.pin p) = false) :
    exec (.setLow p) s = .next (s.afterPinWrite p (lowered s.cfg (s.lines.pin p)) (.low p)) := by
  rw [← pin_begun] at h
  rw [← maskedPinWrite_ended, ← pin_begun]
  exact runBody_bind_ok (onLines_ok (setLow_ok h))

theorem exec_setLow_fault {p : Pin} {s : State} (h : pushesHigh s.cfg (s.lines.pin p) = true) :
    exec (.setLow p) s = .fault (.pushPullHigh p (s.raisedAtOnce .pushPullHigh)) := by
  rw [← pin_begun] at h
  exact runBody_bind_error (onLines_error (setLow_error h))

theorem exec_setHigh (p : Pin) (s : State) :
    exec (.setHigh p) s = .next (s.afterPinWrite p (released s.cfg) (.rel p)) := by
  rw [← maskedPinWrite_ended]
  exact runBody_bind_ok (f := fun _ => 0) (onLines_ok (f := fun c => setHigh c p) (setHigh_run p))

end Sys2Proof.Machine
end

section
/-! The obligations of 40_gpio.md. -/

namespace Sys2Proof.Proofs

open Sys2Proof.Machine Sys2Proof.Claims

/-- Settles O18: the line may be lowered exactly where the `SetLow` would not push it high. -/
theorem setLowPullsTheLineLow : Obligations.SetLowPullsTheLineLow := by
  intro p s
  constructor
  · intro h
    have hlow := pushesHigh_eq_false_iff.mpr h
    rw [exec_setLow_next hlow, lowered_eq hlow]
    rfl
  · intro hpullup hout
    exact exec_setLow_fault (pushesHigh_eq_true_iff.mpr ⟨hpullup, hout⟩)

/-- Settles O19: a `SetHigh` raises nothing, whatever the pin's state. -/
theorem setHighReleasesTheLine : Obligations.SetHighReleasesTheLine :=
  exec_setHigh

end Sys2Proof.Proofs
end

section
/-! SUPPORT. The six commands of the bit engine (41_bit_engine.md): each is one computation on the lines (R85), the next
state of each that completes, and the fault of each that does not. -/

namespace Sys2Proof.Machine

open Sys2Proof.Claims

theorem lowerable_iff_mayLower {s : State} : Lowerable s ↔ MayLower s .sda ∧ MayLower s .scl :=
  and_congr pushesHigh_eq_false_iff pushesHigh_eq_false_iff

theorem pushesHigh_of_not_mayLower {s : State} {p : Pin} (h : ¬ MayLower s p) :
    pushesHigh s.cfg (s.lines.pin p) = true :=
  Bool.eq_true_of_not_eq_false fun hf => h (pushesHigh_eq_false_iff.mp hf)

theorem resOfBool_not (b : Bool) : resOfBool (!b) = if b then 0 else 1 := by
  cases b <;> rfl

/-! ### Commands that are one computation on the lines (R85) -/

section OneComputation

variable {α : Type} {m : Config → Micro α} {f : α → Result} {s : State}

/-- Where the computation completes, the command moved the lines and did nothing else. -/
theorem runBody_lines {a : α} {d k : PinState} {n : Nat} {es : List Event}
    (h : m s.cfg s.begun.lines = .ok a (s.begun.lines.moved s.cfg d k n es)) :
    runBody (do let v ← onLines m; pure (f v)) s = .next (s.movedTo d k n es (f a)) := by
  rw [← moved_ended]
  exact runBody_bind_ok (onLines_ok h)

/-- A computation that faults at its first micro-operation stops the command before any effect (60_exceptions.md R154). -/
theorem runBody_pushFault {p : Pin} (h : m s.cfg s.begun.lines = .error p s.begun.lines) :
    runBody (do let v ← onLines m; pure (f v)) s = pushFault p s :=
  runBody_bind_error (onLines_error h)

/-- A computation that faults as a START does stops the command with START's fault (R154). -/
theorem runBody_startFault {ab : Byte}
    (hm : ∀ p l, start s.cfg ab s.begun.lines = .error p l → m s.cfg s.begun.lines = .error p l)
    (h : ¬ (MayLower s .sda ∧ MayLower s .scl)) :
    runBody (do let v ← onLines m; pure (f v)) s = startFault s := by
  rw [← lowerable_iff_mayLower] at h
  cases hd : pushesHigh s.cfg s.lines.sda with
  | true =>
    obtain ⟨-, hout⟩ := pushesHigh_eq_true_iff.mp hd
    rw [startFault, if_pos hout]
    exact runBody_pushFault (hm _ _ (start_error_sda hd))
  | false =>
    have hk : pushesHigh s.cfg s.lines.scl = true := by
      by_contra hk
      exact h ⟨hd, Bool.eq_false_of_not_eq_true hk⟩
    obtain ⟨hpullup, -⟩ := pushesHigh_eq_true_iff.mp hk
    have hout : s.lines.sda.out = false := (pushesHigh_eq_false_iff.mp hd).resolve_left (by simp [hpullup])
    rw [runBody_bind_error (onLines_error (hm _ _ (start_error_scl hd hk))), startFault, hout]
    simp [lowered, hpullup, State.raised, State.begun]

/-- A command of this form that completes changed the lines, BUSY and the result alone. -/
theorem eq_of_runBody_lines_next {t : State} (h : runBody (do let v ← onLines m; pure (f v)) s = .next t) :
    t = { s with busy := false, res := t.res, lines := t.lines } := by
  cases hm : m s.cfg s.begun.lines with
  | ok a l =>
    rw [runBody_bind_ok (onLines_ok hm)] at h
    cases h
    rfl
  | error p l =>
    rw [runBody_bind_error (onLines_error hm)] at h
    cases h

end OneComputation

/-- The six commands of the engine are of this form. -/
theorem exec_engine {i : Instr} (hi : isEngine i = true) :
    ∃ (α : Type) (m : Config → Micro α) (f : α → Result),
      ∀ s, exec i s = runBody (do let v ← onLines m; pure (f v)) s := by
  cases i with
  | start ab => exact ⟨_, fun c => start c ab, resOfBool, fun _ => rfl⟩
  | repStart ab => exact ⟨_, fun c => repStart c ab, resOfBool, fun _ => rfl⟩
  | startWait ab => exact ⟨_, fun c => startWait c ab, resOfBool, fun _ => rfl⟩
  | stop => exact ⟨_, stop, fun _ => 0, fun _ => rfl⟩
  | writeByte v => exact ⟨_, fun c => writeByte c v, resOfBool, fun _ => rfl⟩
  | readByte last => exact ⟨_, fun c => readByte c last, resOfByte, fun _ => rfl⟩
  | _ => cases hi

/-- The state with other values in the five elements of the transaction layer's handle. -/
def State.withHandle (e : Byte) (x : Bool) (b : List Byte) (p n : Byte) (s : State) : State :=
  { s with err := e, txing := x, rxbuf := b, rxpos := p, rxlen := n }

theorem unseen_withHandle (e : Byte) (x : Bool) (b : List Byte) (p n : Byte) : Unseen (State.withHandle e x b p n) where
  cfg       := fun _ => rfl
  lines     := fun _ => rfl
  withLines := fun _ _ => rfl
  begun     := fun _ => rfl
  ended     := fun _ _ => rfl

/-! ### The next state of each command -/

section Commands

variable {s t : State} {ab v : Byte}

theorem exec_writeByte_next (h : v.getLsbD 7 = true ∨ MayLower s .sda) :
    exec (.writeByte v) s = .next (s.movedTo (held s.cfg) (held s.cfg) 1 (writeByteEvents v (s.lines.answer 0))
      (if s.lines.answer 0 then 0 else 1)) := by
  rw [← resOfBool_not]
  refine runBody_lines (writeByte_run fun hv => ?_)
  exact pushesHigh_eq_false_iff.mpr (h.resolve_left (ne_true_of_eq_false hv))

theorem exec_writeByte_fault (hv : v.getLsbD 7 = false) (h : ¬ MayLower s .sda) :
    exec (.writeByte v) s = pushFault .sda s :=
  runBody_pushFault (writeByte_error hv (pushesHigh_of_not_mayLower h))

theorem exec_readByte_next (last : Bool) (s : State) :
    exec (.readByte last) s = .next (s.movedTo (released s.cfg) (held s.cfg) 8
      (readByteEvents last (s.lines.answersFrom 0 8)) (resOfByte (s.lines.byteAt 0))) :=
  runBody_lines (readByte_run s.cfg last s.begun.lines)

theorem exec_start_next (h : MayLower s .sda ∧ MayLower s .scl) :
    exec (.start ab) s = .next (s.movedTo (held s.cfg) (held s.cfg) 1 (startEvents ab (s.lines.answer 0))
      (if s.lines.answer 0 then 0 else 1)) := by
  obtain ⟨hd, hk⟩ := lowerable_iff_mayLower.mpr h
  rw [← resOfBool_not]
  exact runBody_lines (start_run hd hk)

theorem exec_start_fault (h : ¬ (MayLower s .sda ∧ MayLower s .scl)) : exec (.start ab) s = startFault s :=
  runBody_startFault (fun _ _ => id) h

theorem exec_repStart_next (ab : Byte) (s : State) :
    exec (.repStart ab) s = .next (s.movedTo (held s.cfg) (held s.cfg) 1 (repStartEvents ab (s.lines.answer 0))
      (if s.lines.answer 0 then 0 else 1)) := by
  rw [← resOfBool_not]
  exact runBody_lines (repStart_run s.cfg ab s.begun.lines)

theorem exec_startWait_acknowledged (h : MayLower s .sda ∧ MayLower s .scl) {m : Nat} (hm : m < s.cfg.nSw)
    (hrefused : ∀ j < m, s.lines.answer j = true) (hack : s.lines.answer m = false) :
    exec (.startWait ab) s = .next (s.movedTo (held s.cfg) (held s.cfg) (m + 1)
      (refusedAttempts ab m ++ startEvents ab false) 1) := by
  obtain ⟨hd, hk⟩ := lowerable_iff_mayLower.mpr h
  exact runBody_lines (m := fun c => startWait c ab) (f := resOfBool)
    (startAttempts_success m s.cfg.nSw s.begun.lines hd hk hrefused hack hm)

theorem exec_startWait_refused (h : MayLower s .sda ∧ MayLower s .scl) (hn : 1 ≤ s.cfg.nSw)
    (hrefused : ∀ j < s.cfg.nSw, s.lines.answer j = true) :
    exec (.startWait ab) s = .next (s.movedTo (released s.cfg) (released s.cfg) s.cfg.nSw
      (refusedAttempts ab s.cfg.nSw) 0) := by
  obtain ⟨hd, hk⟩ := lowerable_iff_mayLower.mpr h
  exact runBody_lines (m := fun c => startWait c ab) (f := resOfBool)
    (startAttempts_failure s.cfg.nSw s.begun.lines hd hk hrefused hn)

/-- START_WAIT faults as its first attempt does (R93, R154). -/
theorem exec_startWait_fault (hn : 1 ≤ s.cfg.nSw) (h : ¬ (MayLower s .sda ∧ MayLower s .scl)) :
    exec (.startWait ab) s = startFault s := by
  refine runBody_startFault (ab := ab) (fun p l hstart => ?_) h
  obtain ⟨n, hn⟩ := Nat.exists_eq_add_of_le' hn
  rw [startWait, hn]
  exact bind_of_error hstart

theorem exec_stop_next (h : MayLower s .sda) :
    exec .stop s = .next (s.movedTo (released s.cfg) (released s.cfg) 0 stopEvents 0) :=
  runBody_lines (f := fun _ => 0) (stop_run (l := s.begun.lines) (pushesHigh_eq_false_iff.mpr h))

theorem exec_stop_fault (h : ¬ MayLower s .sda) : exec .stop s = pushFault .sda s :=
  runBody_pushFault (f := fun _ => 0) (stop_error (pushesHigh_of_not_mayLower h))

/-! ### What a command that completed did -/

theorem pushFault_ne_next (p : Pin) (s t : State) : pushFault p s ≠ .next t := nofun

theorem startFault_ne_next (s t : State) : startFault s ≠ .next t := by
  unfold startFault
  split <;> nofun

theorem eq_of_exec_start_next (h : exec (.start ab) s = .next t) :
    t = s.movedTo (held s.cfg) (held s.cfg) 1 (startEvents ab (s.lines.answer 0))
      (if s.lines.answer 0 then 0 else 1) := by
  by_cases hl : MayLower s .sda ∧ MayLower s .scl
  · rw [exec_start_next hl] at h
    cases h
    rfl
  · rw [exec_start_fault hl] at h
    exact absurd h (startFault_ne_next s t)

theorem eq_of_exec_repStart_next (h : exec (.repStart ab) s = .next t) :
    t = s.movedTo (held s.cfg) (held s.cfg) 1 (repStartEvents ab (s.lines.answer 0))
      (if s.lines.answer 0 then 0 else 1) := by
  rw [exec_repStart_next] at h
  cases h
  rfl

theorem eq_of_exec_writeByte_next (h : exec (.writeByte v) s = .next t) :
    t = s.movedTo (held s.cfg) (held s.cfg) 1 (writeByteEvents v (s.lines.answer 0))
      (if s.lines.answer 0 then 0 else 1) := by
  by_cases hl : v.getLsbD 7 = true ∨ MayLower s .sda
  · rw [exec_writeByte_next hl] at h
    cases h
    rfl
  · obtain ⟨hv, hd⟩ := not_or.mp hl
    rw [exec_writeByte_fault (Bool.eq_false_of_not_eq_true hv) hd] at h
    exact absurd h (pushFault_ne_next .sda s t)

theorem eq_of_exec_readByte_next {last : Bool} (h : exec (.readByte last) s = .next t) :
    t = s.movedTo (released s.cfg) (held s.cfg) 8 (readByteEvents last (s.lines.answersFrom 0 8))
      (resOfByte (s.lines.byteAt 0)) := by
  rw [exec_readByte_next] at h
  cases h
  rfl

theorem eq_of_exec_stop_next (h : exec .stop s = .next t) :
    t = s.movedTo (released s.cfg) (released s.cfg) 0 stopEvents 0 := by
  by_cases hd : MayLower s .sda
  · rw [exec_stop_next hd] at h
    cases h
    rfl
  · rw [exec_stop_fault hd] at h
    exact absurd h (pushFault_ne_next .sda s t)

/-- A list of answers is all refusals up to a bound, or has a first acknowledge below it. -/
theorem refused_or_acknowledged (l : Lines) (n : Nat) : (∀ j < n, l.answer j = true) ∨
    ∃ m < n, (∀ j < m, l.answer j = true) ∧ l.answer m = false := by
  induction n with
  | zero => exact .inl nofun
  | succ n ih =>
    obtain hall | ⟨m, hm, hfirst⟩ := ih
    · cases ha : l.answer n with
      | true => exact .inl fun j hj => (Nat.lt_succ_iff_lt_or_eq.mp hj).elim (hall j) (· ▸ ha)
      | false => exact .inr ⟨n, n.lt_succ_self, hall, ha⟩
    · exact .inr ⟨m, Nat.lt_succ_of_lt hm, hfirst⟩

theorem exec_startWait_next_cases (hn : 1 ≤ s.cfg.nSw) (h : exec (.startWait ab) s = .next t) :
    (∃ m, t = s.movedTo (held s.cfg) (held s.cfg) (m + 1) (refusedAttempts ab m ++ startEvents ab false) 1) ∨
    t = s.movedTo (released s.cfg) (released s.cfg) s.cfg.nSw (refusedAttempts ab s.cfg.nSw) 0 := by
  by_cases hl : MayLower s .sda ∧ MayLower s .scl
  · obtain hall | ⟨m, hm, hrefused, hack⟩ := refused_or_acknowledged s.lines s.cfg.nSw
    · rw [exec_startWait_refused hl hn hall] at h
      cases h
      exact .inr rfl
    · rw [exec_startWait_acknowledged hl hm hrefused hack] at h
      cases h
      exact .inl ⟨m, rfl⟩
  · rw [exec_startWait_fault hn hl] at h
    exact absurd h (startFault_ne_next s t)

end Commands

/-! ### A byte and its bits (20_memory.md R40, 41_bit_engine.md R100) -/

/-- A bit shifted in from bit 0 doubles the byte and is added to it. -/
theorem toNat_shiftIn (v : Byte) (b : Bool) : (shiftIn v b).toNat = (2 * v.toNat + b.toNat) % 256 := by
  have hv : (v <<< 1).toNat = (v.toNat % 128) <<< 1 := by
    rw [BitVec.toNat_shiftLeft, Nat.shiftLeft_eq, Nat.shiftLeft_eq]
    omega
  have hb : ((BitVec.ofBool b).setWidth 8).toNat = b.toNat := by
    cases b <;> rfl
  have hlt : b.toNat < 2 ^ 1 := b.toNat_lt
  rw [shiftIn, BitVec.toNat_or, hv, hb, ← Nat.shiftLeft_add_eq_or_of_lt hlt, Nat.shiftLeft_eq]
  omega

theorem byteOfBits_wireBits (v : Byte) : byteOfBits (wireBits v) = v := by
  ext i hi
  interval_cases i <;> simp [byteOfBits, wireBits, shiftIn]

/-- The byte that eight samples make is the sum of the k-th times 2^(7-k) (R100). -/
theorem toNat_byteAt (l : Lines) (k : Nat) :
    (l.byteAt k).toNat = ((List.range 8).map fun i => (l.answer (k + i)).toNat * 2 ^ (7 - i)).sum := by
  have hbit (i : Nat) : (l.answer i).toNat ≤ 1 := Bool.toNat_le _
  have hrange : List.range 8 = [0, 1, 2, 3, 4, 5, 6, 7] := rfl
  simp only [Lines.byteAt, Lines.answersFrom, byteOfBits, hrange, List.map_cons, List.map_nil, List.foldl_cons,
    List.foldl_nil, toNat_shiftIn, List.sum_cons, List.sum_nil]
  grind

theorem answersFrom_add (l : Lines) (k m n : Nat) :
    l.answersFrom k (m + n) = l.answersFrom k m ++ l.answersFrom (k + m) n := by
  simp only [Lines.answersFrom, List.range_add, List.map_append, List.map_map, Function.comp_def, Nat.add_assoc]

theorem length_answersFrom (l : Lines) (k n : Nat) : (l.answersFrom k n).length = n := by
  simp [Lines.answersFrom]

theorem toNat_resOfByte (b : Byte) : (resOfByte b).toNat = b.toNat :=
  BitVec.toNat_setWidth_of_le (by decide)

@[simp] theorem movedTo_res (s : State) (d k : PinState) (n : Nat) (es : List Event) (r : Result) :
    (s.movedTo d k n es r).res = r := rfl

@[simp] theorem movedTo_events (s : State) (d k : PinState) (n : Nat) (es : List Event) (r : Result) :
    (s.movedTo d k n es r).lines.events = es := rfl

/-- The answers left after a command that took `n` of them. -/
theorem answersFrom_movedTo (s : State) (d k : PinState) (n : Nat) (es : List Event) (r : Result) (i m : Nat) :
    (s.movedTo d k n es r).lines.answersFrom i m = s.lines.answersFrom (n + i) m :=
  answersFrom_moved (c := s.cfg) (l := s.begun.lines) d k n es i m

/-- After the release of SDA and the eight data bits, READ_BYTE's events begin with the acknowledge it sends (R99). -/
theorem readByteEvents_drop (last : Bool) {o : List Bool} (ho : o.length = 8) :
    (readByteEvents last o).drop 33 = [dataEvent last, .rel .scl, .wait .h, .low .scl, .wait .h, .rel .sda] := by
  have hlen : ([Event.rel .sda] ++ o.flatMap readBitEvents).length = 33 := by
    simp [List.length_flatMap, readBitEvents, ho]
  rw [readByteEvents, List.drop_left' hlen]

end Sys2Proof.Machine
end

section
/-! SUPPORT. The reading aid (41_bit_engine.md R103) on the events of the engine: what one event, one clock pulse, one byte
with its acknowledge, and a START or STOP say to it. -/

namespace Sys2Proof.Machine

open BusReader (event)

theorem busSequence_append (r : BusReader) (es fs : List Event) :
    busSequence r (es ++ fs) = busSequence (es.foldl event r) fs := by
  rw [busSequence, List.foldl_append, busSequence]

/-! ### One event -/

section Events

variable {r : BusReader}

theorem event_wait (r : BusReader) (k : DelayKind) : r.event (.wait k) = r := rfl

/-- SDA moves while SCL is low: no condition. -/
theorem event_dataEvent (hk : r.scl = false) (b : Bool) : r.event (dataEvent b) = { r with sda := b } := by
  cases b <;> simp [dataEvent, event, BusReader.sdaFalls, BusReader.sdaRises, hk]

theorem event_rel_sda (hk : r.scl = false) : r.event (.rel .sda) = { r with sda := true } :=
  event_dataEvent hk true

theorem event_rel_scl (hk : r.scl = false) :
    r.event (.rel .scl) = { r with scl := true, level := r.sda, carries := true } := by
  simp [event, BusReader.sclRises, hk]

theorem event_samp_sda (hk : r.scl = true) (b : Bool) : r.event (.samp .sda b) = { r with level := b } :=
  if_pos hk

theorem event_low_scl (hk : r.scl = true) (hc : r.carries = true) :
    r.event (.low .scl) = { r.bit r.level with scl := false, carries := false } := by
  simp [event, BusReader.sclFalls, hk, hc]

end Events

/-! ### One clock pulse -/

/-- The reader sees SCL low, has the bits `bits` of an unfinished byte, and has read `seq`. -/
def BusReader.Holds (r : BusReader) (bits : List Bool) (seq : List BusItem) : Prop :=
  r.scl = false ∧ r.bits = bits ∧ r.seq = seq

/-- Events that take a reader with SCL low through one clock pulse with the bit `b`. -/
def CarriesBit (es : List Event) (b : Bool) : Prop :=
  ∀ r : BusReader, r.scl = false → (es.foldl event r).Holds (r.bit b).bits (r.bit b).seq

/-- The end of a pulse files the bit `b` that SDA had in it, behind the bits that `r` had before the pulse. -/
theorem holds_low_scl {r r' : BusReader} {b : Bool} (hk : r'.scl = true) (hc : r'.carries = true) (hb : r'.level = b)
    (hbits : r'.bits = r.bits) (hseq : r'.seq = r.seq) :
    (r'.event (.low .scl)).Holds (r.bit b).bits (r.bit b).seq := by
  rw [event_low_scl hk hc, hb]
  unfold BusReader.bit
  rw [hbits, hseq]
  split <;> exact ⟨rfl, rfl, rfl⟩

/-- SDA set by the master before the pulse (R96, R99): a data bit it sends, or its acknowledge. -/
theorem carriesBit_sent (b : Bool) (k : DelayKind) : CarriesBit [dataEvent b, .rel .scl, .wait k, .low .scl] b := by
  intro r hk
  simp only [List.foldl_cons, List.foldl_nil, event_wait]
  rw [event_dataEvent hk, event_rel_scl (r := { r with sda := b }) hk]
  exact holds_low_scl rfl rfl rfl rfl rfl

/-- A data bit the slave sends (R99): the sample in the pulse. -/
theorem carriesBit_received (b : Bool) : CarriesBit (readBitEvents b) b := by
  intro r hk
  simp only [readBitEvents, List.foldl_cons, List.foldl_nil, event_wait]
  rw [event_rel_scl hk, event_samp_sda rfl]
  exact holds_low_scl rfl rfl rfl rfl rfl

/-- The acknowledge bit the slave sends (R96): the sample in the pulse. -/
theorem carriesBit_acknowledge (a : Bool) :
    CarriesBit [.rel .sda, .rel .scl, .wait .h, .samp .sda a, .low .scl] a := by
  intro r hk
  simp only [List.foldl_cons, List.foldl_nil, event_wait]
  rw [event_rel_sda hk, event_rel_scl (r := { r with sda := true }) hk, event_samp_sda rfl]
  exact holds_low_scl rfl rfl rfl rfl rfl

/-! ### One byte -/

section Byte

variable {group : Bool → List Event} (hgroup : ∀ b, CarriesBit (group b) b)
include hgroup

theorem holds_bits (bs : List Bool) {r : BusReader} {bits : List Bool} {seq : List BusItem} (h : r.Holds bits seq)
    (hlen : bits.length + bs.length ≤ 8) : ((bs.flatMap group).foldl event r).Holds (bits ++ bs) seq := by
  induction bs generalizing r bits with
  | nil => simpa using h
  | cons b bs ih =>
    obtain ⟨hk, rfl, rfl⟩ := h
    rw [List.length_cons] at hlen
    have hbit : r.bit b = { r with bits := r.bits ++ [b] } := if_neg (by omega)
    have hnext := hgroup b r hk
    rw [hbit] at hnext
    rw [List.flatMap_cons, List.foldl_append, List.append_cons]
    exact ih hnext (by rw [List.length_append, List.length_singleton]; omega)

/-- Eight bits and the acknowledge bit after them make one item. -/
theorem holds_byte {bs : List Bool} (hbs : bs.length = 8) {ack : List Event} {a : Bool} (hack : CarriesBit ack a)
    {r : BusReader} {seq : List BusItem} (h : r.Holds [] seq) :
    ((bs.flatMap group ++ ack).foldl event r).Holds [] (seq ++ [.byte (byteOfBits bs) (!a)]) := by
  obtain ⟨hk, hbits, hseq⟩ := holds_bits hgroup bs h (by simp [hbs])
  rw [List.nil_append] at hbits
  have hlast := hack _ hk
  rw [BusReader.bit, hbits, hseq, if_pos hbs] at hlast
  rw [List.foldl_append]
  exact hlast

end Byte

/-- What follows the acknowledge bit, SDA moved while SCL is low, is no item. -/
theorem busSequence_wait_dataEvent {r : BusReader} {bits : List Bool} {seq : List BusItem} (h : r.Holds bits seq)
    (k : DelayKind) (b : Bool) : busSequence r [.wait k, dataEvent b] = seq := by
  obtain ⟨hk, -, hseq⟩ := h
  rw [busSequence, List.foldl_cons, event_wait, List.foldl_cons, event_dataEvent hk]
  exact hseq

theorem busSequence_writeByteEvents {r : BusReader} {seq : List BusItem} (h : r.Holds [] seq) (v : Byte) (a : Bool) :
    busSequence r (writeByteEvents v a) = seq ++ [.byte v (!a)] := by
  have hbyte := holds_byte (fun b => carriesBit_sent b .t) (bs := wireBits v) rfl (carriesBit_acknowledge a) h
  rw [byteOfBits_wireBits] at hbyte
  rw [← busSequence_wait_dataEvent hbyte .h false, ← busSequence_append, List.append_assoc]
  rfl

theorem busSequence_readByteEvents {r : BusReader} {seq : List BusItem} (h : r.Holds [] seq) (last : Bool)
    {o : List Bool} (ho : o.length = 8) :
    busSequence r (readByteEvents last o) = seq ++ [.byte (byteOfBits o) (!last)] := by
  obtain ⟨hk, hbits, hseq⟩ := h
  have hopen : (r.event (.rel .sda)).Holds [] seq := by
    rw [event_rel_sda hk]
    exact ⟨hk, hbits, hseq⟩
  have hbyte := holds_byte carriesBit_received ho (carriesBit_sent last .h) hopen
  rw [← busSequence_wait_dataEvent hbyte .h true, ← busSequence_append, List.append_assoc]
  rfl

/-! ### Conditions -/

/-- What a falling SDA says: a START condition, repeated where one is open, if SCL is high (R103). -/
def BusReader.startItems (r : BusReader) : List BusItem :=
  if r.sda && r.scl then [if r.started then .sr else .s] else []

theorem startItems_of_high {r : BusReader} (hd : r.sda = true) (hk : r.scl = true) :
    r.startItems = [if r.started then .sr else .s] := by
  simp [BusReader.startItems, hd, hk]

theorem startItems_of_clockLow {r : BusReader} (hk : r.scl = false) : r.startItems = [] := by
  simp [BusReader.startItems, hk]

theorem startItems_of_dataLow {r : BusReader} (hd : r.sda = false) : r.startItems = [] := by
  simp [BusReader.startItems, hd]

/-- START (R90), where no pulse in progress would end as a data bit. -/
theorem busSequence_startEvents {r : BusReader} (hbits : r.bits = [])
    (hpulse : r.carries = false ∨ r.sda = true ∨ r.scl = false) (ab : Byte) (a : Bool) :
    busSequence r (startEvents ab a) = r.seq ++ r.startItems ++ [.byte ab (!a)] := by
  have hopen : ([Event.low .sda, .wait .t, .low .scl].foldl event r).Holds [] (r.seq ++ r.startItems) := by
    obtain ⟨sda, scl, level, carries, started, bits, seq⟩ := r
    subst hbits
    cases sda <;> cases scl <;>
      simp_all [event, BusReader.sdaFalls, BusReader.sclFalls, BusReader.Holds, BusReader.startItems]
  rw [startEvents, busSequence_append, busSequence_writeByteEvents hopen]

theorem busSequence_startEvents_of_high {r : BusReader} (hd : r.sda = true) (hk : r.scl = true) (hbits : r.bits = [])
    (ab : Byte) (a : Bool) :
    busSequence r (startEvents ab a) = r.seq ++ [if r.started then .sr else .s, .byte ab (!a)] := by
  rw [busSequence_startEvents hbits (.inr (.inl hd)), startItems_of_high hd hk, List.append_assoc, List.singleton_append]

/-- A reader with SCL low after the master has released SDA and then SCL. -/
def BusReader.raised (r : BusReader) : BusReader := { r with sda := true, scl := true, level := true, carries := true }

/-- REP_START with SCL low (R92): SDA and SCL rise, then a START from high lines. -/
theorem busSequence_repStartEvents {r : BusReader} (hk : r.scl = false) (hbits : r.bits = []) (ab : Byte) (a : Bool) :
    busSequence r (repStartEvents ab a) = r.seq ++ [if r.started then .sr else .s, .byte ab (!a)] := by
  have hrise : [Event.rel .sda, .rel .scl, .wait .t].foldl event r = r.raised := by
    simp only [List.foldl_cons, List.foldl_nil, event_wait]
    rw [event_rel_sda hk, event_rel_scl (r := { r with sda := true }) hk]
    rfl
  rw [repStartEvents, busSequence_append, hrise]
  exact busSequence_startEvents_of_high (r := r.raised) rfl rfl hbits ab a

/-- STOP (R94): SDA falls, then rises while SCL is high. -/
theorem busSequence_stopEvents (r : BusReader) : busSequence r stopEvents = r.seq ++ r.startItems ++ [.p] := by
  obtain ⟨sda, scl, level, carries, started, bits, seq⟩ := r
  cases sda <;> cases scl <;>
    simp [busSequence, stopEvents, event, BusReader.sdaFalls, BusReader.sclRises, BusReader.sdaRises,
      BusReader.startItems]

/-! ### A reader that starts at the lines as the master leaves them (R87) -/

section OnLines

variable {l : Lines} (started : Bool)

theorem onLines_high_of_linesReleased (h : linesReleased l = true) :
    (BusReader.onLines l started).sda = true ∧ (BusReader.onLines l started).scl = true := by
  simp only [linesReleased, Bool.and_eq_true, beq_iff_eq] at h
  simp [BusReader.onLines, h]

theorem onLines_holds_of_clockHeld (h : clockHeld l = true) : (BusReader.onLines l started).Holds [] [] := by
  simp only [clockHeld, beq_iff_eq] at h
  simp [BusReader.onLines, BusReader.Holds, h]

theorem onLines_sda_of_pullLow (h : driveOf l.sda = .pullLow) : (BusReader.onLines l started).sda = false := by
  simp [BusReader.onLines, h]

theorem busSequence_onLines_startEvents (l : Lines) (ab : Byte) (a : Bool) :
    busSequence (.onLines l started) (startEvents ab a) = (BusReader.onLines l started).startItems ++ [.byte ab (!a)] :=
  busSequence_startEvents rfl (.inl rfl) ab a

end OnLines

end Sys2Proof.Machine
end

section
/-! The obligations of 41_bit_engine.md. -/

namespace Sys2Proof.Proofs

open Sys2Proof.Machine Sys2Proof.Claims

/-- Settles O21: the byte completes unless its first bit pulls SDA low against a latch at 1. -/
theorem writeByteSendsTheByte : Obligations.WriteByteSendsTheByte :=
  fun _ _ => ⟨exec_writeByte_next, exec_writeByte_fault⟩

/-- Settles O22: the result is the byte of the eight samples, whose value is their weighted sum. -/
theorem readByteReceivesTheByte : Obligations.ReadByteReceivesTheByte := by
  intro last s
  refine ⟨resOfByte (s.lines.byteAt 0), exec_readByte_next last s, ?_⟩
  simp only [toNat_resOfByte, toNat_byteAt, Nat.zero_add]

/-- Settles O23: START completes where both lines may be lowered. -/
theorem startSendsTheAddressByte : Obligations.StartSendsTheAddressByte :=
  fun _ _ => ⟨exec_start_next, exec_start_fault⟩

/-- Settles O24: REP_START releases both lines first, so its START cannot fault. -/
theorem repStartSendsTheAddressByte : Obligations.RepStartSendsTheAddressByte :=
  exec_repStart_next

/-- Settles O25: the attempts up to the first acknowledge, or all of them. -/
theorem startWaitRetriesUpToItsBound : Obligations.StartWaitRetriesUpToItsBound :=
  fun _ _ hn => ⟨fun hl => ⟨fun _ => exec_startWait_acknowledged hl, exec_startWait_refused hl hn⟩,
    exec_startWait_fault hn⟩

/-- Settles O26: STOP completes where SDA may be lowered. -/
theorem stopReleasesTheBus : Obligations.StopReleasesTheBus :=
  fun _ => ⟨exec_stop_next, exec_stop_fault⟩

/-- Settles O27: each of the six is one computation on the lines, which neither sees nor writes the handle. -/
theorem engineLeavesTheHandleAlone : Obligations.EngineLeavesTheHandleAlone := by
  intro i s hi
  obtain ⟨α, m, f, hrun⟩ := exec_engine hi
  constructor
  · intro t h
    rw [hrun] at h
    have ht := eq_of_runBody_lines_next h
    exact ⟨ht, fun a => by rw [ht]⟩
  · intro e x b p n
    have hunseen := unseen_withHandle e x b p n
    rw [hrun, hrun]
    exact nextOf_runBody hunseen ((onLines_commutes hunseen m).answer f) s

/-- Settles O28: the lines of the next state of each command. -/
theorem engineLeavesTheLinesOfTheTable : Obligations.EngineLeavesTheLinesOfTheTable := by
  intro i s t hn h
  cases i with
  | start ab =>
    cases eq_of_exec_start_next h
    exact ⟨⟨rfl, rfl⟩, rfl, rfl⟩
  | repStart ab =>
    cases eq_of_exec_repStart_next h
    exact ⟨⟨rfl, rfl⟩, rfl, rfl⟩
  | writeByte v =>
    cases eq_of_exec_writeByte_next h
    exact ⟨⟨rfl, rfl⟩, rfl, rfl⟩
  | startWait ab =>
    obtain ⟨m, rfl⟩ | rfl := exec_startWait_next_cases hn h
    · exact ⟨fun _ => ⟨⟨rfl, rfl⟩, rfl, rfl⟩, nofun, .inl rfl⟩
    · exact ⟨nofun, fun _ => ⟨rfl, rfl⟩, .inr rfl⟩
  | stop =>
    cases eq_of_exec_stop_next h
    exact ⟨rfl, rfl⟩
  | readByte last =>
    cases eq_of_exec_readByte_next h
    exact ⟨rfl, rfl, rfl⟩
  | _ => trivial

/-- Settles O29: the first command reads the first eight answers, the second the eight after them. -/
theorem twoReadsGiveTwoBytesInOrder : Obligations.TwoReadsGiveTwoBytesInOrder := by
  intro x y s h
  rw [answersFrom_add s.lines 0 8 8] at h
  obtain ⟨hx, hy⟩ := List.append_inj h (length_answersFrom ..)
  refine ⟨_, _, exec_readByte_next false s, exec_readByte_next true _, ?_, ?_, ?_, ?_⟩
  · rw [movedTo_res, toNat_resOfByte, Lines.byteAt, hx, byteOfBits_wireBits]
  · rw [movedTo_res, toNat_resOfByte, Lines.byteAt, answersFrom_movedTo, hy, byteOfBits_wireBits]
  · rw [movedTo_events, readByteEvents_drop false (length_answersFrom ..)]
    rfl
  · rw [movedTo_events, readByteEvents_drop true (length_answersFrom ..)]
    rfl

/-- Settles O32: the events of the next state, read from released lines, from SCL held low, and from SDA held low. -/
theorem conditionsReadOffTheEvents : Obligations.ConditionsReadOffTheEvents := by
  intro started s t
  refine ⟨fun hlines => ?_, fun hlines => ?_, fun hdata _ ab h => ?_⟩
  · obtain ⟨hd, hk⟩ := onLines_high_of_linesReleased started hlines
    refine ⟨fun ab h => ?_, fun h => ?_⟩
    · cases eq_of_exec_start_next h
      exact busSequence_startEvents_of_high hd hk rfl ab _
    · cases eq_of_exec_stop_next h
      exact (busSequence_stopEvents _).trans (by rw [startItems_of_high hd hk]; rfl)
  · obtain ⟨hk, hbits, hseq⟩ := onLines_holds_of_clockHeld started hlines
    refine ⟨fun ab h => ?_, fun ab h => ?_, fun v h => ?_, fun last h => ?_, fun h => ?_⟩
    · cases eq_of_exec_start_next h
      exact (busSequence_onLines_startEvents started s.lines ab _).trans (by rw [startItems_of_clockLow hk]; rfl)
    · cases eq_of_exec_repStart_next h
      exact busSequence_repStartEvents hk hbits ab _
    · cases eq_of_exec_writeByte_next h
      exact busSequence_writeByteEvents ⟨hk, hbits, hseq⟩ v _
    · cases eq_of_exec_readByte_next h
      exact ⟨_, rfl, busSequence_readByteEvents ⟨hk, hbits, hseq⟩ last (length_answersFrom ..)⟩
    · cases eq_of_exec_stop_next h
      exact (busSequence_stopEvents _).trans (by rw [startItems_of_clockLow hk]; rfl)
  · cases eq_of_exec_start_next h
    constructor
    · have hseq := busSequence_onLines_startEvents started s.lines ab (s.lines.answer 0)
      rw [startItems_of_dataLow (onLines_sda_of_pullLow started hdata)] at hseq
      exact congrArg (List.any · isStartItem) hseq
    · rw [movedTo_res]
      cases s.lines.answer 0 <;> rfl

end Sys2Proof.Proofs
end

section
/-! SUPPORT. The ten commands of the transaction layer (42_transaction.md): the next state of each that completes, the
fault of each that does not, and what a command that completed did. -/

namespace Sys2Proof.Machine

open Sys2Proof.Claims

/-! ### The faults (60_exceptions.md R154) -/

section Faults

variable {body : Cmd Result} {s : State}

/-- A body that raises at its first micro-operation stops the command before any effect. -/
theorem runBody_eq_pushFault {p : Pin} (h : body s.begun = .error p s.begun) : runBody body s = pushFault p s :=
  runBody_error h

/-- A body that faults wherever a START does stops the command with START's fault. -/
theorem runBody_eq_startFault {ab : Byte}
    (hbody : ∀ p t, onLines (fun c => start c ab) s.begun = .error p t → body s.begun = .error p t)
    (h : ¬ (MayLower s .sda ∧ MayLower s .scl)) : runBody body s = startFault s := by
  have hstart : exec (.start ab) s = startFault s := exec_start_fault h
  cases hrun : onLines (fun c => start c ab) s.begun with
  | ok a t =>
    rw [show exec (.start ab) s = _ from runBody_bind_ok hrun] at hstart
    exact absurd hstart.symm (startFault_ne_next s _)
  | error p t => rw [runBody_error (hbody p t hrun), ← hstart, show exec (.start ab) s = _ from runBody_bind_error hrun]

/-- With no transaction open an address phase is a START (R109). -/
theorem addressPhase_of_closed {ab : Byte} (ht : s.txing = false) :
    addressPhase ab s = onLines (fun c => start c ab) s := by
  simp only [addressPhase, bind_of_ok (get_run s), ht, Bool.false_eq_true, if_false]

theorem beginTx_startError {a7 : BitVec 7} {p : Pin} {t : State} (ht : s.txing = false)
    (h : onLines (fun c => start c (addressByte a7 false)) s = .error p t) : beginTx a7 s = .error p t :=
  bind_of_error ((addressPhase_of_closed ht).trans h)

/-- REQUEST_FROM opens with a START: to the write address with ISIZE > 0, to the read address with ISIZE = 0 (R119). -/
theorem requestFrom_startError {a7 : BitVec 7} {qty : Byte} {iaddr : BitVec 24} {n : Nat} {sendStop : Bool} {p : Pin}
    {t : State} (ht : s.txing = false)
    (h : onLines (fun c => start c (addressByte a7 (n == 0))) s = .error p t) :
    requestFrom a7 qty iaddr n sendStop s = .error p t := by
  unfold requestFrom
  by_cases hn : n = 0
  · subst hn
    rw [bind_of_ok (internalAddress_none ..), bind_of_ok (get_run _)]
    exact bind_of_error ((addressPhase_of_closed ht).trans h)
  · refine bind_of_error ?_
    rw [beq_false_of_ne hn] at h
    rw [internalAddress, if_neg hn]
    exact bind_of_error (beginTx_startError ht h)

end Faults

/-! ### The next state of each command -/

section Commands

variable {s t : State} {a7 : BitVec 7} {b : Byte}

theorem txing_or_lowerable (h : s.txing = true ∨ (MayLower s .sda ∧ MayLower s .scl)) : s.txing = true ∨ Lowerable s :=
  h.imp_right lowerable_iff_mayLower.mpr

theorem exec_busBegin (s : State) : exec .busBegin s = .next
    { s.movedTo (released s.cfg) (released s.cfg) 2
        [.rel .sda, .rel .scl, .samp .sda (s.lines.answer 0), .samp .scl (s.lines.answer 1)]
        (resOfBool (s.lines.answer 0 && s.lines.answer 1)) with
      err := errNone, txing := false, rxpos := 0, rxlen := 0 } :=
  runBody_bind_ok (busBegin_run s.begun)

theorem exec_busEnd (s : State) : exec .busEnd s = .next (s.answered 0) := rfl

/-- The state after a BEGIN_TX that completed (R109). -/
def State.opened (s : State) (a7 : BitVec 7) : State :=
  { s.movedTo (held s.cfg) (held s.cfg) 1 (addressEvents s.txing (addressByte a7 false) (s.lines.answer 0)) 0 with
    err := if s.lines.answer 0 then errAddressNak else s.err
    txing := true }

theorem exec_beginTx_next (h : s.txing = true ∨ (MayLower s .sda ∧ MayLower s .scl)) :
    exec (.beginTx a7) s = .next (s.opened a7) :=
  runBody_bind_ok (f := fun _ => 0) (beginTx_run (s := s.begun) (txing_or_lowerable h))

theorem exec_beginTx_fault (ht : s.txing = false) (h : ¬ (MayLower s .sda ∧ MayLower s .scl)) :
    exec (.beginTx a7) s = startFault s :=
  runBody_eq_startFault (fun _ _ hstart => bind_of_error (beginTx_startError (s := s.begun) ht hstart)) h

theorem exec_endTx_open (s : State) :
    exec (.endTx false) s = .next { s.answered (resOfByte s.err) with err := errNone } :=
  runBody_bind_ok (endTx_open s.begun)

theorem exec_endTx_close (h : MayLower s .sda) : exec (.endTx true) s = .next
    { s.movedTo (released s.cfg) (released s.cfg) 0 stopEvents (resOfByte s.err) with
      err := errNone, txing := false } :=
  runBody_bind_ok (endTx_close (s := s.begun) (pushesHigh_eq_false_iff.mpr h))

theorem exec_endTx_fault (h : ¬ MayLower s .sda) : exec (.endTx true) s = pushFault .sda s :=
  runBody_eq_pushFault (bind_of_error (endTx_error (pushesHigh_of_not_mayLower h)))

/-- The state after a WRITE that completed (R115). -/
def State.written (s : State) (b : Byte) : State :=
  { s.movedTo (held s.cfg) (held s.cfg) 1 (writeByteEvents b (s.lines.answer 0))
      (if s.lines.answer 0 then 0 else 1) with
    err := if s.lines.answer 0 then errWriteNak else s.err }

theorem exec_write_next (h : b.getLsbD 7 = true ∨ MayLower s .sda) : exec (.write b) s = .next (s.written b) := by
  rw [State.written, ← resOfBool_not]
  exact runBody_bind_ok (write_run (s := s.begun) fun hb =>
    pushesHigh_eq_false_iff.mpr (h.resolve_left (ne_true_of_eq_false hb)))

theorem exec_write_fault (hb : b.getLsbD 7 = false) (h : ¬ MayLower s .sda) : exec (.write b) s = pushFault .sda s :=
  runBody_eq_pushFault (bind_of_error (write_error hb (pushesHigh_of_not_mayLower h)))

theorem exec_available (s : State) :
    exec .available s = .next (s.answered (resOfByte s.rxlen - resOfByte s.rxpos)) := rfl

theorem exec_read_of_lt (h : s.rxpos < s.rxlen) : exec .read s = .next
    { s.answered (resOfByte (s.rxAt s.rxpos.toNat)) with rxpos := s.rxpos + 1 } :=
  runBody_ok (takeByte_of_lt (s := s.begun) h)

theorem exec_read_of_not_lt (h : ¬ s.rxpos < s.rxlen) : exec .read s = .next (s.answered sentinel) :=
  runBody_ok (takeByte_of_not_lt (s := s.begun) h)

theorem exec_peek_of_lt (h : s.rxpos < s.rxlen) :
    exec .peek s = .next (s.answered (resOfByte (s.rxAt s.rxpos.toNat))) :=
  runBody_ok (peekByte_of_lt (s := s.begun) h)

theorem exec_peek_of_not_lt (h : ¬ s.rxpos < s.rxlen) : exec .peek s = .next (s.answered sentinel) :=
  runBody_ok (peekByte_of_not_lt (s := s.begun) h)

end Commands

/-! ### WRITE_BUF (R117) -/

section WriteBuf

variable {haddr : BitVec 32} {len : BitVec 16} {s t : State}

/-- The first byte of the range may be sent: it starts with a released SDA, or SDA may be lowered. -/
abbrev FirstMaySend (haddr : BitVec 32) (s : State) : Prop :=
  (Memory.read s.hmem haddr.toNat).getLsbD 7 = true ∨ MayLower s .sda

/-- The bytes of a nonempty range: the one at its start, then the others. -/
theorem readRange_succ (m : Memory) (a n : Nat) :
    Memory.readRange m a (n + 1) = Memory.read m a :: Memory.readRange m (a + 1) n := by
  simp [Memory.readRange, List.range_succ_eq_map, Function.comp_def, Nat.add_assoc, Nat.add_comm 1]

theorem exists_toNat_eq_succ (hn : len ≠ 0) : ∃ n, len.toNat = n + 1 :=
  Nat.exists_eq_succ_of_ne_zero fun h0 => hn (BitVec.eq_of_toNat_eq h0)

theorem exec_writeBuf_fits (hfit : haddr.toNat + len.toNat ≤ s.cfg.hmemSize) : exec (.writeBuf haddr len) s =
    runBody (do let c ← writeAll (Memory.readRange s.hmem haddr.toNat len.toNat) 0; pure (resOfCount c)) s :=
  runOnRange_fits (body := fun bytes => do let c ← writeAll bytes 0; pure (resOfCount c)) hfit

theorem exec_writeBuf_empty (hfit : haddr.toNat + len.toNat ≤ s.cfg.hmemSize) (hn : len = 0) :
    exec (.writeBuf haddr len) s = .next (s.answered 0) := by
  rw [exec_writeBuf_fits hfit, hn]
  rfl

theorem exec_writeBuf_next (hfit : haddr.toNat + len.toNat ≤ s.cfg.hmemSize) (hn : len ≠ 0) (h : FirstMaySend haddr s) :
    exec (.writeBuf haddr len) s = .next
      { s.movedTo (held s.cfg) (held s.cfg) (sentBytes (s.lines.answersFrom 0 len.toNat))
          (writeEachEvents ((Memory.readRange s.hmem haddr.toNat len.toNat).take
            (sentBytes (s.lines.answersFrom 0 len.toNat))) (s.lines.answersFrom 0 len.toNat))
          (resOfCount (ackedBytes (s.lines.answersFrom 0 len.toNat))) with
        err := if ackedBytes (s.lines.answersFrom 0 len.toNat) < len.toNat then errWriteNak else s.err } := by
  obtain ⟨n, hlen⟩ := exists_toNat_eq_succ hn
  have hrun := writeAll_run (Memory.read s.hmem haddr.toNat) (Memory.readRange s.hmem (haddr.toNat + 1) n) 0 s.begun
    fun hb => pushesHigh_eq_false_iff.mpr (h.resolve_left (ne_true_of_eq_false hb))
  rw [← readRange_succ, length_readRange, Nat.zero_add, ← hlen] at hrun
  exact (exec_writeBuf_fits hfit).trans (runBody_bind_ok hrun)

theorem exec_writeBuf_fault (hfit : haddr.toNat + len.toNat ≤ s.cfg.hmemSize) (hn : len ≠ 0)
    (h : ¬ FirstMaySend haddr s) : exec (.writeBuf haddr len) s = pushFault .sda s := by
  obtain ⟨n, hlen⟩ := exists_toNat_eq_succ hn
  obtain ⟨hb, hd⟩ := not_or.mp h
  refine (exec_writeBuf_fits hfit).trans (runBody_eq_pushFault (bind_of_error ?_))
  rw [hlen, readRange_succ]
  exact writeAll_error (Bool.eq_false_of_not_eq_true hb) (pushesHigh_of_not_mayLower hd)

theorem exec_writeBuf_rangeFault (h : s.cfg.hmemSize < haddr.toNat + len.toNat) :
    exec (.writeBuf haddr len) s = rangeFault haddr len s :=
  runOnRange_fault (body := fun bytes => do let c ← writeAll bytes 0; pure (resOfCount c)) h

end WriteBuf

/-! ### REQUEST_FROM (R119 to R121) -/

section RequestFrom

variable {a7 : BitVec 7} {qty : Byte} {iaddr : BitVec 24} {isize : BitVec 2} {sendStop : Bool} {s t : State}

/-- The state after a REQUEST_FROM that completed. -/
def State.requested (s : State) (a7 : BitVec 7) (qty : Byte) (iaddr : BitVec 24) (n : Nat) (sendStop : Bool) : State :=
  { s.movedTo (requestSda s.cfg (clampQty s.cfg qty) sendStop) (requestScl s.cfg sendStop)
      (internalSamples n + 1 + 8 * clampQty s.cfg qty) (requestEvents s a7 iaddr n (clampQty s.cfg qty) sendStop)
      (resOfCount (requestAvailable s n (clampQty s.cfg qty))) with
    err := if n = 0 then s.err else errNone
    txing := !sendStop
    rxbuf := putAt s.rxbuf 0 (requestBytes s n (clampQty s.cfg qty))
    rxpos := 0
    rxlen := BitVec.ofNat 8 (requestAvailable s n (clampQty s.cfg qty)) }

theorem exec_requestFrom_next (h : s.txing = true ∨ Lowerable s) :
    exec (.requestFrom a7 qty iaddr isize sendStop) s = .next (s.requested a7 qty iaddr isize.toNat sendStop) := by
  rw [State.requested, ← requestEvents_begun]
  exact runBody_ok (requestFrom_run (s := s.begun) h)

theorem exec_requestFrom_fault (ht : s.txing = false) (h : ¬ (MayLower s .sda ∧ MayLower s .scl)) :
    exec (.requestFrom a7 qty iaddr isize sendStop) s = startFault s :=
  runBody_eq_startFault (fun _ _ => requestFrom_startError (s := s.begun) ht) h

theorem eq_of_exec_requestFrom_next (h : exec (.requestFrom a7 qty iaddr isize sendStop) s = .next t) :
    t = s.requested a7 qty iaddr isize.toNat sendStop := by
  rw [exec_requestFrom_next (lowerable_of_execRequestFrom_next h)] at h
  cases h
  rfl

end RequestFrom

/-! ### What a command that completed did -/

section Completed

variable {s t : State}

theorem eq_of_exec_beginTx_next {a7 : BitVec 7} (h : exec (.beginTx a7) s = .next t) :
    t = s.opened a7 := by
  by_cases hl : s.txing = true ∨ (MayLower s .sda ∧ MayLower s .scl)
  · rw [exec_beginTx_next hl] at h
    cases h
    rfl
  · obtain ⟨ht, hno⟩ := not_or.mp hl
    rw [exec_beginTx_fault (Bool.eq_false_of_not_eq_true ht) hno] at h
    exact absurd h (startFault_ne_next s t)

theorem eq_of_exec_endTx_close_next (h : exec (.endTx true) s = .next t) : t =
    { s.movedTo (released s.cfg) (released s.cfg) 0 stopEvents (resOfByte s.err) with
      err := errNone, txing := false } := by
  by_cases hd : MayLower s .sda
  · rw [exec_endTx_close hd] at h
    cases h
    rfl
  · rw [exec_endTx_fault hd] at h
    exact absurd h (pushFault_ne_next .sda s t)

theorem eq_of_exec_write_next {b : Byte} (h : exec (.write b) s = .next t) : t = s.written b := by
  by_cases hl : b.getLsbD 7 = true ∨ MayLower s .sda
  · rw [exec_write_next hl] at h
    cases h
    rfl
  · obtain ⟨hb, hd⟩ := not_or.mp hl
    rw [exec_write_fault (Bool.eq_false_of_not_eq_true hb) hd] at h
    exact absurd h (pushFault_ne_next .sda s t)

/-- WRITE_BUF completes on an empty range, or where its first byte may be sent. -/
theorem exec_writeBuf_next_cases {haddr : BitVec 32} {len : BitVec 16} (h : exec (.writeBuf haddr len) s = .next t) :
    haddr.toNat + len.toNat ≤ s.cfg.hmemSize ∧ (len = 0 ∨ len ≠ 0 ∧ FirstMaySend haddr s) := by
  by_cases hfit : haddr.toNat + len.toNat ≤ s.cfg.hmemSize
  · refine ⟨hfit, or_iff_not_imp_left.mpr fun hn => ⟨hn, ?_⟩⟩
    by_contra hno
    rw [exec_writeBuf_fault hfit hn hno] at h
    exact pushFault_ne_next .sda s t h
  · rw [exec_writeBuf_rangeFault (Nat.lt_of_not_le hfit)] at h
    cases h

/-- A command that makes its result from the bytes of a range touches nothing else (43_crc.md R131, R134). -/
theorem eq_of_runOnRange_pure_next {haddr : BitVec 32} {len : BitVec 16} {f : List Byte → Result}
    (h : runOnRange haddr len (fun bytes => pure (f bytes)) s = .next t) : t = s.answered t.res := by
  by_cases hfit : haddr.toNat + len.toNat ≤ s.cfg.hmemSize
  · rw [runOnRange_fits hfit] at h
    cases h
    rfl
  · rw [runOnRange_fault (Nat.lt_of_not_le hfit)] at h
    cases h

/-- The six quiet commands change the result alone, and READ the cursor (70_reset_and_hazards.md R190). -/
theorem eq_of_exec_quiet_next {i : Instr} (hi : isQuiet i = true) (h : exec i s = .next t) :
    t = { s.answered t.res with rxpos := t.rxpos } := by
  cases i with
  | busEnd => cases h; rfl
  | available => cases h; rfl
  | read =>
    by_cases hlt : s.rxpos < s.rxlen
    · rw [exec_read_of_lt hlt] at h; cases h; rfl
    · rw [exec_read_of_not_lt hlt] at h; cases h; rfl
  | peek =>
    by_cases hlt : s.rxpos < s.rxlen
    · rw [exec_peek_of_lt hlt] at h; cases h; rfl
    · rw [exec_peek_of_not_lt hlt] at h; cases h; rfl
  | crc8 haddr len => rw [eq_of_runOnRange_pure_next (f := fun bytes => resOfByte (crc8 bytes)) h]; rfl
  | crcCheck haddr len => rw [eq_of_runOnRange_pure_next (f := fun bytes => resOfBool (crcPasses bytes)) h]; rfl
  | _ => cases hi

end Completed

end Sys2Proof.Machine
end

section
/-! SUPPORT. No event list but BUS_BEGIN's holds a sample of SCL (42_transaction.md R107): the event lists of the engine
and of the transaction layer, and from them those of the commands. -/

namespace Sys2Proof.Machine

open Sys2Proof.Claims

/-- A sample of SCL. -/
def isSclSample : Event → Bool
  | .samp .scl _ => true
  | _ => false

/-- Whether an event list holds a sample of SCL. -/
def samplesScl (es : List Event) : Bool := es.any isSclSample

theorem samplesScl_of_mem {b : Bool} {es : List Event} (h : .samp .scl b ∈ es) : samplesScl es = true :=
  List.any_eq_true.mpr ⟨_, h, rfl⟩

@[simp] theorem samplesScl_append (es fs : List Event) : samplesScl (es ++ fs) = (samplesScl es || samplesScl fs) :=
  List.any_append

theorem samplesScl_flatMap {α : Type} {f : α → List Event} (h : ∀ a, samplesScl (f a) = false) (as : List α) :
    samplesScl (as.flatMap f) = false := by
  induction as with
  | nil => rfl
  | cons a as ih => rw [List.flatMap_cons, samplesScl_append, h, ih, Bool.or_false]

theorem samplesScl_sentBitEvents (b : Bool) : samplesScl (sentBitEvents b) = false := by
  cases b <;> rfl

@[simp] theorem samplesScl_writeByteEvents (v : Byte) (a : Bool) : samplesScl (writeByteEvents v a) = false := by
  rw [writeByteEvents, samplesScl_append, samplesScl_flatMap samplesScl_sentBitEvents]
  rfl

theorem samplesScl_readBitEvents (b : Bool) : samplesScl (readBitEvents b) = false := rfl

@[simp] theorem samplesScl_readByteEvents (last : Bool) (o : List Bool) :
    samplesScl (readByteEvents last o) = false := by
  rw [readByteEvents, samplesScl_append, samplesScl_append, samplesScl_flatMap samplesScl_readBitEvents]
  cases last <;> rfl

@[simp] theorem samplesScl_startEvents (ab : Byte) (a : Bool) : samplesScl (startEvents ab a) = false := by
  rw [startEvents, samplesScl_append, samplesScl_writeByteEvents]
  rfl

@[simp] theorem samplesScl_repStartEvents (ab : Byte) (a : Bool) : samplesScl (repStartEvents ab a) = false := by
  rw [repStartEvents, samplesScl_append, samplesScl_startEvents]
  rfl

@[simp] theorem samplesScl_stopEvents : samplesScl stopEvents = false := rfl

@[simp] theorem samplesScl_addressEvents (opened : Bool) (ab : Byte) (a : Bool) :
    samplesScl (addressEvents opened ab a) = false := by
  cases opened
  · exact samplesScl_startEvents ab a
  · exact samplesScl_repStartEvents ab a

@[simp] theorem samplesScl_refusedAttempts (ab : Byte) (n : Nat) : samplesScl (refusedAttempts ab n) = false := by
  induction n with
  | zero => rfl
  | succ n ih => simp [refusedAttempts, ih]

@[simp] theorem samplesScl_writeEachEvents (vs : List Byte) (as : List Bool) :
    samplesScl (writeEachEvents vs as) = false := by
  induction vs generalizing as with
  | nil => rfl
  | cons v vs ih =>
    cases as with
    | nil => rfl
    | cons a as => simp [writeEachEvents, ih]

@[simp] theorem samplesScl_readEachEvents (l : Lines) (k n : Nat) : samplesScl (readEachEvents l k n) = false := by
  induction n generalizing k with
  | zero => rfl
  | succ n ih => simp [readEachEvents, ih]

@[simp] theorem samplesScl_internalEvents (s : State) (a7 : BitVec 7) (iaddr : BitVec 24) (n : Nat) :
    samplesScl (internalEvents s a7 iaddr n) = false := by
  unfold internalEvents
  split
  · rfl
  · simp

@[simp] theorem samplesScl_requestEvents (s : State) (a7 : BitVec 7) (iaddr : BitVec 24) (n q : Nat) (sendStop : Bool) :
    samplesScl (requestEvents s a7 iaddr n q sendStop) = false := by
  cases sendStop <;> simp [requestEvents]

/-- START_WAIT with any bound on its attempts, 0 included. -/
theorem samplesScl_startWait {ab : Byte} {s t : State} (h : exec (.startWait ab) s = .next t) :
    samplesScl t.lines.events = false := by
  obtain hn | hn := Nat.eq_zero_or_pos s.cfg.nSw
  · have hrun : startWait s.cfg ab s.begun.lines = .ok false s.begun.lines := by
      rw [startWait, hn]
      rfl
    rw [show exec (.startWait ab) s = _ from runBody_bind_ok (onLines_ok (f := fun c => startWait c ab) hrun)] at h
    cases h
    rfl
  · obtain ⟨m, rfl⟩ | rfl := exec_startWait_next_cases hn h
    · simp
    · simp

/-- R107: no command but BUS_BEGIN samples SCL. -/
theorem samplesScl_of_exec_next {i : Instr} (hi : i ≠ .busBegin) {s t : State} (h : exec i s = .next t) :
    samplesScl t.lines.events = false := by
  have quiet (hq : isQuiet i = true) : samplesScl t.lines.events = false := by
    rw [eq_of_exec_quiet_next hq h]
    rfl
  cases i with
  | setLow p =>
    cases hp : pushesHigh s.cfg (s.lines.pin p) with
    | false => rw [exec_setLow_next hp] at h; cases h; rfl
    | true => rw [exec_setLow_fault hp] at h; cases h
  | setHigh p => rw [exec_setHigh] at h; cases h; rfl
  | start ab => rw [eq_of_exec_start_next h]; exact samplesScl_startEvents ..
  | repStart ab => rw [eq_of_exec_repStart_next h]; exact samplesScl_repStartEvents ..
  | startWait ab => exact samplesScl_startWait h
  | stop => rw [eq_of_exec_stop_next h]; rfl
  | writeByte v => rw [eq_of_exec_writeByte_next h]; exact samplesScl_writeByteEvents ..
  | readByte last => rw [eq_of_exec_readByte_next h]; exact samplesScl_readByteEvents ..
  | busBegin => exact absurd rfl hi
  | beginTx a7 => rw [eq_of_exec_beginTx_next h]; exact samplesScl_addressEvents ..
  | endTx sendStop =>
    cases sendStop with
    | false => rw [exec_endTx_open] at h; cases h; rfl
    | true => rw [eq_of_exec_endTx_close_next h]; rfl
  | write b => rw [eq_of_exec_write_next h]; exact samplesScl_writeByteEvents ..
  | writeBuf haddr len =>
    obtain ⟨hfit, hn | ⟨hn, hsend⟩⟩ := exec_writeBuf_next_cases h
    · rw [exec_writeBuf_empty hfit hn] at h; cases h; rfl
    · rw [exec_writeBuf_next hfit hn hsend] at h; cases h; exact samplesScl_writeEachEvents ..
  | requestFrom a7 qty iaddr isize sendStop =>
    rw [eq_of_exec_requestFrom_next h]; exact samplesScl_requestEvents ..
  | _ => exact quiet rfl

end Sys2Proof.Machine
end

section
/-! SUPPORT. Error codes and runs of commands (42_transaction.md R111, R116, R118, R126): which commands keep ERR and
TXING, WRITEs in a row, and READs among other commands. -/

namespace Sys2Proof.Machine

open Sys2Proof.Claims

/-! ### ERR and TXING of the commands that do not write them (R127) -/

/-- The commands that write ERR or TXING. -/
def writesErrOrTxing : Instr → Bool
  | .busBegin => true
  | .beginTx _ => true
  | .endTx _ => true
  | .write _ => true
  | .writeBuf _ _ => true
  | .requestFrom _ _ _ _ _ => true
  | _ => false

theorem exec_keepsErrAndTxing {i : Instr} (hi : writesErrOrTxing i = false) {s t : State} (h : exec i s = .next t) :
    t.err = s.err ∧ t.txing = s.txing := by
  have engine (he : isEngine i = true) : t.err = s.err ∧ t.txing = s.txing := by
    obtain ⟨α, m, f, hrun⟩ := exec_engine he
    rw [eq_of_runBody_lines_next ((hrun s).symm.trans h)]
    exact ⟨rfl, rfl⟩
  have quiet (hq : isQuiet i = true) : t.err = s.err ∧ t.txing = s.txing := by
    rw [eq_of_exec_quiet_next hq h]
    exact ⟨rfl, rfl⟩
  cases i with
  | setLow p =>
    rw [eq_of_runBody_lines_next (m := fun c => setLow c p) (f := fun _ => 0) h]
    exact ⟨rfl, rfl⟩
  | setHigh p =>
    rw [eq_of_runBody_lines_next (m := fun c => setHigh c p) (f := fun _ => 0) h]
    exact ⟨rfl, rfl⟩
  | start ab | repStart ab | startWait ab | stop | writeByte v | readByte last => exact engine rfl
  | busEnd | available | read | peek | crc8 haddr len | crcCheck haddr len => exact quiet rfl
  | _ => cases hi

/-! ### The acknowledged bytes of WRITE_BUF (R117) -/

theorem ackedBytes_le (as : List Bool) : ackedBytes as ≤ as.length :=
  (List.takeWhile_prefix _).length_le

/-- A count of acknowledged bytes fits WRITE_BUF's result, since LEN has 16 bits. -/
theorem toNat_resOfCount_ackedBytes (l : Lines) (k : Nat) (len : BitVec 16) :
    (resOfCount (ackedBytes (l.answersFrom k len.toNat))).toNat = ackedBytes (l.answersFrom k len.toNat) := by
  have hle := ackedBytes_le (l.answersFrom k len.toNat)
  rw [length_answersFrom] at hle
  exact (BitVec.toNat_ofNat _ _).trans (Nat.mod_eq_of_lt (by omega))

theorem ackedBytes_cons_false (as : List Bool) : ackedBytes (false :: as) = ackedBytes as + 1 := rfl

theorem sentBytes_cons_false (as : List Bool) : sentBytes (false :: as) = sentBytes as + 1 := by
  simp only [sentBytes, ackedBytes_cons_false, List.length_cons, Nat.add_lt_add_iff_right]
  split <;> rfl

theorem ackedBytes_cons_true (as : List Bool) : ackedBytes (true :: as) = 0 := rfl

theorem sentBytes_cons_true (as : List Bool) : sentBytes (true :: as) = 1 := rfl

/-! ### WRITEs in a row (R115, R118) -/

section Writes

variable {s : State} {b : Byte}

theorem nextOf_eq_some_iff {o : Host.Outcome State Fault Refusal} {t : State} : nextOf o = some t ↔ o = .next t := by
  cases o <;> simp [nextOf]

theorem answersFrom_written (s : State) (b : Byte) (k n : Nat) :
    (s.written b).lines.answersFrom k n = s.lines.answersFrom (1 + k) n :=
  answersFrom_moved (c := s.cfg) (l := s.begun.lines) _ _ 1 _ k n

theorem mayLower_written (s : State) (b : Byte) : MayLower (s.written b) .sda := .inr rfl

/-- A state as a command reports it that did all that led to `u`: the whole event list, its own result. -/
def State.reporting (u : State) (es : List Event) (r : Result) : State :=
  { u with busy := false, res := r, lines := { u.lines with events := es } }

/-- The state after sending bytes with these acknowledge samples up to and with the first refused one. -/
def State.sent (s : State) (as : List Bool) (es : List Event) (r : Result) : State :=
  { s.movedTo (held s.cfg) (held s.cfg) (sentBytes as) es r with
    err := if ackedBytes as < as.length then errWriteNak else s.err }

/-- A byte that was acknowledged, then others. -/
theorem sent_written (ha : s.lines.answer 0 = false) (as : List Bool) (es : List Event) (r : Result) :
    (s.written b).sent as es r = s.sent (false :: as) es r := by
  simp [State.sent, State.written, State.movedTo, ha, sentBytes_cons_false, ackedBytes_cons_false, Nat.add_assoc,
    Nat.add_comm 1]

theorem reporting_written (es : List Event) (r : Result) :
    (s.written b).reporting es r = s.sent [s.lines.answer 0] es r := by
  cases ha : s.lines.answer 0 <;>
    simp [State.reporting, State.written, State.sent, State.movedTo, ha, sentBytes, ackedBytes]

/-- The WRITEs of `bs` up to and with the first refused one, where the acknowledge samples are `as`: how many are
acknowledged, their events, and the state they lead to. -/
def WritesRun (bs : List Byte) (as : List Bool) (s : State) : Prop :=
  ∃ u, writeUntilNak bs s = some (ackedBytes as, writeEachEvents (bs.take (sentBytes as)) as, u) ∧
    ∀ es r, u.reporting es r = s.sent as es r

theorem writesRun_refused (bs : List Byte) (as : List Bool) (h : b.getLsbD 7 = true ∨ MayLower s .sda)
    (ha : s.lines.answer 0 = true) : WritesRun (b :: bs) (true :: as) s := by
  refine ⟨s.written b, ?_, fun es r => ?_⟩
  · simp [writeUntilNak, exec_write_next h, nextOf, State.written, ha, ackedBytes_cons_true, sentBytes_cons_true,
      writeEachEvents]
  · rw [reporting_written, ha]
    simp [State.sent, ackedBytes_cons_true, sentBytes_cons_true]

theorem writeUntilNak_acknowledged (bs : List Byte) (h : b.getLsbD 7 = true ∨ MayLower s .sda)
    (ha : s.lines.answer 0 = false) : writeUntilNak (b :: bs) s =
      (writeUntilNak bs (s.written b)).map fun p => (p.1 + 1, writeByteEvents b false ++ p.2.1, p.2.2) := by
  simp [writeUntilNak, exec_write_next h, nextOf, State.written, ha]

/-- The last byte, acknowledged. -/
theorem writesRun_last (h : b.getLsbD 7 = true ∨ MayLower s .sda) (ha : s.lines.answer 0 = false) :
    WritesRun [b] [false] s := by
  refine ⟨s.written b, ?_, fun es r => ?_⟩
  · rw [writeUntilNak_acknowledged [] h ha]
    rfl
  · rw [reporting_written, ha]

/-- A byte that is acknowledged, before the WRITEs of others. -/
theorem WritesRun.cons {bs : List Byte} {as : List Bool} (h : b.getLsbD 7 = true ∨ MayLower s .sda)
    (ha : s.lines.answer 0 = false) (hrest : WritesRun bs as (s.written b)) :
    WritesRun (b :: bs) (false :: as) s := by
  obtain ⟨u, hu, hrep⟩ := hrest
  refine ⟨u, ?_, fun es r => (hrep es r).trans (sent_written ha as es r)⟩
  rw [writeUntilNak_acknowledged bs h ha, hu, sentBytes_cons_false, ackedBytes_cons_false]
  rfl

theorem writesRun_answers (b : Byte) (bs : List Byte) (s : State) (h : b.getLsbD 7 = true ∨ MayLower s .sda) :
    WritesRun (b :: bs) (s.lines.answersFrom 0 (bs.length + 1)) s := by
  induction bs generalizing b s with
  | nil =>
    rw [answersFrom_succ]
    cases ha : s.lines.answer 0 with
    | true => exact writesRun_refused [] _ h ha
    | false => exact writesRun_last h ha
  | cons b' bs ih =>
    rw [answersFrom_succ]
    cases ha : s.lines.answer 0 with
    | true => exact writesRun_refused _ _ h ha
    | false =>
      have hrest := ih b' (s.written b) (.inr (mayLower_written s b))
      rw [answersFrom_written] at hrest
      exact hrest.cons h ha

/-- The WRITEs of the bytes of a nonempty range. -/
theorem writesRun_range {haddr : BitVec 32} {len : BitVec 16} (hn : len ≠ 0) (h : FirstMaySend haddr s) :
    WritesRun (Memory.readRange s.hmem haddr.toNat len.toNat) (s.lines.answersFrom 0 len.toNat) s := by
  obtain ⟨n, hlen⟩ := exists_toNat_eq_succ hn
  have hrun := writesRun_answers (Memory.read s.hmem haddr.toNat) (Memory.readRange s.hmem (haddr.toNat + 1) n) s h
  rwa [← readRange_succ, length_readRange, ← hlen] at hrun

theorem answersFrom_opened (s : State) (a7 : BitVec 7) (k n : Nat) :
    (s.opened a7).lines.answersFrom k n = s.lines.answersFrom (1 + k) n :=
  answersFrom_moved (c := s.cfg) (l := s.begun.lines) _ _ 1 _ k n

/-- ERR as BEGIN_TX leaves it, as a result (R111). -/
theorem resOfByte_opened (s : State) (a7 : BitVec 7) :
    resOfByte (s.opened a7).err = if s.lines.answer 0 then 2 else s.err.setWidth 32 := by
  cases ha : s.lines.answer 0 <;> simp [State.opened, ha, resOfByte, errAddressNak]

/-- WRITEs of any bytes complete once SDA may be lowered; ERR after them is 3 where one was refused (R115). -/
theorem writeMany_completes (bs : List Byte) (s : State) (h : MayLower s .sda) :
    ∃ u, writeMany bs s = some u ∧ u.err = errAfterSamples (s.lines.answersFrom 0 bs.length) s.err ∧
      MayLower u .sda := by
  induction bs generalizing s with
  | nil => exact ⟨s, rfl, rfl, h⟩
  | cons b bs ih =>
    obtain ⟨u, hu, herr, hd⟩ := ih (s.written b) (mayLower_written s b)
    refine ⟨u, ?_, ?_, hd⟩
    · rw [writeMany, exec_write_next (.inr h)]
      exact hu
    · rw [herr, answersFrom_written, List.length_cons, answersFrom_succ]
      cases ha : s.lines.answer 0 <;> simp [errAfterSamples, State.written, ha]

/-- END_TX with either flag returns ERR, where its STOP completes (R112). -/
theorem exec_endTx_res (sendStop : Bool) (h : MayLower s .sda) :
    ∃ t, exec (.endTx sendStop) s = .next t ∧ t.res = resOfByte s.err := by
  cases sendStop with
  | false => exact ⟨_, exec_endTx_open s, rfl⟩
  | true => exact ⟨_, exec_endTx_close h, rfl⟩

end Writes

/-! ### READs among other commands (R124, R126) -/

section Reads

variable {s t u : State} {i : Instr} {cs : List Instr} {rs : List Result}

/-- What a READ answers with the cursor at `j` (R124). -/
def State.readAnswer (s : State) (j : Nat) : Result :=
  if j < s.rxlen.toNat then resOfByte (s.rxAt j) else sentinel

theorem readAnswer_of_le {j : Nat} (h : s.rxlen.toNat ≤ j) : s.readAnswer j = sentinel := if_neg (Nat.not_lt.mpr h)

/-- The state after a READ. -/
def State.afterRead (s : State) : State :=
  { s.answered (s.readAnswer s.rxpos.toNat) with rxpos := if s.rxpos < s.rxlen then s.rxpos + 1 else s.rxpos }

/-- READ completes from every state, whether a received byte is left or not. -/
theorem exec_read (s : State) : exec .read s = .next s.afterRead := by
  by_cases h : s.rxpos < s.rxlen
  · rw [exec_read_of_lt h, State.afterRead, State.readAnswer, if_pos h, if_pos (BitVec.lt_def.mp h)]
  · rw [exec_read_of_not_lt h, State.afterRead, State.readAnswer, if_neg h, if_neg (mt BitVec.lt_def.mpr h)]
    rfl

/-- The answers depend on what was received alone. -/
theorem readAnswer_congr (hlen : t.rxlen = s.rxlen) (hbuf : t.rxbuf = s.rxbuf) (j : Nat) :
    t.readAnswer j = s.readAnswer j := by
  simp only [State.readAnswer, State.rxAt, hlen, hbuf]

/-- A READ that completed moved the cursor to the next byte, and not past the valid length. -/
theorem exec_read_next (h : exec .read s = .next t) (hs : s.rxpos ≤ s.rxlen) :
    t.res = s.readAnswer s.rxpos.toNat ∧ t.rxpos.toNat = min (s.rxpos.toNat + 1) s.rxlen.toNat := by
  rw [exec_read] at h
  cases h
  refine ⟨rfl, ?_⟩
  dsimp only [State.afterRead]
  split <;> bv_omega

/-- What the rest of a run of commands answers after a READ. -/
theorem readAnswer_after_read (h : exec .read s = .next t) (hs : s.rxpos ≤ s.rxlen) (k : Nat) :
    t.readAnswer (t.rxpos.toNat + k) = s.readAnswer (s.rxpos.toNat + (k + 1)) := by
  obtain ⟨-, hlen⟩ := execRead_cursor h
  obtain ⟨-, hpos⟩ := exec_read_next h hs
  rw [readAnswer_congr hlen (exec_keepsRxbuf rfl h), hpos]
  obtain hlt | hge := Nat.lt_or_ge s.rxpos.toNat s.rxlen.toNat
  · congr 1; omega
  · rw [readAnswer_of_le (by omega), readAnswer_of_le (by omega)]

theorem readsAmong_cons (h : readsAmong (i :: cs) s = some (rs, u)) : ∃ t rs', exec i s = .next t ∧
    readsAmong cs t = some (rs', u) ∧ rs = if i = .read then t.res :: rs' else rs' := by
  simp only [readsAmong, Option.bind_eq_some_iff, Option.map_eq_some_iff, nextOf_eq_some_iff, Prod.mk.injEq] at h
  obtain ⟨t, ht, ⟨rs', u'⟩, hrest, hrs, rfl⟩ := h
  exact ⟨t, rs', ht, hrest, hrs.symm⟩

theorem readsAmong_replicate_read (n : Nat) (s : State) :
    ∃ rs u, readsAmong (List.replicate n .read) s = some (rs, u) := by
  induction n generalizing s with
  | zero => exact ⟨[], s, rfl⟩
  | succ n ih =>
    obtain ⟨rs, u, h⟩ := ih s.afterRead
    refine ⟨s.afterRead.res :: rs, u, ?_⟩
    rw [List.replicate_succ, readsAmong, exec_read]
    exact Option.map_eq_some_iff.mpr ⟨_, h, rfl⟩

/-- Among the commands that keep what was received, READ alone writes the cursor. -/
theorem writesCursor_of_keepsReceived (hi : keepsReceived i = true) (hread : i ≠ .read) : writesCursor i = false := by
  cases i with
  | read => exact absurd rfl hread
  | busBegin | requestFrom => cases hi
  | _ => rfl

theorem writesRxbuf_of_keepsReceived (hi : keepsReceived i = true) : writesRxbuf i = false := by
  cases i with
  | requestFrom => cases hi
  | _ => rfl

/-- R126: the READs among commands that keep what was received answer with its bytes in order, then -1. -/
theorem readsAmong_results (hcs : cs.all keepsReceived = true) (hs : s.rxpos ≤ s.rxlen)
    (h : readsAmong cs s = some (rs, u)) :
    rs = (List.range (cs.count .read)).map (fun k => s.readAnswer (s.rxpos.toNat + k)) ∧
    u.rxlen = s.rxlen ∧ u.rxpos.toNat = min (s.rxpos.toNat + cs.count .read) s.rxlen.toNat := by
  induction cs generalizing s rs with
  | nil =>
    cases h
    refine ⟨rfl, rfl, ?_⟩
    exact (min_eq_left (BitVec.le_def.mp hs)).symm
  | cons i cs ih =>
    obtain ⟨hi, hcs⟩ := Bool.and_eq_true_iff.mp (List.all_cons ▸ hcs)
    obtain ⟨t, rs', ht, hrest, rfl⟩ := readsAmong_cons h
    by_cases hread : i = .read
    · subst hread
      obtain ⟨-, hlen⟩ := execRead_cursor ht
      obtain ⟨hres, hpos⟩ := exec_read_next ht hs
      obtain ⟨rfl, hlen', hpos'⟩ := ih hcs (by rw [hlen]; bv_omega) hrest
      refine ⟨?_, hlen'.trans hlen, ?_⟩
      · rw [if_pos rfl, List.count_cons_self, List.range_succ_eq_map, List.map_cons, List.map_map, hres]
        simp only [readAnswer_after_read ht hs, Nat.add_zero, Function.comp_def, Nat.succ_eq_add_one]
      · rw [hpos', hpos, hlen, List.count_cons_self]
        omega
    · obtain ⟨hpos, hlen⟩ := exec_keepsCursor (writesCursor_of_keepsReceived hi hread) ht
      have hbuf := exec_keepsRxbuf (writesRxbuf_of_keepsReceived hi) ht
      obtain ⟨rfl, hlen', hpos'⟩ := ih hcs (by rwa [hpos, hlen]) hrest
      rw [if_neg hread, List.count_cons_of_ne hread]
      refine ⟨?_, hlen'.trans hlen, by rw [hpos', hpos, hlen]⟩
      simp only [readAnswer_congr hlen hbuf, hpos]

end Reads

end Sys2Proof.Machine
end

section
/-! SUPPORT. REQUEST_FROM as the rules of 42_transaction.md write it out (R119 to R122): its events, RXBUF after it, and
what it makes available. READ's answers as the rules write them (R123 to R125). -/

namespace Sys2Proof.Machine

open Sys2Proof.Claims

theorem addressEvents_eq (opened : Bool) (ab : Byte) (a : Bool) :
    addressEvents opened ab a = (if opened then repStartEvents ab else startEvents ab) a := by
  rw [addressEvents, ite_apply]

/-- The internal-address phase with its bytes from the most significant one down (R119, R120). -/
theorem internalEvents_eq (s : State) (a7 : BitVec 7) (iaddr : BitVec 24) (n : Nat) :
    internalEvents s a7 iaddr n = if n = 0 then [] else
      addressEvents s.txing (a7 ++ 0#1) (s.lines.answer 0) ++
        writeEachEvents ((List.range n).reverse.map fun k => iaddr.extractLsb' (8 * k) 8)
          (s.lines.answersFrom 1 n) := by
  rw [internalEvents, addressByte_write, iaddrBytes_eq]

theorem length_requestBytes (s : State) (n q : Nat) : (requestBytes s n q).length = q := by
  simp [requestBytes]

theorem getElem?_requestBytes (s : State) (n : Nat) {q k : Nat} (hk : k < q) :
    (requestBytes s n q)[k]? = some (s.lines.byteAt (internalSamples n + 1 + 8 * k)) := by
  simp [requestBytes, hk]

/-- RXBUF after a REQUEST_FROM: the bytes read, then what stood there. -/
theorem putAt_requestBytes {s : State} (n : Nat) {q : Nat} (h : q ≤ s.rxbuf.length) :
    putAt s.rxbuf 0 (requestBytes s n q) = requestBytes s n q ++ s.rxbuf.drop q := by
  rw [putAt_fits _ _ _ (by rwa [Nat.zero_add, length_requestBytes]), length_requestBytes, List.take_zero,
    List.nil_append, Nat.zero_add]

theorem requestAvailable_cases (s : State) (n q : Nat) : requestAvailable s n q = 0 ∨ requestAvailable s n q = q :=
  ite_eq_or_eq ..

/-- A nonempty request is answered in full exactly where both address phases were acknowledged (R122). -/
theorem requestAvailable_eq_iff {s : State} {n q : Nat} (hq : q ≠ 0) : requestAvailable s n q = q ↔
    internalError s n = errNone ∧ s.lines.answer (internalSamples n) = false := by
  rw [requestAvailable, ite_eq_right_iff, imp_iff_not (Ne.symm hq), not_or, not_not, Bool.not_eq_true]

section Requested

variable {a7 : BitVec 7} {qty : Byte} {iaddr : BitVec 24} {isize : BitVec 2} {sendStop : Bool} {s t : State}

/-- The result is the count made available, which is RXLEN. -/
theorem execRequestFrom_res (h : exec (.requestFrom a7 qty iaddr isize sendStop) s = .next t) :
    t.res.toNat = requestAvailable s isize.toNat (clampQty s.cfg qty) ∧ t.rxlen.toNat = t.res.toNat := by
  obtain ⟨-, hlen, -⟩ := execRequestFrom_received h
  have hlt := (requestAvailable_le s isize.toNat (clampQty s.cfg qty)).trans_lt (clampQty_lt s.cfg qty)
  have hres : t.res.toNat = requestAvailable s isize.toNat (clampQty s.cfg qty) := by
    rw [eq_of_exec_requestFrom_next h]
    exact (BitVec.toNat_ofNat _ _).trans (Nat.mod_eq_of_lt (by omega))
  exact ⟨hres, hlen.trans hres.symm⟩

/-- Each byte made available is the slave's (R121). -/
theorem execRequestFrom_rxbuf (h : exec (.requestFrom a7 qty iaddr isize sendStop) s = .next t)
    (hcap : s.rxbuf.length = s.cfg.rxCap) {k : Nat} (hk : k < t.res.toNat) :
    t.rxbuf[k]? = some (s.lines.byteAt (internalSamples isize.toNat + 1 + 8 * k)) := by
  obtain ⟨-, -, hbuf⟩ := execRequestFrom_received h
  obtain ⟨hres, -⟩ := execRequestFrom_res h
  have hq : k < clampQty s.cfg qty := (hk.trans_eq hres).trans_le (requestAvailable_le ..)
  rw [hbuf, putAt_requestBytes _ (by rw [hcap]; exact min_le_right _ _),
    List.getElem?_append_left (by rwa [length_requestBytes]), getElem?_requestBytes s _ hq]

end Requested

theorem ite_toNat_eq_zero {α : Type} (n : BitVec 2) (a b : α) :
    (if n.toNat = 0 then a else b) = if n = 0 then a else b :=
  if_congr (BitVec.toNat_inj (y := 0)) rfl rfl

/-! ### Results -/

theorem resOfBool_and (a b : Bool) : resOfBool (a && b) = if a = true ∧ b = true then 1 else 0 := by
  cases a <;> cases b <;> rfl

theorem resOfByte_eq (b : Byte) : resOfByte b = BitVec.ofNat 32 b.toNat := (BitVec.ofNat_toNat 32 b).symm

theorem sentinel_eq : sentinel = BitVec.ofInt 32 (-1) := by decide

theorem rxAt_of_getElem? {s : State} {i : Nat} {b : Byte} (h : s.rxbuf[i]? = some b) : s.rxAt i = b := by
  rw [State.rxAt, h]

/-- AVAILABLE's difference, where RXPOS has not passed RXLEN. -/
theorem resOfByte_sub {a b : Byte} (h : b ≤ a) : resOfByte a - resOfByte b = BitVec.ofNat 32 (a.toNat - b.toNat) := by
  rw [resOfByte_eq, resOfByte_eq]
  bv_omega

end Sys2Proof.Machine
end

section
/-! The obligations of 42_transaction.md. -/

namespace Sys2Proof.Proofs

open Sys2Proof.Machine Sys2Proof.Claims

/-- Settles O30: the events of every other command hold no sample of SCL. -/
theorem onlyBusBeginSamplesScl : Obligations.OnlyBusBeginSamplesScl := by
  intro i s t b h hmem
  by_contra hi
  exact absurd (samplesScl_of_mem hmem) (ne_true_of_eq_false (samplesScl_of_exec_next hi h))

/-- Settles O35: a START faults where a line may not be lowered, a repeated START never. -/
theorem beginTxOpensATransaction : Obligations.BeginTxOpensATransaction := by
  intro a7 s
  refine ⟨fun h => ?_, exec_beginTx_fault⟩
  rw [exec_beginTx_next h, State.opened, addressEvents_eq]
  rfl

/-- Settles O37: the byte goes out as WRITE_BYTE's, and its acknowledge decides ERR. -/
theorem writeSendsOneByte : Obligations.WriteSendsOneByte :=
  fun _ _ => ⟨exec_write_next, exec_write_fault⟩

/-- Settles O38: the range check, then the bytes of the range up to the first refused one. -/
theorem writeBufSendsUpToTheFirstNak : Obligations.WriteBufSendsUpToTheFirstNak :=
  fun _ _ _ => ⟨exec_writeBuf_rangeFault, fun hfit =>
    ⟨exec_writeBuf_empty hfit, exec_writeBuf_next hfit, exec_writeBuf_fault hfit⟩⟩

/-- Settles O39: both send the bytes up to and with the first refused one. -/
theorem writeBufIsAsManyWrites : Obligations.WriteBufIsAsManyWrites := by
  intro haddr len s t h
  obtain ⟨hfit, hn | ⟨hn, hsend⟩⟩ := exec_writeBuf_next_cases h
  · rw [exec_writeBuf_empty hfit hn] at h
    cases h
    subst hn
    exact ⟨0, [], s, rfl, rfl⟩
  · obtain ⟨u, hu, hrep⟩ := writesRun_range hn hsend
    rw [exec_writeBuf_next hfit hn hsend] at h
    cases h
    refine ⟨_, _, u, hu, .trans ?_ (hrep _ _).symm⟩
    rw [State.sent, length_answersFrom]
    rfl

/-- Settles O40: the events and RXBUF of the next state as the rules write them out. -/
theorem requestFromReadsIntoTheBuffer : Obligations.RequestFromReadsIntoTheBuffer := by
  intro a7 qty iaddr isize sendStop s
  refine ⟨fun h hcap => ?_, exec_requestFrom_fault⟩
  have hq : clampQty s.cfg qty ≤ s.rxbuf.length := by rw [hcap]; exact min_le_right _ _
  rw [exec_requestFrom_next (txing_or_lowerable h), State.requested, putAt_requestBytes _ hq, requestEvents,
    internalEvents_eq, ite_toNat_eq_zero isize s.err]
  rfl

/-- Settles O41: the count made available is 0 or the clamped quantity. -/
theorem requestFromClampsItsQuantity : Obligations.RequestFromClampsItsQuantity := by
  intro a7 qty iaddr isize sendStop s t h
  obtain ⟨hres, hlen⟩ := execRequestFrom_res h
  refine ⟨?_, hlen, ?_, fun hq => ?_⟩
  · rw [hres]
    exact requestAvailable_cases s _ _
  · rw [hres]
    exact (requestAvailable_le ..).trans (min_le_right _ _)
  · rw [hres]
    exact requestAvailable_eq_iff hq

/-- Settles O45: the READs answer from the cursor on, which REQUEST_FROM set to 0, up to RXLEN, which it set to `n`. -/
theorem readsReturnTheRequestedBytes : Obligations.ReadsReturnTheRequestedBytes := by
  intro a7 qty iaddr isize sendStop s t hs h n
  have hbytes (k : Nat) (hk : k < n) := execRequestFrom_rxbuf h hs.capacity hk
  obtain ⟨hcursor, -, -⟩ := execRequestFrom_received h
  obtain ⟨-, hlen⟩ := execRequestFrom_res h
  have hpos : t.rxpos.toNat = 0 := congrArg BitVec.toNat hcursor
  refine ⟨hbytes, readsAmong_replicate_read n t, fun cs rs u hcs hrun => ?_⟩
  obtain ⟨rfl, hlenu, hposu⟩ := readsAmong_results hcs (exec_stateOk h hs).cursor hrun
  refine ⟨by simp, fun k hk => ?_, fun hn => ?_⟩
  · have hk' : k < cs.count .read := by simpa using hk
    rw [List.getElem?_map, List.getElem?_range hk', Option.map_some, hpos, Nat.zero_add,
      State.readAnswer, hlen]
    split
    · next hkn => rw [hbytes k hkn, rxAt_of_getElem? (hbytes k hkn), Option.map_some, resOfByte_eq]
    · rw [sentinel_eq]
  · rw [List.length_map, List.length_range] at hn
    have hend : u.rxpos.toNat = u.rxlen.toNat := by
      rw [hposu, hlenu, hlen, hpos, Nat.zero_add]
      exact min_eq_right hn
    have heq : u.rxpos = u.rxlen := BitVec.eq_of_toNat_eq hend
    have hstop : ¬ u.rxpos < u.rxlen := heq ▸ BitVec.lt_irrefl _
    refine ⟨_, _, _, exec_read_of_not_lt hstop, sentinel_eq, exec_peek_of_not_lt hstop, sentinel_eq,
      exec_available u, ?_⟩
    rw [answered_res, heq]
    exact BitVec.sub_self _

/-- Settles O46: END_TX returns the ERR that BEGIN_TX left, and the address phase left SDA low. -/
theorem probeReportsTheAcknowledge : Obligations.ProbeReportsTheAcknowledge := by
  intro a7 s h
  refine ⟨_, _, exec_beginTx_next h, exec_endTx_close (.inr rfl), ?_, fun herr => ?_, rfl, rfl⟩
  · exact resOfByte_opened s a7
  · exact (resOfByte_opened s a7).trans (by rw [herr]; rfl)

/-- Settles O47: ERR after the WRITEs is 3 if one was refused, else what the address phase left. -/
theorem endTxAfterWritesReportsTheWorst : Obligations.EndTxAfterWritesReportsTheWorst := by
  intro a7 bs sendStop s herr h
  obtain ⟨u, hu, herru, hd⟩ := writeMany_completes bs (s.opened a7) (.inr rfl)
  obtain ⟨v, hv, hres⟩ := exec_endTx_res sendStop hd
  refine ⟨_, u, v, exec_beginTx_next h, hu, hv, ?_⟩
  rw [hres, herru, answersFrom_opened, errAfterSamples, State.opened, herr]
  cases (s.lines.answersFrom 1 bs.length).any id <;> cases s.lines.answer 0 <;> rfl

/-- Settles O48: the six writers by their next states, every other command by what it keeps. -/
theorem errAndTxingFollowTheTable : Obligations.ErrAndTxingFollowTheTable := by
  intro i s t h
  cases i with
  | busBegin => cases h; exact ⟨rfl, rfl⟩
  | beginTx a7 => rw [eq_of_exec_beginTx_next h]; exact ⟨rfl, rfl⟩
  | endTx sendStop =>
    cases sendStop with
    | false => rw [exec_endTx_open] at h; cases h; exact ⟨rfl, rfl⟩
    | true => rw [eq_of_exec_endTx_close_next h]; exact ⟨rfl, rfl⟩
  | write b => rw [eq_of_exec_write_next h]; exact ⟨rfl, rfl⟩
  | writeBuf haddr len =>
    obtain ⟨hfit, hn | ⟨hn, hsend⟩⟩ := exec_writeBuf_next_cases h
    · rw [exec_writeBuf_empty hfit hn] at h
      cases h
      subst hn
      exact ⟨rfl, rfl⟩
    · rw [exec_writeBuf_next hfit hn hsend] at h
      cases h
      refine ⟨?_, rfl⟩
      rw [errTable, movedTo_res, toNat_resOfCount_ackedBytes]
      rfl
  | requestFrom a7 qty iaddr isize sendStop =>
    rw [eq_of_exec_requestFrom_next h, State.requested, ite_toNat_eq_zero]
    exact ⟨rfl, rfl⟩
  | _ => exact exec_keepsErrAndTxing rfl h

/-- Settles O52: the six commands answer, and READ moves the cursor. -/
theorem quietCommandsTouchNoLine : Obligations.QuietCommandsTouchNoLine := by
  intro i s t hi h
  have ht := eq_of_exec_quiet_next hi h
  refine ⟨ht, fun hread => ?_, fun a => by rw [ht]; rfl⟩
  cases i with
  | read => exact absurd rfl hread
  | busEnd | available | peek | crc8 | crcCheck => exact (exec_keepsCursor rfl h).1
  | _ => cases hi

/-- Settles O33: the handle is reset, both lines are released and sampled. -/
theorem busBeginResetsTheHandle : Obligations.BusBeginResetsTheHandle := by
  intro s
  rw [exec_busBegin, resOfBool_and]
  rfl

/-- Settles O34: the body is empty. -/
theorem busEndChangesNothing : Obligations.BusEndChangesNothing :=
  exec_busEnd

/-- Settles O36: END_TX 1 faults exactly where its STOP does. -/
theorem endTxReportsTheError : Obligations.EndTxReportsTheError :=
  fun s => ⟨exec_endTx_open s, exec_endTx_close, exec_endTx_fault⟩

/-- Settles O42: the difference of the two registers does not borrow. -/
theorem availableCountsTheBytesLeft : Obligations.AvailableCountsTheBytesLeft := by
  intro s h
  rw [exec_available, resOfByte_sub h]

/-- Settles O43: the byte at the cursor, or the sentinel. -/
theorem readTakesTheNextByte : Obligations.ReadTakesTheNextByte := by
  intro s
  constructor
  · intro b hlt hb
    rw [exec_read_of_lt hlt, rxAt_of_getElem? hb, resOfByte_eq]
  · intro hle
    rw [exec_read_of_not_lt (BitVec.not_lt.mpr hle), sentinel_eq]

/-- Settles O44: as READ, the cursor left where it is. -/
theorem peekLooksAtTheNextByte : Obligations.PeekLooksAtTheNextByte := by
  intro s
  constructor
  · intro b hlt hb
    rw [exec_peek_of_lt hlt, rxAt_of_getElem? hb, resOfByte_eq]
  · intro hle
    rw [exec_peek_of_not_lt (BitVec.not_lt.mpr hle), sentinel_eq]

end Sys2Proof.Proofs
end

section
/-! SUPPORT. The CRC-8 validator (43_crc.md). The shift step of R130 is linear, is the spec's step on numbers, is
injective, and keeps the parity of the 1 bits; from it the same of one byte's step and of crc8. The check of a frame
(R134); the next state and the range fault of the two commands. -/

namespace Sys2Proof.Machine

open Sys2Proof.Claims

/-! ### The shift step (R130) -/

/-- The truncation of R130's step to a byte leaves the low byte of 0x131. -/
theorem crcShift_eq (c : Byte) : crcShift c = (c <<< 1) ^^^ (if c.getLsbD 7 then 0x31#8 else 0#8) := by
  by_cases h : c.getLsbD 7 = true
  · rw [crcShift, if_pos h, if_pos h, BitVec.setWidth_xor]
    congr 1
    ext i hi
    simp [BitVec.getElem_shiftLeft]
  · rw [crcShift, if_neg h, if_neg h, BitVec.xor_zero]

theorem crcShift_xor (a b : Byte) : crcShift (a ^^^ b) = crcShift a ^^^ crcShift b := by
  have hmask : (if (a ^^^ b).getLsbD 7 then 0x31#8 else 0#8) =
      (if a.getLsbD 7 then 0x31#8 else 0#8) ^^^ (if b.getLsbD 7 then 0x31#8 else 0#8) := by
    rw [BitVec.getLsbD_xor]
    cases a.getLsbD 7 <;> cases b.getLsbD 7 <;> rfl
  rw [crcShift_eq, crcShift_eq, crcShift_eq, BitVec.shiftLeft_xor_distrib, hmask]
  ac_rfl

theorem getLsbD_top (c : Byte) : c.getLsbD 7 = decide (128 ≤ c.toNat) := BitVec.msb_eq_decide c

/-- The XOR with 0x131 clears bit 8, so the truncation to a byte loses no bit. -/
theorem toNat_crcShift (c : Byte) : (crcShift c).toNat = crcStepNat c.toNat := by
  have hdouble : c.toNat <<< 1 = 2 * c.toNat := by rw [Nat.shiftLeft_eq, Nat.mul_comm]
  by_cases htop : 128 ≤ c.toNat
  · have hv : (((c.setWidth 9) <<< 1) ^^^ 0x131#9).toNat = 2 * c.toNat ^^^ 0x131 := by
      rw [BitVec.toNat_xor, BitVec.toNat_shiftLeft, BitVec.toNat_setWidth_of_le (by decide), hdouble,
        Nat.mod_eq_of_lt (by omega)]
      rfl
    have hbit : (((c.setWidth 9) <<< 1) ^^^ 0x131#9).msb = false := by
      simp [BitVec.msb, BitVec.getMsbD, getLsbD_top, htop]
    rw [crcShift, getLsbD_top, if_pos (decide_eq_true htop), crcStepNat, if_pos (by omega), BitVec.toNat_setWidth, ← hv]
    exact Nat.mod_eq_of_lt (BitVec.toNat_lt_of_msb_false hbit)
  · rw [crcShift, getLsbD_top, decide_eq_false htop, if_neg Bool.false_ne_true, crcStepNat, if_neg (by omega),
      BitVec.toNat_shiftLeft, hdouble, Nat.mod_eq_of_lt (by omega)]

/-- 0x131 is odd, so no number doubles to it. -/
theorem crcStepNat_eq_zero {c : Nat} (h : crcStepNat c = 0) : c = 0 := by
  unfold crcStepNat at h
  split at h
  · have hdouble := Nat.xor_eq_zero_iff.mp h
    omega
  · omega

theorem crcShift_eq_zero {c : Byte} (h : crcShift c = 0) : c = 0 :=
  BitVec.eq_of_toNat_eq (crcStepNat_eq_zero ((toNat_crcShift c).symm.trans (congrArg BitVec.toNat h)))

theorem crcShift_injective : Function.Injective crcShift := by
  intro a b h
  rw [← BitVec.xor_eq_zero_iff, ← crcShift_xor] at h
  exact BitVec.xor_eq_zero_iff.mp (crcShift_eq_zero h)

theorem crcShifts_xor (n : Nat) (a b : Byte) : crcShifts n (a ^^^ b) = crcShifts n a ^^^ crcShifts n b := by
  induction n generalizing a b with
  | zero => rfl
  | succ n ih => simp only [crcShifts, crcShift_xor, ih]

theorem crcShifts_injective (n : Nat) : Function.Injective (crcShifts n) := by
  induction n with
  | zero => exact Function.injective_id
  | succ n ih => exact ih.comp crcShift_injective

/-! ### One byte, and a list of bytes -/

theorem crcByte_xor (c c' x x' : Byte) : crcByte (c ^^^ c') (x ^^^ x') = crcByte c x ^^^ crcByte c' x' := by
  rw [crcByte, crcByte, crcByte, ← crcShifts_xor]
  congr 1
  ac_rfl

theorem crcByte_left_injective (x : Byte) : Function.Injective (crcByte · x) :=
  fun _ _ h => (BitVec.xor_left_inj x).mp (crcShifts_injective 8 h)

theorem crcByte_right_injective (c : Byte) : Function.Injective (crcByte c) :=
  fun _ _ h => (BitVec.xor_right_inj c).mp (crcShifts_injective 8 h)

/-- A byte equal to the running CRC takes it to 0. -/
theorem crcByte_self (c : Byte) : crcByte c c = 0 := by
  rw [crcByte, BitVec.xor_self]
  rfl

theorem crcByte_eq_zero_iff {c x : Byte} : crcByte c x = 0 ↔ c = x := by
  rw [← crcByte_self c, (crcByte_right_injective c).eq_iff, eq_comm]

/-- The bytes that follow keep two running CRCs apart. -/
theorem foldl_crcByte_injective (d : List Byte) : Function.Injective (d.foldl crcByte) := by
  induction d with
  | nil => exact Function.injective_id
  | cons x d ih => exact ih.comp (crcByte_left_injective x)

theorem foldl_crcByte_xor (a b : List Byte) (c c' : Byte) (h : a.length = b.length) :
    (List.zipWith (· ^^^ ·) a b).foldl crcByte (c ^^^ c') = a.foldl crcByte c ^^^ b.foldl crcByte c' := by
  induction a generalizing b c c' with
  | nil =>
    obtain rfl := List.length_eq_zero_iff.mp h.symm
    rfl
  | cons x a ih =>
    cases b with
    | nil => cases h
    | cons y b =>
      simp only [List.zipWith_cons_cons, List.foldl_cons, crcByte_xor]
      exact ih b _ _ (Nat.succ.inj h)

/-- R132 (c). -/
theorem crc8_xor {a b : List Byte} (h : a.length = b.length) :
    crc8 (List.zipWith (· ^^^ ·) a b) = crc8 a ^^^ crc8 b :=
  foldl_crcByte_xor a b 0 0 h

theorem crc8_concat (a : List Byte) (x : Byte) : crc8 (a ++ [x]) = crcByte (crc8 a) x :=
  List.foldl_concat crcByte 0 x a

theorem crc8_singleton (x : Byte) : crc8 [x] = crcShifts 8 x :=
  congrArg (crcShifts 8) BitVec.zero_xor

/-- R132 (f). -/
theorem crc8_zero_cons (a : List Byte) : crc8 (0 :: a) = crc8 a := rfl

/-- R132 (b). -/
theorem crc8_replicate_zero (n : Nat) : crc8 (List.replicate n 0) = 0 := by
  induction n with
  | zero => rfl
  | succ n ih => rw [List.replicate_succ, crc8_zero_cons, ih]

/-- R132 (d): a byte's step is the checksum of one byte, which the table of R133 holds. -/
theorem crc8_concat_eq_singleton (a : List Byte) (x : Byte) : crc8 (a ++ [x]) = crc8 [crc8 a ^^^ x] := by
  rw [crc8_concat, crc8_singleton, crcByte]

theorem map_crc8_eq_crcTable : (List.range 256).map (fun i => crc8 [BitVec.ofNat 8 i]) = crcTable := by
  decide +kernel

theorem crcTable_getElem? (v : Byte) : crcTable[v.toNat]? = some (crc8 [v]) := by
  rw [← map_crc8_eq_crcTable, List.getElem?_map, List.getElem?_range v.isLt, Option.map_some, BitVec.ofNat_toNat,
    BitVec.setWidth_eq]

/-! ### The check of a frame (R134) -/

theorem crcPasses_concat (a : List Byte) (k : Byte) : crcPasses (a ++ [k]) = (crc8 a == k) := by
  rw [crcPasses, List.getLast?_concat, List.dropLast_concat]

theorem crcPasses_iff_crc8_eq_zero {f : List Byte} (hf : f ≠ []) : crcPasses f = true ↔ crc8 f = 0 := by
  obtain rfl | ⟨a, k, rfl⟩ := f.eq_nil_or_concat'
  · contradiction
  · rw [crcPasses_concat, beq_iff_eq, crc8_concat, crcByte_eq_zero_iff]

theorem ne_nil_of_crcPasses {f : List Byte} (h : crcPasses f = true) : f ≠ [] := by
  rintro rfl
  cases h

theorem crc8_eq_zero_of_crcPasses {f : List Byte} (h : crcPasses f = true) : crc8 f = 0 :=
  (crcPasses_iff_crc8_eq_zero (ne_nil_of_crcPasses h)).mp h

theorem crcPasses_eq_false_of_crc8_ne_zero {f : List Byte} (h : crc8 f ≠ 0) : crcPasses f = false :=
  Bool.eq_false_of_not_eq_true fun hf => h (crc8_eq_zero_of_crcPasses hf)

/-- Two lists that differ in one byte have different checksums. -/
theorem crc8_ne_of_byte_ne (a b : List Byte) {x y : Byte} (h : x ≠ y) : crc8 (a ++ x :: b) ≠ crc8 (a ++ y :: b) := by
  simp only [crc8, List.foldl_append, List.foldl_cons]
  exact (foldl_crcByte_injective b).ne ((crcByte_right_injective _).ne h)

/-! ### Parity (R135 (b)): 0x131 has an even number of 1 bits, so the steps of R130 keep it -/

theorem wireBits_xor (a b : Byte) : wireBits (a ^^^ b) = List.zipWith xor (wireBits a) (wireBits b) := by
  simp [wireBits]

theorem countP_zipWith_xor (p q : List Bool) (h : p.length = q.length) :
    (List.zipWith xor p q).countP id % 2 = (p.countP id + q.countP id) % 2 := by
  induction p generalizing q with
  | nil =>
    obtain rfl := List.length_eq_zero_iff.mp h.symm
    rfl
  | cons x p ih =>
    cases q with
    | nil => cases h
    | cons y q =>
      have htail := ih q (Nat.succ.inj h)
      cases x <;> cases y <;> simp <;> omega

theorem onesOf_xor (a b : Byte) : onesOf (a ^^^ b) % 2 = (onesOf a + onesOf b) % 2 := by
  rw [onesOf, wireBits_xor]
  exact countP_zipWith_xor _ _ rfl

theorem onesOf_shiftLeft (c : Byte) : onesOf c = onesOf (c <<< 1) + if c.getLsbD 7 then 1 else 0 := by
  simp [onesOf, wireBits, List.countP_cons]

theorem onesOf_crcShift (c : Byte) : onesOf (crcShift c) % 2 = onesOf c % 2 := by
  rw [crcShift_eq, onesOf_xor, onesOf_shiftLeft c]
  by_cases h : c.getLsbD 7 = true
  · rw [if_pos h, if_pos h, show onesOf 0x31#8 = 3 from rfl]
    omega
  · rw [if_neg h, if_neg h, show onesOf 0#8 = 0 from rfl]

theorem onesOf_crcShifts (n : Nat) (c : Byte) : onesOf (crcShifts n c) % 2 = onesOf c % 2 := by
  induction n generalizing c with
  | zero => rfl
  | succ n ih => rw [crcShifts, ih, onesOf_crcShift]

theorem onesOf_foldl_crcByte (d : List Byte) (c : Byte) :
    onesOf (d.foldl crcByte c) % 2 = (onesOf c + (d.map onesOf).sum) % 2 := by
  induction d generalizing c with
  | nil => rfl
  | cons x d ih =>
    have hx : onesOf (crcByte c x) % 2 = (onesOf c + onesOf x) % 2 := (onesOf_crcShifts 8 _).trans (onesOf_xor c x)
    rw [List.foldl_cons, ih, List.map_cons, List.sum_cons, ← Nat.add_assoc, Nat.add_mod, hx, ← Nat.add_mod]

/-- The checksum has the parity of the list. -/
theorem onesOf_crc8 (d : List Byte) : onesOf (crc8 d) % 2 = (d.map onesOf).sum % 2 := by
  rw [crc8, onesOf_foldl_crcByte, show onesOf 0 = 0 from rfl, Nat.zero_add]

/-! ### The checksum on numbers (R130): each step is `toNat_crcShift` -/

theorem toNat_crcShifts (n : Nat) (c : Byte) : (crcShifts n c).toNat = crcStepNat^[n] c.toNat := by
  induction n generalizing c with
  | zero => rfl
  | succ n ih => rw [crcShifts, ih, toNat_crcShift, Function.iterate_succ_apply]

theorem toNat_crcByte (c x : Byte) : (crcByte c x).toNat = crcStepNat^[8] (c.toNat ^^^ x.toNat) := by
  rw [crcByte, toNat_crcShifts, BitVec.toNat_xor]

theorem toNat_crc8 (d : List Byte) : (crc8 d).toNat = crcNat (d.map BitVec.toNat) := by
  rw [crcNat, List.foldl_map]
  exact (List.foldl_hom BitVec.toNat (g₁ := crcByte) (g₂ := fun c x => crcStepNat^[8] (c ^^^ x.toNat)) (init := 0)
    fun c x => (toNat_crcByte c x).symm).symm

/-! ### The two commands (R131, R134) -/

section Commands

variable {haddr : BitVec 32} {len : BitVec 16} {s : State}

/-- The bytes of a nonempty range: the one at its end, after the others. -/
theorem readRange_concat (m : Memory) (a n : Nat) :
    Memory.readRange m a (n + 1) = Memory.readRange m a n ++ [Memory.read m (a + n)] := by
  rw [Memory.readRange, List.range_succ, List.map_append]
  rfl

theorem runOnRange_pure (f : List Byte → Result) (h : haddr.toNat + len.toNat ≤ s.cfg.hmemSize) :
    runOnRange haddr len (fun bytes => pure (f bytes)) s =
      .next (s.answered (f (Memory.readRange s.hmem haddr.toNat len.toNat))) := by
  rw [runOnRange_fits h]
  rfl

theorem exec_crc8_next (h : haddr.toNat + len.toNat ≤ s.cfg.hmemSize) : exec (.crc8 haddr len) s =
    .next (s.answered (resOfByte (crc8 (Memory.readRange s.hmem haddr.toNat len.toNat)))) :=
  runOnRange_pure (fun bytes => resOfByte (crc8 bytes)) h

theorem exec_crcCheck_next (h : haddr.toNat + len.toNat ≤ s.cfg.hmemSize) : exec (.crcCheck haddr len) s =
    .next (s.answered (resOfBool (crcPasses (Memory.readRange s.hmem haddr.toNat len.toNat)))) :=
  runOnRange_pure (fun bytes => resOfBool (crcPasses bytes)) h

theorem exec_crc8_rangeFault (h : s.cfg.hmemSize < haddr.toNat + len.toNat) :
    exec (.crc8 haddr len) s = rangeFault haddr len s :=
  runOnRange_fault (body := fun bytes => pure (resOfByte (crc8 bytes))) h

theorem exec_crcCheck_rangeFault (h : s.cfg.hmemSize < haddr.toNat + len.toNat) :
    exec (.crcCheck haddr len) s = rangeFault haddr len s :=
  runOnRange_fault (body := fun bytes => pure (resOfBool (crcPasses bytes))) h

end Commands

end Sys2Proof.Machine
end

section
/-! The obligations of 43_crc.md. -/

namespace Sys2Proof.Proofs

open Sys2Proof.Machine Sys2Proof.Claims

/-- Settles O54: each step of R130 is the step on numbers. -/
theorem checksumIsTheSpecs : Obligations.ChecksumIsTheSpecs :=
  toNat_crc8

/-- Settles O55: both run on the range's bytes; a nonempty range splits into its last byte and those before it. -/
theorem crcCommandsAnswer : Obligations.CrcCommandsAnswer := by
  intro h n s f
  have hf : f = Memory.readRange s.hmem h.toNat n.toNat := rfl
  refine ⟨fun hfit => ⟨?_, fun hn => ?_, fun hn => ?_⟩, fun hout =>
    ⟨exec_crc8_rangeFault hout, exec_crcCheck_rangeFault hout⟩⟩
  · rw [exec_crc8_next hfit, resOfByte_eq, toNat_crc8, hf]
  · rw [exec_crcCheck_next hfit, hn]
    rfl
  · obtain ⟨m, hm⟩ := exists_toNat_eq_succ hn
    have hlast : f = Memory.readRange s.hmem h.toNat m ++ [Memory.read s.hmem (h.toNat + m)] := by
      rw [hf, hm, readRange_concat]
    rw [exec_crcCheck_next hfit, ← hf, hlast, hm, Nat.add_sub_cancel,
      List.take_left' (length_readRange _ _ _), crcPasses_concat, ← toNat_crc8]
    simp only [resOfBool, beq_iff_eq, BitVec.toNat_inj]

/-- Settles O56: linearity and the laws of a byte, carried over the list; the table is a finite check. -/
theorem checksumLaws : Obligations.ChecksumLaws := by
  refine ⟨rfl, crc8_replicate_zero, fun a b h => crc8_xor h, crc8_concat_eq_singleton, fun a x => ?_, fun a => ?_,
    crc8_zero_cons, map_crc8_eq_crcTable⟩
  · rw [crcTable_getElem?, crc8_concat_eq_singleton]
  · rw [crc8_concat, crcByte_self]

/-- Settles O57: the last byte takes the running CRC to 0 exactly where it equals it. -/
theorem framePassesWhenItsChecksumIsZero : Obligations.FramePassesWhenItsChecksumIsZero :=
  fun _ => crcPasses_iff_crc8_eq_zero

/-- Settles O58: the changed byte gives another running CRC, and the bytes after it keep the two apart. -/
theorem oneByteErrorsAreDetected : Obligations.OneByteErrorsAreDetected := by
  intro f k e hpass hk he
  obtain ⟨a, x, b, hf, -, hmod⟩ := List.exists_of_modify (· ^^^ e) hk
  have hx : x ^^^ e ≠ x := by
    intro hxe
    exact he ((BitVec.xor_right_inj x).mp (hxe.trans BitVec.xor_zero.symm))
  rw [hmod]
  apply crcPasses_eq_false_of_crc8_ne_zero
  rw [← crc8_eq_zero_of_crcPasses hpass, hf]
  exact crc8_ne_of_byte_ne a b hx

/-- Settles O59: the checksum of the frame in error is the error's, whose parity is odd. -/
theorem oddErrorsAreDetected : Obligations.OddErrorsAreDetected := by
  intro f e hlen hpass hodd
  apply crcPasses_eq_false_of_crc8_ne_zero
  rw [crc8_xor hlen.symm, crc8_eq_zero_of_crcPasses hpass]
  intro he
  replace he : crc8 e = 0 := (BitVec.xor_eq_zero_iff.mp he).symm
  rw [← onesOf_crc8, he] at hodd
  cases hodd

end Sys2Proof.Proofs
end

section
/-! SUPPORT. How a command word and a command stop (60_exceptions.md R150 to R155): the answer of `issue` in each of its
cases in the order of R153, and the four ways in which the common step of a command ends. -/

namespace Sys2Proof.Machine

open Sys2Proof.Claims

/-! ### A command word on port CMD (R151, R152, R153, R155) -/

theorem step_fault {s : State} {code : FaultCode} (hf : s.fault = some code) : step s = .fault (.noStep code) := by
  simp only [step, advance, hf]

theorem issue_busy {s : State} (w : Word) (hb : s.busy = true) :
    issue w s = .fault (.reentrant (s.raised .reentrant)) :=
  if_pos hb

theorem issue_ok {s : State} {w : Word} {i : Instr} (hb : s.busy = false) (hd : decode w = .ok i) :
    issue w s = afterCommand (exec i s) := by
  simp only [issue, hb, hd, Bool.false_eq_true, if_false]

theorem issue_error {s : State} {w : Word} {e : DecodeError} (hb : s.busy = false) (hd : decode w = .error e) :
    issue w s = .fault (.illegalCommand w (s.raisedAtOnce .illegalCommand)) := by
  simp only [issue, hb, hd, Bool.false_eq_true, if_false]

/-! ### The ends of a command (R150, R153, R154) -/

/-- The command `i` completes from `s`, or stops as R153 and R154 say. -/
def StopsAsSpecified (i : Instr) (s : State) : Prop :=
  (∃ t, exec i s = .next t) ∨
  (∃ h n, exec i s = rangeFault h n s ∧ s.cfg.hmemSize < h.toNat + n.toNat) ∨
  (∃ p, exec i s = pushFault p s ∧ ¬ MayLower s p) ∨
  (exec i s = startFault s ∧ opensWithStart i s = true ∧ MayLower s .sda ∧ ¬ MayLower s .scl)

/-- With SDA not to be lowered, START's fault is raised before any effect (R154). -/
theorem startFault_eq_pushFault {s : State} (h : ¬ MayLower s .sda) : startFault s = pushFault .sda s := by
  obtain ⟨-, hout⟩ := pushesHigh_eq_true_iff.mp (pushesHigh_of_not_mayLower h)
  exact if_pos hout

namespace StopsAsSpecified

variable {i : Instr} {s t : State}

theorem of_next (h : exec i s = .next t) : StopsAsSpecified i s := .inl ⟨t, h⟩

theorem of_pushFault {p : Pin} (h : exec i s = pushFault p s) (hp : ¬ MayLower s p) : StopsAsSpecified i s :=
  .inr (.inr (.inl ⟨p, h, hp⟩))

/-- A command that opens with a START and may not lower both lines: on SDA the fault has no effect before it. -/
theorem of_startFault (h : exec i s = startFault s) (hopens : opensWithStart i s = true)
    (hl : ¬ (MayLower s .sda ∧ MayLower s .scl)) : StopsAsSpecified i s := by
  by_cases hd : MayLower s .sda
  · exact .inr (.inr (.inr ⟨h, hopens, hd, fun hk => hl ⟨hd, hk⟩⟩))
  · exact of_pushFault (h.trans (startFault_eq_pushFault hd)) hd

/-- A command whose one micro-operation that can fault is a `SetLow` of `p` at its start. -/
theorem of_setLow {p : Pin} (hnext : MayLower s p → exec i s = .next t)
    (hfault : ¬ MayLower s p → exec i s = pushFault p s) : StopsAsSpecified i s := by
  by_cases hp : MayLower s p
  · exact of_next (hnext hp)
  · exact of_pushFault (hfault hp) hp

/-- A command that sends the byte `v` first pulls SDA low where the top bit of `v` is 0 (R96). -/
theorem of_firstBit {v : Byte} (hnext : v.getLsbD 7 = true ∨ MayLower s .sda → exec i s = .next t)
    (hfault : v.getLsbD 7 = false → ¬ MayLower s .sda → exec i s = pushFault .sda s) : StopsAsSpecified i s := by
  cases hv : v.getLsbD 7 with
  | false => exact of_setLow (fun hd => hnext (.inr hd)) (hfault hv)
  | true => exact of_next (hnext (.inl hv))

/-- A command that opens with a START. -/
theorem of_start (hopens : opensWithStart i s = true) (hnext : MayLower s .sda ∧ MayLower s .scl → exec i s = .next t)
    (hfault : ¬ (MayLower s .sda ∧ MayLower s .scl) → exec i s = startFault s) : StopsAsSpecified i s := by
  by_cases hl : MayLower s .sda ∧ MayLower s .scl
  · exact of_next (hnext hl)
  · exact of_startFault (hfault hl) hopens hl

/-- A command that opens with an address phase: a START where no transaction is open (R109, R119). -/
theorem of_addressPhase (hopens : opensWithStart i s = !s.txing)
    (hnext : s.txing = true ∨ (MayLower s .sda ∧ MayLower s .scl) → exec i s = .next t)
    (hfault : s.txing = false → ¬ (MayLower s .sda ∧ MayLower s .scl) → exec i s = startFault s) :
    StopsAsSpecified i s := by
  cases ht : s.txing with
  | false => exact of_start (hopens.trans (by rw [ht]; rfl)) (fun hl => hnext (.inr hl)) (hfault ht)
  | true => exact of_next (hnext (.inl ht))

/-- A command on a range of HMEM stops at the check of R50, or as its body does. -/
theorem of_range {h : BitVec 32} {n : BitVec 16}
    (hout : s.cfg.hmemSize < h.toNat + n.toNat → exec i s = rangeFault h n s)
    (hfit : h.toNat + n.toNat ≤ s.cfg.hmemSize → StopsAsSpecified i s) : StopsAsSpecified i s := by
  by_cases hr : h.toNat + n.toNat ≤ s.cfg.hmemSize
  · exact hfit hr
  · exact .inr (.inl ⟨h, n, hout (Nat.lt_of_not_le hr), Nat.lt_of_not_le hr⟩)

end StopsAsSpecified

open StopsAsSpecified

/-- Without an attempt START_WAIT touches nothing and answers 0 (R93; R7 allows no such block). -/
theorem exec_startWait_noAttempt {ab : Byte} {s : State} (hn : s.cfg.nSw = 0) :
    exec (.startWait ab) s = .next (s.answered 0) := by
  have hrun : startWait s.cfg ab s.begun.lines = .ok false s.begun.lines := by
    rw [startWait, hn]
    rfl
  exact runBody_bind_ok (onLines_ok (f := fun c => startWait c ab) hrun)

theorem startWait_stops (ab : Byte) (s : State) : StopsAsSpecified (.startWait ab) s := by
  obtain hn | hn := Nat.eq_zero_or_pos s.cfg.nSw
  · exact of_next (exec_startWait_noAttempt hn)
  · by_cases hl : MayLower s .sda ∧ MayLower s .scl
    · obtain hall | ⟨m, hm, hrefused, hack⟩ := refused_or_acknowledged s.lines s.cfg.nSw
      · exact of_next (exec_startWait_refused hl hn hall)
      · exact of_next (exec_startWait_acknowledged hl hm hrefused hack)
    · exact of_startFault (exec_startWait_fault hn hl) rfl hl

theorem writeBuf_stops (haddr : BitVec 32) (len : BitVec 16) (s : State) : StopsAsSpecified (.writeBuf haddr len) s := by
  refine of_range exec_writeBuf_rangeFault fun hfit => ?_
  by_cases hn : len = 0
  · exact of_next (exec_writeBuf_empty hfit hn)
  · exact of_firstBit (exec_writeBuf_next hfit hn) fun hv hd =>
      exec_writeBuf_fault hfit hn (not_or.mpr ⟨ne_true_of_eq_false hv, hd⟩)

theorem exec_stops (i : Instr) (s : State) : StopsAsSpecified i s := by
  cases i with
  | setLow p =>
    exact of_setLow (fun hp => exec_setLow_next (pushesHigh_eq_false_iff.mpr hp))
      fun hp => exec_setLow_fault (pushesHigh_of_not_mayLower hp)
  | setHigh p => exact of_next (exec_setHigh p s)
  | start ab => exact of_start rfl exec_start_next exec_start_fault
  | repStart ab => exact of_next (exec_repStart_next ab s)
  | startWait ab => exact startWait_stops ab s
  | stop => exact of_setLow exec_stop_next exec_stop_fault
  | writeByte v => exact of_firstBit exec_writeByte_next exec_writeByte_fault
  | readByte last => exact of_next (exec_readByte_next last s)
  | busBegin => exact of_next (exec_busBegin s)
  | busEnd => exact of_next (exec_busEnd s)
  | beginTx a7 => exact of_addressPhase rfl exec_beginTx_next exec_beginTx_fault
  | endTx sendStop =>
    cases sendStop with
    | false => exact of_next (exec_endTx_open s)
    | true => exact of_setLow exec_endTx_close exec_endTx_fault
  | write b => exact of_firstBit exec_write_next exec_write_fault
  | writeBuf haddr len => exact writeBuf_stops haddr len s
  | requestFrom a7 qty iaddr isize sendStop =>
    exact of_addressPhase rfl (fun hl => exec_requestFrom_next (txing_or_lowerable hl)) exec_requestFrom_fault
  | available => exact of_next (exec_available s)
  | read => exact of_next (exec_read s)
  | peek =>
    by_cases hlt : s.rxpos < s.rxlen
    · exact of_next (exec_peek_of_lt hlt)
    · exact of_next (exec_peek_of_not_lt hlt)
  | crc8 haddr len => exact of_range exec_crc8_rangeFault fun hfit => of_next (exec_crc8_next hfit)
  | crcCheck haddr len => exact of_range exec_crcCheck_rangeFault fun hfit => of_next (exec_crcCheck_next hfit)

end Sys2Proof.Machine
end

section
/-! The obligations of 60_exceptions.md. -/

namespace Sys2Proof.Proofs

open Sys2Proof.Machine Sys2Proof.Claims

/-- Settles O10: command by command, the next state where it completes and the fault it raises otherwise. -/
theorem commandsStopAsTheSpecSays : Obligations.CommandsStopAsTheSpecSays :=
  exec_stops

/-- Settles O7: the move at the head of the script is the word, and `issue` runs its command. -/
theorem stepRunsTheDecodedCommand : Obligations.StepRunsTheDecodedCommand := by
  intro s w rest i hf hb hs hd
  rw [step_move hf hs, runMove, issue_ok hb hd]
  cases exec i s <;> rfl

/-- Settles O8: the step looks at FAULT, then `issue` at BUSY, then at the word. -/
theorem stepFaultsInTheOrderOfTheSpec : Obligations.StepFaultsInTheOrderOfTheSpec := by
  intro s w rest
  refine ⟨fun code => step_fault, fun hf hb hs => ?_, fun hf hb hs hd => ?_⟩
  · rw [step_move hf hs]
    exact issue_busy w hb
  · rw [step_move hf hs]
    cases hw : decode w with
    | ok i => exact absurd hw (hd i)
    | error e => exact issue_error hb hw

end Sys2Proof.Proofs
end

section
/-! SUPPORT. IE after a command (40_gpio.md R77, 70_reset_and_hazards.md R187): a command that completes left the lines as
they were, or ran a pin operation and left IE as the policy says. -/

namespace Sys2Proof.Machine

open Sys2Proof.Claims

/-! ### Event lists with a pin operation -/

/-- Whether an event list holds a pin operation. -/
def operatesPin (es : List Event) : Bool := es.any isPinEvent

@[simp] theorem operatesPin_append (es fs : List Event) : operatesPin (es ++ fs) = (operatesPin es || operatesPin fs) :=
  List.any_append

@[simp] theorem operatesPin_writeByteEvents (v : Byte) (a : Bool) : operatesPin (writeByteEvents v a) = true := by
  rw [writeByteEvents, operatesPin_append]
  exact Bool.or_true _

theorem operatesPin_readByteEvents (last : Bool) (o : List Bool) : operatesPin (readByteEvents last o) = true := by
  simp [readByteEvents, operatesPin, isPinEvent]

@[simp] theorem operatesPin_startEvents (ab : Byte) (a : Bool) : operatesPin (startEvents ab a) = true := rfl

@[simp] theorem operatesPin_addressEvents (opened : Bool) (ab : Byte) (a : Bool) :
    operatesPin (addressEvents opened ab a) = true := by
  cases opened <;> rfl

theorem operatesPin_refusedAttempts (ab : Byte) {n : Nat} (hn : 0 < n) : operatesPin (refusedAttempts ab n) = true := by
  cases n with
  | zero => cases hn
  | succ n => simp [refusedAttempts]

theorem operatesPin_writeEachEvents {vs : List Byte} {as : List Bool} (hv : 0 < vs.length) (ha : 0 < as.length) :
    operatesPin (writeEachEvents vs as) = true := by
  cases vs with
  | nil => cases hv
  | cons v vs =>
    cases as with
    | nil => cases ha
    | cons a as => simp [writeEachEvents]

theorem operatesPin_requestEvents (s : State) (a7 : BitVec 7) (iaddr : BitVec 24) (n q : Nat) (sendStop : Bool) :
    operatesPin (requestEvents s a7 iaddr n q sendStop) = true := by
  simp [requestEvents]

/-! ### The bytes WRITE_BUF sends (42_transaction.md R117) -/

theorem sentBytes_le (as : List Bool) : sentBytes as ≤ as.length := by
  unfold sentBytes
  split <;> omega

theorem sentBytes_pos {as : List Bool} (h : 0 < as.length) : 0 < sentBytes as := by
  unfold sentBytes
  split <;> omega

theorem length_take_sentBytes (m : Memory) (l : Lines) (a k n : Nat) :
    ((Memory.readRange m a n).take (sentBytes (l.answersFrom k n))).length = sentBytes (l.answersFrom k n) := by
  have hle := sentBytes_le (l.answersFrom k n)
  rw [length_answersFrom] at hle
  rw [List.length_take, length_readRange, Nat.min_eq_left hle]

/-! ### The lines after a command that completed -/

/-- From `s` to `t` a pin operation ran, and IE is as its exit leaves it (R77). -/
def OperatedPin (s t : State) : Prop := operatesPin t.lines.events = true ∧ t.lines.ie = ieAtExit s.cfg s.lines.ie

theorem lines_of_exec_startWait_next {ab : Byte} {s t : State} (h : exec (.startWait ab) s = .next t) :
    t.lines = s.begun.lines ∨ OperatedPin s t := by
  obtain hn | hn := Nat.eq_zero_or_pos s.cfg.nSw
  · rw [exec_startWait_noAttempt hn] at h
    cases h
    exact .inl rfl
  · obtain ⟨m, rfl⟩ | rfl := exec_startWait_next_cases hn h
    · exact .inr ⟨by simp, rfl⟩
    · exact .inr ⟨operatesPin_refusedAttempts ab hn, rfl⟩

theorem lines_of_exec_writeBuf_next {haddr : BitVec 32} {len : BitVec 16} {s t : State}
    (h : exec (.writeBuf haddr len) s = .next t) : t.lines = s.begun.lines ∨ OperatedPin s t := by
  obtain ⟨hfit, hn | ⟨hn, hsend⟩⟩ := exec_writeBuf_next_cases h
  · rw [exec_writeBuf_empty hfit hn] at h
    cases h
    exact .inl rfl
  · rw [exec_writeBuf_next hfit hn hsend] at h
    cases h
    have ha : 0 < (s.lines.answersFrom 0 len.toNat).length := by
      obtain ⟨n, hlen⟩ := exists_toNat_eq_succ hn
      rw [length_answersFrom, hlen]
      exact n.succ_pos
    exact .inr ⟨operatesPin_writeEachEvents (by rw [length_take_sentBytes]; exact sentBytes_pos ha) ha, rfl⟩

/-- A command that completes left the lines as they were when its body began, or operated a pin. -/
theorem lines_of_exec_next {i : Instr} {s t : State} (h : exec i s = .next t) :
    t.lines = s.begun.lines ∨ OperatedPin s t := by
  cases i with
  | setLow p =>
    cases hp : pushesHigh s.cfg (s.lines.pin p) with
    | false => rw [exec_setLow_next hp] at h; cases h; exact .inr ⟨rfl, rfl⟩
    | true => rw [exec_setLow_fault hp] at h; cases h
  | setHigh p => rw [exec_setHigh] at h; cases h; exact .inr ⟨rfl, rfl⟩
  | start ab => rw [eq_of_exec_start_next h]; exact .inr ⟨rfl, rfl⟩
  | repStart ab => rw [eq_of_exec_repStart_next h]; exact .inr ⟨rfl, rfl⟩
  | startWait ab => exact lines_of_exec_startWait_next h
  | stop => rw [eq_of_exec_stop_next h]; exact .inr ⟨rfl, rfl⟩
  | writeByte v => rw [eq_of_exec_writeByte_next h]; exact .inr ⟨operatesPin_writeByteEvents .., rfl⟩
  | readByte last => rw [eq_of_exec_readByte_next h]; exact .inr ⟨operatesPin_readByteEvents .., rfl⟩
  | busBegin => rw [exec_busBegin] at h; cases h; exact .inr ⟨rfl, rfl⟩
  | beginTx a7 => rw [eq_of_exec_beginTx_next h]; exact .inr ⟨operatesPin_addressEvents .., rfl⟩
  | endTx sendStop =>
    cases sendStop with
    | false => rw [exec_endTx_open] at h; cases h; exact .inl rfl
    | true => rw [eq_of_exec_endTx_close_next h]; exact .inr ⟨rfl, rfl⟩
  | write b => rw [eq_of_exec_write_next h]; exact .inr ⟨operatesPin_writeByteEvents .., rfl⟩
  | writeBuf haddr len => exact lines_of_exec_writeBuf_next h
  | requestFrom a7 qty iaddr isize sendStop =>
    rw [eq_of_exec_requestFrom_next h]; exact .inr ⟨operatesPin_requestEvents .., rfl⟩
  | busEnd | available | read | peek | crc8 haddr len | crcCheck haddr len =>
    rw [eq_of_exec_quiet_next rfl h]; exact .inl rfl

theorem ieAtExit_restore {c : Config} (hc : c.irqExit = .restore) (saved : Bool) : ieAtExit c saved = saved := by
  rw [ieAtExit, hc]

theorem ieAtExit_enable {c : Config} (hc : c.irqExit = .enable) (saved : Bool) : ieAtExit c saved = true := by
  rw [ieAtExit, hc]

end Sys2Proof.Machine
end

section
/-! SUPPORT. The counts of R190 (70_reset_and_hazards.md): delays, events and samples add up along an event list, so each
event list's counts follow from those of its groups, and each command's from its event list. -/

namespace Sys2Proof.Machine

open Sys2Proof.Claims

/-! ### Counts of the event lists -/

theorem countsOf_append (es fs : List Event) : countsOf (es ++ fs) = countsOf es + countsOf fs := by
  simp [countsOf]

theorem countsOf_flatMap {α : Type} {f : α → List Event} {c : Nat × Nat × Nat × Nat} (h : ∀ a, countsOf (f a) = c)
    (as : List α) : countsOf (as.flatMap f) = as.length • c := by
  induction as with
  | nil => simp [countsOf]
  | cons a as ih => rw [List.flatMap_cons, countsOf_append, h, ih, List.length_cons, succ_nsmul']

theorem countsOf_sentBitEvents (b : Bool) : countsOf (sentBitEvents b) = (1, 0, 4, 0) := by
  cases b <;> rfl

theorem countsOf_writeByteEvents (v : Byte) (a : Bool) : countsOf (writeByteEvents v a) = (8, 2, 39, 1) := by
  rw [writeByteEvents, countsOf_append, countsOf_flatMap countsOf_sentBitEvents]
  rfl

theorem countsOf_readBitEvents (b : Bool) : countsOf (readBitEvents b) = (1, 0, 4, 1) := rfl

theorem countsOf_readByteEvents (last : Bool) {o : List Bool} (ho : o.length = 8) :
    countsOf (readByteEvents last o) = (8, 2, 39, 8) := by
  rw [readByteEvents, countsOf_append, countsOf_append, countsOf_flatMap countsOf_readBitEvents, ho]
  cases last <;> rfl

theorem countsOf_startEvents (ab : Byte) (a : Bool) : countsOf (startEvents ab a) = (9, 2, 42, 1) := by
  rw [startEvents, countsOf_append, countsOf_writeByteEvents]
  rfl

theorem countsOf_repStartEvents (ab : Byte) (a : Bool) : countsOf (repStartEvents ab a) = (10, 2, 45, 1) := by
  rw [repStartEvents, countsOf_append, countsOf_startEvents]
  rfl

theorem countsOf_stopEvents : countsOf stopEvents = (3, 0, 6, 0) := rfl

theorem countsOf_addressEvents (opened : Bool) (ab : Byte) (a : Bool) :
    countsOf (addressEvents opened ab a) = if opened then (10, 2, 45, 1) else (9, 2, 42, 1) := by
  cases opened
  · exact countsOf_startEvents ab a
  · exact countsOf_repStartEvents ab a

theorem countsOf_refusedAttempts (ab : Byte) (n : Nat) : countsOf (refusedAttempts ab n) = n • (12, 2, 48, 1) := by
  induction n with
  | zero => rfl
  | succ n ih =>
    rw [refusedAttempts, countsOf_append, countsOf_append, countsOf_startEvents, countsOf_stopEvents, ih, succ_nsmul']
    rfl

/-- Bytes with an acknowledge sample for each. -/
theorem countsOf_writeEachEvents {vs : List Byte} {as : List Bool} (h : vs.length ≤ as.length) :
    countsOf (writeEachEvents vs as) = vs.length • (8, 2, 39, 1) := by
  induction vs generalizing as with
  | nil => rfl
  | cons v vs ih =>
    cases as with
    | nil => cases h
    | cons a as =>
      rw [writeEachEvents, countsOf_append, countsOf_writeByteEvents, ih (Nat.le_of_succ_le_succ h), List.length_cons,
        succ_nsmul']

/-- The bytes of a range up to and with the first refused one (42_transaction.md R117). -/
theorem countsOf_writeEachEvents_sent (m : Memory) (l : Lines) (a k n : Nat) :
    countsOf (writeEachEvents ((Memory.readRange m a n).take (sentBytes (l.answersFrom k n))) (l.answersFrom k n)) =
      sentBytes (l.answersFrom k n) • (8, 2, 39, 1) := by
  have hlen := length_take_sentBytes m l a k n
  rw [countsOf_writeEachEvents (hlen.trans_le (sentBytes_le _)), hlen]

theorem countsOf_readEachEvents (l : Lines) (k n : Nat) : countsOf (readEachEvents l k n) = n • (8, 2, 39, 8) := by
  induction n generalizing k with
  | zero => rfl
  | succ n ih =>
    rw [readEachEvents, countsOf_append, countsOf_readByteEvents _ (length_answersFrom ..), ih, succ_nsmul']

theorem countsOf_internalEvents (s : State) (a7 : BitVec 7) (iaddr : BitVec 24) (n : Nat) :
    countsOf (internalEvents s a7 iaddr n) =
      if n = 0 then 0 else (if s.txing then (10, 2, 45, 1) else (9, 2, 42, 1)) + n • (8, 2, 39, 1) := by
  unfold internalEvents
  split
  · rfl
  · rw [countsOf_append, countsOf_addressEvents, countsOf_writeEachEvents, length_iaddrBytes]
    rw [length_iaddrBytes, length_answersFrom]

theorem countsOf_requestEvents (s : State) (a7 : BitVec 7) (iaddr : BitVec 24) (n q : Nat) (sendStop : Bool) :
    countsOf (requestEvents s a7 iaddr n q sendStop) =
      countsOf (internalEvents s a7 iaddr n) +
        (if s.txing || n != 0 then (10, 2, 45, 1) else (9, 2, 42, 1)) + q • (8, 2, 39, 8) +
        if sendStop then (3, 0, 6, 0) else 0 := by
  rw [requestEvents, countsOf_append, countsOf_append, countsOf_append, countsOf_addressEvents, countsOf_readEachEvents]
  cases sendStop <;> rfl

/-! ### R190's rows that depend on the run -/

theorem countsOf_startWait {ab : Byte} {s t : State} (h : exec (.startWait ab) s = .next t) :
    countsOf t.lines.events = delayRow (.startWait ab) s t := by
  obtain hn | hn := Nat.eq_zero_or_pos s.cfg.nSw
  · rw [exec_startWait_noAttempt hn] at h
    cases h
    simp [delayRow, State.answered, countsOf, hn]
  · obtain ⟨m, rfl⟩ | rfl := exec_startWait_next_cases hn h
    · rw [movedTo_events, countsOf_append, countsOf_refusedAttempts, countsOf_startEvents]
      simp [delayRow, State.movedTo]
      omega
    · rw [movedTo_events, countsOf_refusedAttempts]
      simp [delayRow, State.movedTo, Nat.mul_comm]

/-- The bytes sent are those acknowledged and the refused one (42_transaction.md R117). -/
theorem countsOf_writeBuf {haddr : BitVec 32} {len : BitVec 16} {s t : State}
    (h : exec (.writeBuf haddr len) s = .next t) : countsOf t.lines.events = delayRow (.writeBuf haddr len) s t := by
  obtain ⟨hfit, rfl | ⟨hn, hsend⟩⟩ := exec_writeBuf_next_cases h
  · rw [exec_writeBuf_empty hfit rfl] at h
    cases h
    rfl
  · rw [exec_writeBuf_next hfit hn hsend] at h
    cases h
    rw [movedTo_events, countsOf_writeEachEvents_sent, sentBytes, length_answersFrom]
    simp only [delayRow, movedTo_res, toNat_resOfCount_ackedBytes]
    split <;> simp [Nat.mul_comm]

theorem countsOf_requestFrom {a7 : BitVec 7} {qty : Byte} {iaddr : BitVec 24} {isize : BitVec 2} {sendStop : Bool}
    {s t : State} (h : exec (.requestFrom a7 qty iaddr isize sendStop) s = .next t) :
    countsOf t.lines.events = delayRow (.requestFrom a7 qty iaddr isize sendStop) s t := by
  rw [eq_of_exec_requestFrom_next h]
  rw [State.requested, movedTo_events, countsOf_requestEvents, countsOf_internalEvents, delayRow, ← clampQty]
  by_cases hk : isize.toNat = 0
  · simp only [hk, if_true]
    cases s.txing <;> cases sendStop <;> simp <;> omega
  · simp only [hk, if_false]
    cases s.txing <;> cases sendStop <;> simp [hk] <;> omega

end Sys2Proof.Machine
end

section
/-! The obligations of 70_reset_and_hazards.md. -/

namespace Sys2Proof.Proofs

open Sys2Proof.Machine Sys2Proof.Claims

/-- Settles O20: lines left alone keep IE and hold no event; a pin operation leaves IE as the policy says. -/
theorem interruptEnableFollowsThePolicy : Obligations.InterruptEnableFollowsThePolicy := by
  intro i s t h
  obtain hl | ⟨hpin, hie⟩ := lines_of_exec_next h
  · rw [hl]
    exact ⟨fun _ => rfl, fun _ => (Bool.or_false _).symm⟩
  · rw [operatesPin] at hpin
    rw [hie, hpin, Bool.or_true]
    exact ⟨fun hc => ieAtExit_restore hc _, fun hc => ieAtExit_enable hc _⟩

/-- Settles O31: command by command, the counts of the event list it leaves. -/
theorem eventCountsAreTheTables : Obligations.EventCountsAreTheTables := by
  intro i s t h
  cases i with
  | setLow p =>
    cases hp : pushesHigh s.cfg (s.lines.pin p) with
    | false => rw [exec_setLow_next hp] at h; cases h; rfl
    | true => rw [exec_setLow_fault hp] at h; cases h
  | setHigh p => rw [exec_setHigh] at h; cases h; rfl
  | start ab => rw [eq_of_exec_start_next h]; exact countsOf_startEvents ..
  | repStart ab => rw [eq_of_exec_repStart_next h]; exact countsOf_repStartEvents ..
  | startWait ab => exact countsOf_startWait h
  | stop => rw [eq_of_exec_stop_next h]; rfl
  | writeByte v => rw [eq_of_exec_writeByte_next h]; exact countsOf_writeByteEvents ..
  | readByte last => rw [eq_of_exec_readByte_next h]; exact countsOf_readByteEvents _ (length_answersFrom ..)
  | busBegin => rw [exec_busBegin] at h; cases h; rfl
  | beginTx a7 => rw [eq_of_exec_beginTx_next h]; exact countsOf_addressEvents ..
  | endTx sendStop =>
    cases sendStop with
    | false => rw [exec_endTx_open] at h; cases h; rfl
    | true => rw [eq_of_exec_endTx_close_next h]; rfl
  | write b => rw [eq_of_exec_write_next h]; exact countsOf_writeByteEvents ..
  | writeBuf haddr len => exact countsOf_writeBuf h
  | requestFrom a7 qty iaddr isize sendStop => exact countsOf_requestFrom h
  | busEnd | available | read | peek | crc8 haddr len | crcCheck haddr len =>
    rw [eq_of_exec_quiet_next rfl h]; rfl

end Sys2Proof.Proofs
end
